-- ==== Sys2Proof/Word.lean ====
section
/-! DEFINITION. The machine's words (spec/00_scope.md R7, R8, R9, R11): every register value and every
address is a 32-bit unsigned word, and arithmetic on it is modulo 2^32. `BitVec` numbers its bits as
the spec does, from 0, the least significant. `BitVec.toInt` is the spec's `signed(v)`, `>>>` its `>>u`
and `BitVec.sshiftRight` its `>>s`; `<` compares unsigned (`<u`) and `BitVec.slt` signed (`<s`). -/

namespace Sys2Proof

/-- A `u32`: a register value or an address (R9). -/
abbrev Word := BitVec 32

/-- A halfword in memory (spec/20_memory.md R65). -/
abbrev Half := BitVec 16

/-- A byte in memory (spec/20_memory.md R64). -/
abbrev Byte := BitVec 8

/-- The number of a general register, 0 to 31 (spec/10_state.md R30), and the 5-bit field that names it. -/
abbrev RegName := BitVec 5

/-- A page index: bits 31:16 of an address (spec/10_state.md R45). -/
abbrev PageIndex := BitVec 16

end Sys2Proof
end

