-- ==== Sys2Proof/Syntax.lean ====
section
/-! DEFINITION. The instructions: one constructor per row of spec/opcode_table.json (spec/30_encoding.md R111).
A constructor carries, in the order of the word, EVERY field its format gives it (R101 to R104), the fields the
instruction does not use among them (R112 calls those don't-care), so that decoding drops no bit. Its meaning
ignores the unused ones. -/

namespace Sys2Proof

inductive Instr where
  /-- `sll rd, rt, shamt` (42_shifts.md R170); `rs` is don't-care. -/
  | sll (rs rt rd : RegName) (shamt : BitVec 5)
  /-- `srl rd, rt, shamt` (42_shifts.md R171); `rs` is don't-care. -/
  | srl (rs rt rd : RegName) (shamt : BitVec 5)
  /-- `sra rd, rt, shamt` (42_shifts.md R172); `rs` is don't-care. -/
  | sra (rs rt rd : RegName) (shamt : BitVec 5)
  /-- `sllv rd, rt, rs` (42_shifts.md R173); `shamt` is don't-care. -/
  | sllv (rs rt rd : RegName) (shamt : BitVec 5)
  /-- `srlv rd, rt, rs` (42_shifts.md R174); `shamt` is don't-care. -/
  | srlv (rs rt rd : RegName) (shamt : BitVec 5)
  /-- `srav rd, rt, rs` (42_shifts.md R175); `shamt` is don't-care. -/
  | srav (rs rt rd : RegName) (shamt : BitVec 5)
  /-- `jr rs` (45_control_transfer.md R224); `rt`, `rd` and `shamt` are don't-care. -/
  | jr (rs rt rd : RegName) (shamt : BitVec 5)
  /-- `syscall` (46_system.md R240); bits 25:6, `code`, are don't-care. -/
  | syscall (code : BitVec 20)
  /-- `break` (46_system.md R242); bits 25:6, `code`, are don't-care. -/
  | breakpoint (code : BitVec 20)
  /-- `add rd, rs, rt` (41_alu_register.md R150); `shamt` is don't-care. -/
  | add (rs rt rd : RegName) (shamt : BitVec 5)
  /-- `addu rd, rs, rt` (41_alu_register.md R151); `shamt` is don't-care. -/
  | addu (rs rt rd : RegName) (shamt : BitVec 5)
  /-- `sub rd, rs, rt` (41_alu_register.md R152); `shamt` is don't-care. -/
  | sub (rs rt rd : RegName) (shamt : BitVec 5)
  /-- `subu rd, rs, rt` (41_alu_register.md R153); `shamt` is don't-care. -/
  | subu (rs rt rd : RegName) (shamt : BitVec 5)
  /-- `and rd, rs, rt` (41_alu_register.md R154); `shamt` is don't-care. -/
  | and (rs rt rd : RegName) (shamt : BitVec 5)
  /-- `or rd, rs, rt` (41_alu_register.md R155); `shamt` is don't-care. -/
  | or (rs rt rd : RegName) (shamt : BitVec 5)
  /-- `xor rd, rs, rt` (41_alu_register.md R156); `shamt` is don't-care. -/
  | xor (rs rt rd : RegName) (shamt : BitVec 5)
  /-- `nor rd, rs, rt` (41_alu_register.md R157); `shamt` is don't-care. -/
  | nor (rs rt rd : RegName) (shamt : BitVec 5)
  /-- `slt rd, rs, rt` (41_alu_register.md R158); `shamt` is don't-care. -/
  | slt (rs rt rd : RegName) (shamt : BitVec 5)
  /-- `sltu rd, rs, rt` (41_alu_register.md R159); `shamt` is don't-care. -/
  | sltu (rs rt rd : RegName) (shamt : BitVec 5)
  /-- `j target` (45_control_transfer.md R222). -/
  | j (target : BitVec 26)
  /-- `jal target` (45_control_transfer.md R223). -/
  | jal (target : BitVec 26)
  /-- `beq rt, rs, label` (45_control_transfer.md R220). -/
  | beq (rs rt : RegName) (imm : BitVec 16)
  /-- `bne rt, rs, label` (45_control_transfer.md R221). -/
  | bne (rs rt : RegName) (imm : BitVec 16)
  /-- `addi rt, rs, imm` (43_alu_immediate.md R180). -/
  | addi (rs rt : RegName) (imm : BitVec 16)
  /-- `addiu rt, rs, imm` (43_alu_immediate.md R181). -/
  | addiu (rs rt : RegName) (imm : BitVec 16)
  /-- `slti rt, rs, imm` (43_alu_immediate.md R182). -/
  | slti (rs rt : RegName) (imm : BitVec 16)
  /-- `sltiu rt, rs, imm` (43_alu_immediate.md R183). -/
  | sltiu (rs rt : RegName) (imm : BitVec 16)
  /-- `andi rt, rs, imm` (43_alu_immediate.md R184). -/
  | andi (rs rt : RegName) (imm : BitVec 16)
  /-- `ori rt, rs, imm` (43_alu_immediate.md R185). -/
  | ori (rs rt : RegName) (imm : BitVec 16)
  /-- `xori rt, rs, imm` (43_alu_immediate.md R186). -/
  | xori (rs rt : RegName) (imm : BitVec 16)
  /-- `lui rt, imm` (43_alu_immediate.md R187); `rs` is don't-care. -/
  | lui (rs rt : RegName) (imm : BitVec 16)
  /-- `lb rt, imm(rs)` (44_load_store.md R201). -/
  | lb (rs rt : RegName) (imm : BitVec 16)
  /-- `lbu rt, imm(rs)` (44_load_store.md R202). -/
  | lbu (rs rt : RegName) (imm : BitVec 16)
  /-- `lh rt, imm(rs)` (44_load_store.md R203). -/
  | lh (rs rt : RegName) (imm : BitVec 16)
  /-- `lhu rt, imm(rs)` (44_load_store.md R204). -/
  | lhu (rs rt : RegName) (imm : BitVec 16)
  /-- `lw rt, imm(rs)` (44_load_store.md R205). -/
  | lw (rs rt : RegName) (imm : BitVec 16)
  /-- `sb rt, imm(rs)` (44_load_store.md R206). -/
  | sb (rs rt : RegName) (imm : BitVec 16)
  /-- `sh rt, imm(rs)` (44_load_store.md R207). -/
  | sh (rs rt : RegName) (imm : BitVec 16)
  /-- `sw rt, imm(rs)` (44_load_store.md R208). -/
  | sw (rs rt : RegName) (imm : BitVec 16)
  deriving DecidableEq, Repr

end Sys2Proof
end

