-- ==== Sys2Proof/WellFormed.lean ====
section
/-! DEFINITION. Well-formed instructions. A field's width is its type, so no field can be out of range; what is left
to check is spec/30_encoding.md R115: every field the instruction does not use is 0, as in every word the assembler
writes. The CPU does not check this (R112): an instruction that is not well-formed decodes and runs like the
well-formed one. -/

namespace Sys2Proof

/-- Every field the instruction does not use is 0 (spec/30_encoding.md R115, spec/92_eei_decisions.md D24). -/
def Instr.wellFormed : Instr → Bool
  | .sll rs _ _ _ => rs == 0
  | .srl rs _ _ _ => rs == 0
  | .sra rs _ _ _ => rs == 0
  | .sllv _ _ _ shamt => shamt == 0
  | .srlv _ _ _ shamt => shamt == 0
  | .srav _ _ _ shamt => shamt == 0
  | .jr _ rt rd shamt => rt == 0 && rd == 0 && shamt == 0
  | .syscall code => code == 0
  | .breakpoint code => code == 0
  | .add _ _ _ shamt => shamt == 0
  | .addu _ _ _ shamt => shamt == 0
  | .sub _ _ _ shamt => shamt == 0
  | .subu _ _ _ shamt => shamt == 0
  | .and _ _ _ shamt => shamt == 0
  | .or _ _ _ shamt => shamt == 0
  | .xor _ _ _ shamt => shamt == 0
  | .nor _ _ _ shamt => shamt == 0
  | .slt _ _ _ shamt => shamt == 0
  | .sltu _ _ _ shamt => shamt == 0
  | .j _ => true
  | .jal _ => true
  | .beq _ _ _ => true
  | .bne _ _ _ => true
  | .addi _ _ _ => true
  | .addiu _ _ _ => true
  | .slti _ _ _ => true
  | .sltiu _ _ _ => true
  | .andi _ _ _ => true
  | .ori _ _ _ => true
  | .xori _ _ _ => true
  | .lui rs _ _ => rs == 0
  | .lb _ _ _ => true
  | .lbu _ _ _ => true
  | .lh _ _ _ => true
  | .lhu _ _ _ => true
  | .lw _ _ _ => true
  | .sb _ _ _ => true
  | .sh _ _ _ => true
  | .sw _ _ _ => true

/-- The instruction with every field it does not use set to 0: what the assembler would write for it. -/
def Instr.canonical : Instr → Instr
  | .sll _ rt rd shamt => .sll 0 rt rd shamt
  | .srl _ rt rd shamt => .srl 0 rt rd shamt
  | .sra _ rt rd shamt => .sra 0 rt rd shamt
  | .sllv rs rt rd _ => .sllv rs rt rd 0
  | .srlv rs rt rd _ => .srlv rs rt rd 0
  | .srav rs rt rd _ => .srav rs rt rd 0
  | .jr rs _ _ _ => .jr rs 0 0 0
  | .syscall _ => .syscall 0
  | .breakpoint _ => .breakpoint 0
  | .add rs rt rd _ => .add rs rt rd 0
  | .addu rs rt rd _ => .addu rs rt rd 0
  | .sub rs rt rd _ => .sub rs rt rd 0
  | .subu rs rt rd _ => .subu rs rt rd 0
  | .and rs rt rd _ => .and rs rt rd 0
  | .or rs rt rd _ => .or rs rt rd 0
  | .xor rs rt rd _ => .xor rs rt rd 0
  | .nor rs rt rd _ => .nor rs rt rd 0
  | .slt rs rt rd _ => .slt rs rt rd 0
  | .sltu rs rt rd _ => .sltu rs rt rd 0
  | .j target => .j target
  | .jal target => .jal target
  | .beq rs rt imm => .beq rs rt imm
  | .bne rs rt imm => .bne rs rt imm
  | .addi rs rt imm => .addi rs rt imm
  | .addiu rs rt imm => .addiu rs rt imm
  | .slti rs rt imm => .slti rs rt imm
  | .sltiu rs rt imm => .sltiu rs rt imm
  | .andi rs rt imm => .andi rs rt imm
  | .ori rs rt imm => .ori rs rt imm
  | .xori rs rt imm => .xori rs rt imm
  | .lui _ rt imm => .lui 0 rt imm
  | .lb rs rt imm => .lb rs rt imm
  | .lbu rs rt imm => .lbu rs rt imm
  | .lh rs rt imm => .lh rs rt imm
  | .lhu rs rt imm => .lhu rs rt imm
  | .lw rs rt imm => .lw rs rt imm
  | .sb rs rt imm => .sb rs rt imm
  | .sh rs rt imm => .sh rs rt imm
  | .sw rs rt imm => .sw rs rt imm

end Sys2Proof
end

