-- ==== Sys2Proof/Decode.lean ====
section
/-! DEFINITION. Decoding and encoding (spec/30_encoding.md R100 to R115). `decode` reads one 32-bit word, `decodeBytes`
the four big-endian bytes of one; both are total and reject by name. `encode` lays the fields out as R102 to R104
draw them. -/

namespace Sys2Proof

/-! ### Fields of a word (R101) -/

def opcodeOf (w : Word) : BitVec 6 := w.extractLsb' 26 6
def rsOf (w : Word) : RegName := w.extractLsb' 21 5
def rtOf (w : Word) : RegName := w.extractLsb' 16 5
def rdOf (w : Word) : RegName := w.extractLsb' 11 5
def shamtOf (w : Word) : BitVec 5 := w.extractLsb' 6 5
def functOf (w : Word) : BitVec 6 := w.extractLsb' 0 6
def immOf (w : Word) : BitVec 16 := w.extractLsb' 0 16
def targetOf (w : Word) : BitVec 26 := w.extractLsb' 0 26
/-- Bits 25:6, the don't-care field of `syscall` and `break` (R112). -/
def codeOf (w : Word) : BitVec 20 := w.extractLsb' 6 20

/-! ### Layouts -/

/-- The R format (R102) under opcode 0, SPECIAL. -/
def packR (rs rt rd : RegName) (shamt : BitVec 5) (funct : BitVec 6) : Word :=
  (0 : BitVec 6) ++ rs ++ rt ++ rd ++ shamt ++ funct

/-- The R format of `syscall` and `break`: bits 25:6 as one field (R112). -/
def packCode (code : BitVec 20) (funct : BitVec 6) : Word :=
  (0 : BitVec 6) ++ code ++ funct

/-- The I format (R103). -/
def packI (opcode : BitVec 6) (rs rt : RegName) (imm : BitVec 16) : Word :=
  opcode ++ rs ++ rt ++ imm

/-- The J format (R104). -/
def packJ (opcode : BitVec 6) (target : BitVec 26) : Word :=
  opcode ++ target

/-! ### Decoding -/

/-- What decoding a word answers: an instruction, or why the word is none (R113). -/
inductive Decoded where
  | instr (i : Instr)
  /-- The opcode is not in the valid set of R113. -/
  | invalidOpcode (opcode : BitVec 6)
  /-- The opcode is 0 and the funct is not in the valid set of R113. -/
  | invalidFunct (funct : BitVec 6)
  deriving DecidableEq, Repr

/-- The instruction, where there is one. -/
def Decoded.toInstr? : Decoded → Option Instr
  | .instr i => some i
  | .invalidOpcode _ => none
  | .invalidFunct _ => none

/-- Selection by `funct` under opcode 0 (R111, R112, R113). -/
def decodeSpecial (w : Word) : Decoded :=
  match (functOf w).toNat with
  | 0x00 => .instr (.sll (rsOf w) (rtOf w) (rdOf w) (shamtOf w))
  | 0x02 => .instr (.srl (rsOf w) (rtOf w) (rdOf w) (shamtOf w))
  | 0x03 => .instr (.sra (rsOf w) (rtOf w) (rdOf w) (shamtOf w))
  | 0x04 => .instr (.sllv (rsOf w) (rtOf w) (rdOf w) (shamtOf w))
  | 0x06 => .instr (.srlv (rsOf w) (rtOf w) (rdOf w) (shamtOf w))
  | 0x07 => .instr (.srav (rsOf w) (rtOf w) (rdOf w) (shamtOf w))
  | 0x08 => .instr (.jr (rsOf w) (rtOf w) (rdOf w) (shamtOf w))
  | 0x0C => .instr (.syscall (codeOf w))
  | 0x0D => .instr (.breakpoint (codeOf w))
  | 0x20 => .instr (.add (rsOf w) (rtOf w) (rdOf w) (shamtOf w))
  | 0x21 => .instr (.addu (rsOf w) (rtOf w) (rdOf w) (shamtOf w))
  | 0x22 => .instr (.sub (rsOf w) (rtOf w) (rdOf w) (shamtOf w))
  | 0x23 => .instr (.subu (rsOf w) (rtOf w) (rdOf w) (shamtOf w))
  | 0x24 => .instr (.and (rsOf w) (rtOf w) (rdOf w) (shamtOf w))
  | 0x25 => .instr (.or (rsOf w) (rtOf w) (rdOf w) (shamtOf w))
  | 0x26 => .instr (.xor (rsOf w) (rtOf w) (rdOf w) (shamtOf w))
  | 0x27 => .instr (.nor (rsOf w) (rtOf w) (rdOf w) (shamtOf w))
  | 0x2A => .instr (.slt (rsOf w) (rtOf w) (rdOf w) (shamtOf w))
  | 0x2B => .instr (.sltu (rsOf w) (rtOf w) (rdOf w) (shamtOf w))
  | _ => .invalidFunct (functOf w)

/-- Decode one word (R112): by opcode, and under opcode 0 by funct. -/
def decode (w : Word) : Decoded :=
  match (opcodeOf w).toNat with
  | 0x00 => decodeSpecial w
  | 0x02 => .instr (.j (targetOf w))
  | 0x03 => .instr (.jal (targetOf w))
  | 0x04 => .instr (.beq (rsOf w) (rtOf w) (immOf w))
  | 0x05 => .instr (.bne (rsOf w) (rtOf w) (immOf w))
  | 0x08 => .instr (.addi (rsOf w) (rtOf w) (immOf w))
  | 0x09 => .instr (.addiu (rsOf w) (rtOf w) (immOf w))
  | 0x0A => .instr (.slti (rsOf w) (rtOf w) (immOf w))
  | 0x0B => .instr (.sltiu (rsOf w) (rtOf w) (immOf w))
  | 0x0C => .instr (.andi (rsOf w) (rtOf w) (immOf w))
  | 0x0D => .instr (.ori (rsOf w) (rtOf w) (immOf w))
  | 0x0E => .instr (.xori (rsOf w) (rtOf w) (immOf w))
  | 0x0F => .instr (.lui (rsOf w) (rtOf w) (immOf w))
  | 0x20 => .instr (.lb (rsOf w) (rtOf w) (immOf w))
  | 0x21 => .instr (.lh (rsOf w) (rtOf w) (immOf w))
  | 0x23 => .instr (.lw (rsOf w) (rtOf w) (immOf w))
  | 0x24 => .instr (.lbu (rsOf w) (rtOf w) (immOf w))
  | 0x25 => .instr (.lhu (rsOf w) (rtOf w) (immOf w))
  | 0x28 => .instr (.sb (rsOf w) (rtOf w) (immOf w))
  | 0x29 => .instr (.sh (rsOf w) (rtOf w) (immOf w))
  | 0x2B => .instr (.sw (rsOf w) (rtOf w) (immOf w))
  | _ => .invalidOpcode (opcodeOf w)

/-! ### Encoding -/

/-- The word of an instruction (R102 to R104, R111). -/
def encode : Instr → Word
  | .sll rs rt rd shamt => packR rs rt rd shamt 0x00
  | .srl rs rt rd shamt => packR rs rt rd shamt 0x02
  | .sra rs rt rd shamt => packR rs rt rd shamt 0x03
  | .sllv rs rt rd shamt => packR rs rt rd shamt 0x04
  | .srlv rs rt rd shamt => packR rs rt rd shamt 0x06
  | .srav rs rt rd shamt => packR rs rt rd shamt 0x07
  | .jr rs rt rd shamt => packR rs rt rd shamt 0x08
  | .syscall code => packCode code 0x0C
  | .breakpoint code => packCode code 0x0D
  | .add rs rt rd shamt => packR rs rt rd shamt 0x20
  | .addu rs rt rd shamt => packR rs rt rd shamt 0x21
  | .sub rs rt rd shamt => packR rs rt rd shamt 0x22
  | .subu rs rt rd shamt => packR rs rt rd shamt 0x23
  | .and rs rt rd shamt => packR rs rt rd shamt 0x24
  | .or rs rt rd shamt => packR rs rt rd shamt 0x25
  | .xor rs rt rd shamt => packR rs rt rd shamt 0x26
  | .nor rs rt rd shamt => packR rs rt rd shamt 0x27
  | .slt rs rt rd shamt => packR rs rt rd shamt 0x2A
  | .sltu rs rt rd shamt => packR rs rt rd shamt 0x2B
  | .j target => packJ 0x02 target
  | .jal target => packJ 0x03 target
  | .beq rs rt imm => packI 0x04 rs rt imm
  | .bne rs rt imm => packI 0x05 rs rt imm
  | .addi rs rt imm => packI 0x08 rs rt imm
  | .addiu rs rt imm => packI 0x09 rs rt imm
  | .slti rs rt imm => packI 0x0A rs rt imm
  | .sltiu rs rt imm => packI 0x0B rs rt imm
  | .andi rs rt imm => packI 0x0C rs rt imm
  | .ori rs rt imm => packI 0x0D rs rt imm
  | .xori rs rt imm => packI 0x0E rs rt imm
  | .lui rs rt imm => packI 0x0F rs rt imm
  | .lb rs rt imm => packI 0x20 rs rt imm
  | .lh rs rt imm => packI 0x21 rs rt imm
  | .lw rs rt imm => packI 0x23 rs rt imm
  | .lbu rs rt imm => packI 0x24 rs rt imm
  | .lhu rs rt imm => packI 0x25 rs rt imm
  | .sb rs rt imm => packI 0x28 rs rt imm
  | .sh rs rt imm => packI 0x29 rs rt imm
  | .sw rs rt imm => packI 0x2B rs rt imm

/-! ### Words and bytes -/

/-- The big-endian word of four bytes (R100; spec/20_memory.md R66). -/
def wordOfBytes (b0 b1 b2 b3 : Byte) : Word := b0 ++ b1 ++ b2 ++ b3

/-- The four bytes of a word, lowest address first (spec/20_memory.md R69). -/
def bytesOfWord (w : Word) : List Byte :=
  [w.extractLsb' 24 8, w.extractLsb' 16 8, w.extractLsb' 8 8, w.extractLsb' 0 8]

/-- What decoding a list of bytes answers: a decoded word with the bytes after it, or too few bytes for one. -/
inductive DecodedBytes where
  | word (d : Decoded) (rest : List Byte)
  | truncated (bytes : List Byte)
  deriving DecidableEq, Repr

/-- Decode the first four bytes (R100: a decoder always consumes exactly four). -/
def decodeBytes : List Byte → DecodedBytes
  | b0 :: b1 :: b2 :: b3 :: rest => .word (decode (wordOfBytes b0 b1 b2 b3)) rest
  | bytes => .truncated bytes

/-- The bytes of an instruction as they lie in memory. -/
def encodeBytes (i : Instr) : List Byte := bytesOfWord (encode i)

/-- The instruction the decoder reads from an instruction whose bits are `w`, numbered as spec/opcode_table.json
numbers them. Every row is one 32-bit word; bits from `nbits` on are 0. -/
def decodeTableWord (nbits w : Nat) : Option Instr :=
  match decodeBytes (bytesOfWord (BitVec.ofNat 32 (w % 2 ^ nbits))) with
  | .word d _ => d.toInstr?
  | .truncated _ => none

end Sys2Proof
end

