-- ==== Sys2Proof/Config.lean ====
section
/-! DEFINITION. The parameters of the hardware with the values this hardware takes
(spec/00_scope.md R7, spec/20_memory.md R79). All are fixed but the two segment bases of the assembler,
which are arguments of `assemble` with the defaults below (spec/92_eei_decisions.md D35). The spec leaves
no value of a step open, so there is no free value here. -/

namespace Sys2Proof.Config

/-- `RESET_PC`: the entry point, whatever the assembler's configuration (spec/70_reset_and_hazards.md R457). -/
def resetPc : Word := 0x00040000

/-- `RESET_GP`: register 28 after reset (spec/10_state.md R34). -/
def resetGp : Word := 0x10008000

/-- `RESET_SP`: register 29 after reset (spec/10_state.md R34). -/
def resetSp : Word := 0x7FFFFFFC

/-- Default `TEXT_START` (spec/48_assembler.md R302). -/
def textStart : Word := 0x00040000

/-- Default `DATA_START` (spec/48_assembler.md R302). -/
def dataStart : Word := 0x10000000

end Sys2Proof.Config
end

