-- ==== Sys2Proof/Machine/State.lean ====
section
/-! DEFINITION. The state of the machine (spec/10_state.md) as plain data, the exception kinds
(spec/60_exceptions.md R400), the reasons a step could stop, and the state after reset. -/

namespace Sys2Proof.Machine

/-- The kinds of the exception mask (spec/60_exceptions.md R400). `NONE` is the empty mask.
`branchInDelaySlot` and `pcLimit` are in the mask's layout and never raised (R401). -/
inductive ExceptionKind where
  | invalidInst
  | intOverflow
  | pcAlign
  | dataAlign
  | branchInDelaySlot
  | breakpoint
  | pcLimit
  | syscall
  deriving DecidableEq, Repr

structure State where
  /-- The general registers (spec/10_state.md R30). Entry 0 is hard-wired to 0 (R31). -/
  regs : Vector Word 32
  /-- The program counter (R36). -/
  pc : Word
  /-- Executed instructions since reset, unbounded (R39). -/
  cycle : Nat
  /-- Set by `syscall`, cleared by reset (R40). -/
  halted : Bool
  /-- The inert delay-slot scratch (R41): `none` for ever. -/
  branchTarget : Option Word
  /-- The bytes of memory (R46): address and byte, addresses rising, an unlisted address reads 0. -/
  mem : List Host.Cell
  /-- The page set (R45): the indices of the allocated pages, rising. -/
  pages : List PageIndex
  /-- The exception mask the last step returned (R42, spec/60_exceptions.md R400). The model's own field:
  the spec makes the mask a step's result, and the step's result here is a state. -/
  mask : BitVec 8
  /-- The host's stop request, which the driver reads (spec/60_exceptions.md R421). -/
  stopRequest : Bool
  deriving DecidableEq, Repr

/-- Reasons a step stops with a fault: none. A step is total (spec/40_step.md R142); what the spec calls
exceptions are bits of the mask. -/
inductive Fault
  deriving DecidableEq, Repr

/-- Reasons a step is refused. -/
inductive Refusal where
  /-- Raised by an arm of `exec` for an instruction that has no meaning in the model yet. No arm does:
  every instruction has its meaning. Safe: the model would stop where the hardware goes on. -/
  | notModelled (mnemonic : String)
  deriving DecidableEq, Repr

/-- The register file after reset (spec/70_reset_and_hazards.md R450). -/
def resetRegs : Vector Word 32 :=
  ((Vector.replicate 32 (0 : Word)).set 28 Config.resetGp).set 29 Config.resetSp

/-- The machine after `new(memory)` on a memory just constructed (spec/70_reset_and_hazards.md R450, R452, R454):
memory all zero, no page allocated. `mask` is NONE, since no step has run. -/
def State.reset : State where
  regs := resetRegs
  pc := Config.resetPc
  cycle := 0
  halted := false
  branchTarget := none
  mem := []
  pages := []
  mask := 0
  stopRequest := false

end Sys2Proof.Machine
end

