-- ==== Sys2Proof/Machine/Flags.lean ====
section
/-! DEFINITION. The hardware has no flags (spec/10_state.md R43). What stands in their place: the bits of the
exception mask (spec/60_exceptions.md R400), the overflow conditions (spec/41_alu_register.md R150, R152) and the 0 or 1 a
comparison writes (R158). -/

namespace Sys2Proof.Machine

/-- The bit of a kind (spec/60_exceptions.md R400). -/
def ExceptionKind.bit : ExceptionKind → BitVec 8
  | .invalidInst => 1
  | .intOverflow => 2
  | .pcAlign => 4
  | .dataAlign => 8
  | .branchInDelaySlot => 16
  | .breakpoint => 32
  | .pcLimit => 64
  | .syscall => 128

/-- An exact integer lies outside `[-2^31, 2^31)`. -/
def outsideSigned (x : Int) : Bool := decide (x < -2 ^ 31) || decide (2 ^ 31 ≤ x)

/-- The exact signed sum leaves the 32-bit range (spec/41_alu_register.md R150, spec/43_alu_immediate.md R180). -/
def addOverflows (a b : Word) : Bool := outsideSigned (a.toInt + b.toInt)

/-- The exact signed difference leaves the 32-bit range (spec/41_alu_register.md R152). -/
def subOverflows (a b : Word) : Bool := outsideSigned (a.toInt - b.toInt)

/-- The 0 or 1 a comparison writes (spec/10_state.md R43). -/
def boolWord (b : Bool) : Word := if b then 1 else 0

/-- Signed less-than (spec/41_alu_register.md R158, spec/43_alu_immediate.md R182). -/
def signedLess (a b : Word) : Bool := decide (a.toInt < b.toInt)

/-- Unsigned less-than (spec/41_alu_register.md R159, spec/43_alu_immediate.md R183). -/
def unsignedLess (a b : Word) : Bool := decide (a.toNat < b.toNat)

end Sys2Proof.Machine
end

