-- ==== Sys2Proof/Machine/Memory.lean ====
section
/-! DEFINITION. The memory (spec/20_memory.md): the list of listed bytes in its canonical form, the page set in its
canonical form, and the primitives of R64 to R69 and R72 on a state. Byte order is decided here, once. -/

namespace Sys2Proof.Machine

/-! ### The byte list -/

/-- The byte at an address (R63): what was most recently written, or 0. -/
def memRead : List Host.Cell → Nat → Byte
  | [], _ => 0
  | (k, b) :: rest, a => if k = a then b else memRead rest a

/-- Put a listed byte in its place. -/
def insertCell (a : Nat) (v : Byte) : List Host.Cell → List Host.Cell
  | [] => [(a, v)]
  | (k, b) :: rest => if a < k then (a, v) :: (k, b) :: rest else (k, b) :: insertCell a v rest

/-- Write one byte (R67). Writing 0, what an unlisted address reads as, unlists the address. -/
def memWrite (m : List Host.Cell) (a : Nat) (v : Byte) : List Host.Cell :=
  let others := m.filter (fun c => c.1 != a)
  if v = 0 then others else insertCell a v others

/-- Every entry of `m` lies above `lo`, strictly rising, below 2^32, and lists no 0. -/
def memWfFrom (lo : Nat) : List Host.Cell → Bool
  | [] => true
  | (k, b) :: rest => decide (lo ≤ k) && decide (k < 2 ^ 32) && b != 0 && memWfFrom (k + 1) rest

/-- The canonical form of a memory: addresses strictly rising and below 2^32, no byte 0 listed. -/
def Memory.wf (m : List Host.Cell) : Bool := memWfFrom 0 m

/-! ### The page set -/

/-- The page index of an address (R61). -/
def pageOf (a : Word) : PageIndex := a.extractLsb' 16 16

/-- Put a page index into the set (R62). -/
def insertPage (p : PageIndex) : List PageIndex → List PageIndex
  | [] => [p]
  | q :: rest =>
    if p < q then p :: q :: rest
    else if p = q then q :: rest
    else q :: insertPage p rest

/-- The page list rises strictly from `lo` on. -/
def pagesWfFrom (lo : Nat) : List PageIndex → Bool
  | [] => true
  | q :: rest => decide (lo ≤ q.toNat) && pagesWfFrom (q.toNat + 1) rest

/-- The canonical form of a page set. -/
def Pages.wf (ps : List PageIndex) : Bool := pagesWfFrom 0 ps

/-- Allocate the pages of the `n` bytes at `a`, `a + 1`, … (R62, R71: consecutive addresses modulo 2^32, each
resolved by itself). -/
def touch (a : Word) : Nat → State → State
  | 0, s => s
  | n + 1, s => touch (a + 1) n { s with pages := insertPage (pageOf a) s.pages }

/-! ### Values (the reading half of R64 to R66) -/

/-- `B(a)`: the byte at `a`. -/
def byteAt (s : State) (a : Word) : Byte := memRead s.mem a.toNat

/-- The big-endian halfword at `a` (R65). -/
def halfAt (s : State) (a : Word) : Half := byteAt s a ++ byteAt s (a + 1)

/-- The big-endian word at `a` (R66). -/
def wordAt (s : State) (a : Word) : Word :=
  byteAt s a ++ byteAt s (a + 1) ++ byteAt s (a + 2) ++ byteAt s (a + 3)

/-- The `n` bytes at `a`, `a + 1`, … (R72). -/
def bytesAt (s : State) (a : Word) : Nat → List Byte
  | 0 => []
  | n + 1 => byteAt s a :: bytesAt s (a + 1) n

/-! ### The primitives -/

/-- `get_byte(a)` (R64). -/
def getByte (a : Word) (s : State) : Byte × State := (byteAt s a, touch a 1 s)

/-- `get_half(a)` (R65). -/
def getHalf (a : Word) (s : State) : Half × State := (halfAt s a, touch a 2 s)

/-- `get_word(a)` (R66). -/
def getWord (a : Word) (s : State) : Word × State := (wordAt s a, touch a 4 s)

/-- `dump(start, len)` (R72): it allocates the pages it reads, none where `len` is 0. -/
def dump (start : Word) (len : Nat) (s : State) : List Byte × State :=
  (bytesAt s start len, touch start len s)

/-- Store one byte and allocate its page (R62, R67). -/
def putByte (a : Word) (b : Byte) (s : State) : State :=
  { s with mem := memWrite s.mem a.toNat b, pages := insertPage (pageOf a) s.pages }

/-- Store bytes at `a`, `a + 1`, … (R68, R69, R71). -/
def putBytes (a : Word) : List Byte → State → State
  | [], s => s
  | b :: rest, s => putBytes (a + 1) rest (putByte a b s)

/-- `set_byte(a, v)` (R67): the low 8 bits of `v`. -/
def setByte (a v : Word) (s : State) : State := putBytes a [v.extractLsb' 0 8] s

/-- `set_half(a, v)` (R68): the low 16 bits of `v`, the more significant byte first. -/
def setHalf (a v : Word) (s : State) : State :=
  putBytes a [v.extractLsb' 8 8, v.extractLsb' 0 8] s

/-- `set_word(a, v)` (R69): the most significant byte first. -/
def setWord (a v : Word) (s : State) : State :=
  putBytes a [v.extractLsb' 24 8, v.extractLsb' 16 8, v.extractLsb' 8 8, v.extractLsb' 0 8] s

/-- Store words at `a`, `a + 4`, … (the second phase of R73). -/
def putWords (a : Word) : List Word → State → State
  | [], s => s
  | w :: rest, s => putWords (a + 4) rest (setWord a w s)

end Sys2Proof.Machine
end

