-- ==== Sys2Proof/Machine/Ops.lean ====
section
/-! DEFINITION. The named operations every meaning is built from: registers, raising an exception, the two ends of a
step (spec/40_step.md R142), and what an invalid word does. -/

namespace Sys2Proof.Machine

/-! ### Registers -/

/-- `x[i]` (spec/00_scope.md R11). Register 0 reads 0 (spec/10_state.md R31, spec/40_step.md R131). -/
def readReg (s : State) (r : RegName) : Word :=
  if r = 0 then 0 else s.regs[r.toNat]'(r.isLt)

/-- `x[i] <- v`. A write to register 0 is discarded (spec/10_state.md R31, spec/40_step.md R132). -/
def writeReg (r : RegName) (v : Word) (s : State) : State :=
  if r = 0 then s else { s with regs := s.regs.set r.toNat v r.isLt }

/-- `x[0] <- 0`, as every step does on entry and on exit (spec/40_step.md R131, R132). -/
def clearZero (s : State) : State := { s with regs := s.regs.set 0 0 }

/-! ### Exceptions -/

/-- `raise E` (spec/00_scope.md R13): taking an exception ORs its bit into the mask of the step and does nothing else. No
state is saved, no mode changes, control goes nowhere (spec/60_exceptions.md R405); so there is nothing to return
from and no return (R406). -/
def raise (e : ExceptionKind) (s : State) : State := { s with mask := s.mask ||| e.bit }

/-- `if c: raise E`. -/
def raiseIf (c : Bool) (e : ExceptionKind) (s : State) : State := if c then raise e s else s

/-! ### The entry of a step -/

/-- The start of a step (spec/40_step.md R140, R131, R130): the mask is NONE, register 0 is cleared, and the fetch
allocates the page of `pc`. -/
def enterStep (s : State) : State := touch s.pc 4 (clearZero { s with mask := 0 })

/-- The word at `pc` (spec/40_step.md R130). -/
def fetchWord (s : State) : Word := wordAt s s.pc

/-- The address of the following word: `next_pc` before execution (spec/40_step.md R134). -/
def seqPc (s : State) : Word := s.pc + 4

/-! ### The exit of a step -/

/-- Round up to a multiple of 4, modulo 2^32 (spec/40_step.md R137). -/
def roundUp (t : Word) : Word := (t + 3) &&& 0xFFFFFFFC

/-- The PC sequencer (spec/40_step.md R137): a misaligned `next_pc` raises PC_ALIGN and is rounded up. -/
def sequencer (nextPc : Word) (s : State) : State :=
  if nextPc &&& 3 = 0 then { s with pc := nextPc }
  else { raise .pcAlign s with pc := roundUp nextPc }

/-- The exit of every step, that of `syscall` among them: register 0 is cleared, `cycle` counts (spec/40_step.md R132, R138). -/
def exitStep (s : State) : State := { clearZero s with cycle := s.cycle + 1 }

/-- The end of every step but that of `syscall`: the PC sequencer, then the exit (spec/40_step.md R142). -/
def retire (nextPc : Word) (s : State) : State := exitStep (sequencer nextPc s)

/-- The end of an instruction that writes `v` to register `r` and does not transfer control. -/
def writeBack (r : RegName) (v : Word) (s : State) : State := retire (seqPc s) (writeReg r v s)

/-- The end of an instruction whose only effect is to raise `e` (spec/40_step.md R143). -/
def raiseOnly (e : ExceptionKind) (s : State) : State := retire (seqPc s) (raise e s)

/-- What a word that encodes no instruction does (spec/46_system.md R245): a defined step that raises INVALID_INST. -/
def execInvalid (s : State) : Host.Outcome State Fault Refusal := .next (raiseOnly .invalidInst s)

end Sys2Proof.Machine
end

