-- ==== Sys2Proof/Machine/Operands.lean ====
section
/-! DEFINITION. How operands are formed (spec/30_encoding.md R105 to R110, spec/44_load_store.md R200). -/

namespace Sys2Proof.Machine

/-- `imms`: the immediate sign-extended (R105). -/
def imms (imm : BitVec 16) : Word := imm.signExtend 32

/-- `zext_16(imm)`: the immediate zero-extended (R105). -/
def immz (imm : BitVec 16) : Word := imm.setWidth 32

/-- `imm << 16`: the value of `lui` (R110). -/
def immUpper (imm : BitVec 16) : Word := imm.setWidth 32 <<< 16

/-- The shift amount in a register: its low 5 bits (R106). -/
def shiftAmount (v : Word) : BitVec 5 := v.extractLsb' 0 5

/-- The effective address `x[rs] + imms`, modulo 2^32 (R109). -/
def effectiveAddress (s : State) (rs : RegName) (imm : BitVec 16) : Word := readReg s rs + imms imm

/-- The address is a multiple of the access width, 1, 2 or 4 (spec/44_load_store.md R200). -/
def alignedTo (width : Nat) (a : Word) : Bool := a.toNat % width == 0

/-- The target of a taken branch: `pc + (imms << 2)`, from the branch's own address (R108). -/
def branchTo (s : State) (imm : BitVec 16) : Word := s.pc + imms imm <<< 2

/-- The target of a jump: `(pc & 0xF0000000) | (target << 2)` (R107). -/
def jumpTo (s : State) (target : BitVec 26) : Word := (s.pc &&& (0xF0000000 : Word)) ||| (target.setWidth 32 <<< 2)

/-- `sext_8` of a byte read from memory (spec/00_scope.md R10). -/
def signedByte (b : Byte) : Word := b.signExtend 32

/-- `zext_8`. -/
def unsignedByte (b : Byte) : Word := b.setWidth 32

/-- `sext_16` of a halfword read from memory. -/
def signedHalf (h : Half) : Word := h.signExtend 32

/-- `zext_16`. -/
def unsignedHalf (h : Half) : Word := h.setWidth 32

end Sys2Proof.Machine
end

