-- ==== Sys2Proof/Machine/Alu.lean ====
section
/-! DEFINITION. Register-register arithmetic and logic (spec/41_alu_register.md R150 to R159). Each reads both sources before it
writes `rd` (spec/40_step.md R136). -/

namespace Sys2Proof.Machine

/-- `add` (R150): the wrapped sum is written, and INT_OVERFLOW raised when the exact signed sum leaves the range. -/
def execAdd (rs rt rd : RegName) (s : State) : Host.Outcome State Fault Refusal :=
  let a := readReg s rs
  let b := readReg s rt
  .next (writeBack rd (a + b) (raiseIf (addOverflows a b) .intOverflow s))

/-- `addu` (R151). -/
def execAddu (rs rt rd : RegName) (s : State) : Host.Outcome State Fault Refusal :=
  .next (writeBack rd (readReg s rs + readReg s rt) s)

/-- `sub` (R152): the wrapped difference is written, and INT_OVERFLOW raised when the exact one leaves the range. -/
def execSub (rs rt rd : RegName) (s : State) : Host.Outcome State Fault Refusal :=
  let a := readReg s rs
  let b := readReg s rt
  .next (writeBack rd (a - b) (raiseIf (subOverflows a b) .intOverflow s))

/-- `subu` (R153). -/
def execSubu (rs rt rd : RegName) (s : State) : Host.Outcome State Fault Refusal :=
  .next (writeBack rd (readReg s rs - readReg s rt) s)

/-- `and` (R154). -/
def execAnd (rs rt rd : RegName) (s : State) : Host.Outcome State Fault Refusal :=
  .next (writeBack rd (readReg s rs &&& readReg s rt) s)

/-- `or` (R155). -/
def execOr (rs rt rd : RegName) (s : State) : Host.Outcome State Fault Refusal :=
  .next (writeBack rd (readReg s rs ||| readReg s rt) s)

/-- `xor` (R156). -/
def execXor (rs rt rd : RegName) (s : State) : Host.Outcome State Fault Refusal :=
  .next (writeBack rd (readReg s rs ^^^ readReg s rt) s)

/-- `nor` (R157). -/
def execNor (rs rt rd : RegName) (s : State) : Host.Outcome State Fault Refusal :=
  .next (writeBack rd (~~~(readReg s rs ||| readReg s rt)) s)

/-- `slt` (R158). -/
def execSlt (rs rt rd : RegName) (s : State) : Host.Outcome State Fault Refusal :=
  .next (writeBack rd (boolWord (signedLess (readReg s rs) (readReg s rt))) s)

/-- `sltu` (R159). -/
def execSltu (rs rt rd : RegName) (s : State) : Host.Outcome State Fault Refusal :=
  .next (writeBack rd (boolWord (unsignedLess (readReg s rs) (readReg s rt))) s)

end Sys2Proof.Machine
end

