-- ==== Sys2Proof/Machine/AluImm.lean ====
section
/-! DEFINITION. Immediate arithmetic and logic (spec/43_alu_immediate.md R180 to R187). -/

namespace Sys2Proof.Machine

/-- `addi` (R180): the wrapped sum is written, and INT_OVERFLOW raised when the exact signed sum leaves the range. -/
def execAddi (rs rt : RegName) (imm : BitVec 16) (s : State) : Host.Outcome State Fault Refusal :=
  let a := readReg s rs
  .next (writeBack rt (a + imms imm) (raiseIf (addOverflows a (imms imm)) .intOverflow s))

/-- `addiu` (R181). -/
def execAddiu (rs rt : RegName) (imm : BitVec 16) (s : State) : Host.Outcome State Fault Refusal :=
  .next (writeBack rt (readReg s rs + imms imm) s)

/-- `slti` (R182). -/
def execSlti (rs rt : RegName) (imm : BitVec 16) (s : State) : Host.Outcome State Fault Refusal :=
  .next (writeBack rt (boolWord (signedLess (readReg s rs) (imms imm))) s)

/-- `sltiu` (R183). -/
def execSltiu (rs rt : RegName) (imm : BitVec 16) (s : State) : Host.Outcome State Fault Refusal :=
  .next (writeBack rt (boolWord (unsignedLess (readReg s rs) (imms imm))) s)

/-- `andi` (R184). -/
def execAndi (rs rt : RegName) (imm : BitVec 16) (s : State) : Host.Outcome State Fault Refusal :=
  .next (writeBack rt (readReg s rs &&& immz imm) s)

/-- `ori` (R185). -/
def execOri (rs rt : RegName) (imm : BitVec 16) (s : State) : Host.Outcome State Fault Refusal :=
  .next (writeBack rt (readReg s rs ||| immz imm) s)

/-- `xori` (R186). -/
def execXori (rs rt : RegName) (imm : BitVec 16) (s : State) : Host.Outcome State Fault Refusal :=
  .next (writeBack rt (readReg s rs ^^^ immz imm) s)

/-- `lui` (R187). -/
def execLui (rt : RegName) (imm : BitVec 16) (s : State) : Host.Outcome State Fault Refusal :=
  .next (writeBack rt (immUpper imm) s)

end Sys2Proof.Machine
end

