-- ==== Sys2Proof/Machine/Control.lean ====
section
/-! DEFINITION. Branches and jumps (spec/45_control_transfer.md R220 to R224). There is no delay slot (R230): the `next_pc` set here is
the address of the very next instruction. -/

namespace Sys2Proof.Machine

/-- `beq` (R220). -/
def execBeq (rs rt : RegName) (imm : BitVec 16) (s : State) : Host.Outcome State Fault Refusal :=
  .next (retire (if readReg s rs = readReg s rt then branchTo s imm else seqPc s) s)

/-- `bne` (R221). -/
def execBne (rs rt : RegName) (imm : BitVec 16) (s : State) : Host.Outcome State Fault Refusal :=
  .next (retire (if readReg s rs ≠ readReg s rt then branchTo s imm else seqPc s) s)

/-- `j` (R222). -/
def execJ (target : BitVec 26) (s : State) : Host.Outcome State Fault Refusal :=
  .next (retire (jumpTo s target) s)

/-- `jal` (R223): the link is `pc + 4`. -/
def execJal (target : BitVec 26) (s : State) : Host.Outcome State Fault Refusal :=
  .next (retire (jumpTo s target) (writeReg 31 (seqPc s) s))

/-- `jr` (R224): the PC sequencer raises PC_ALIGN on a misaligned register and rounds it up. -/
def execJr (rs : RegName) (s : State) : Host.Outcome State Fault Refusal :=
  .next (retire (readReg s rs) s)

end Sys2Proof.Machine
end

