-- ==== Sys2Proof/Machine/LoadStore.lean ====
section
/-! DEFINITION. Loads and stores (spec/44_load_store.md R200 to R208). -/

namespace Sys2Proof.Machine

/-- A load of `width` bytes (R200): misaligned, it raises DATA_ALIGN and does nothing else; aligned, it allocates the
page it reads and writes `value` of the address to `rt`. -/
def load (width : Nat) (value : State → Word → Word) (rs rt : RegName) (imm : BitVec 16) (s : State) : State :=
  let ea := effectiveAddress s rs imm
  if alignedTo width ea then writeBack rt (value s ea) (touch ea width s) else raiseOnly .dataAlign s

/-- A store of `width` bytes (R200): misaligned, it raises DATA_ALIGN and does nothing else; aligned, it does `put` of the
address and the value of `rt`. -/
def store (width : Nat) (put : Word → Word → State → State) (rs rt : RegName) (imm : BitVec 16) (s : State) : State :=
  let ea := effectiveAddress s rs imm
  if alignedTo width ea then retire (seqPc s) (put ea (readReg s rt) s) else raiseOnly .dataAlign s

/-- `lb` (R201). -/
def execLb (rs rt : RegName) (imm : BitVec 16) (s : State) : Host.Outcome State Fault Refusal :=
  .next (load 1 (fun t a => signedByte (byteAt t a)) rs rt imm s)

/-- `lbu` (R202). -/
def execLbu (rs rt : RegName) (imm : BitVec 16) (s : State) : Host.Outcome State Fault Refusal :=
  .next (load 1 (fun t a => unsignedByte (byteAt t a)) rs rt imm s)

/-- `lh` (R203). -/
def execLh (rs rt : RegName) (imm : BitVec 16) (s : State) : Host.Outcome State Fault Refusal :=
  .next (load 2 (fun t a => signedHalf (halfAt t a)) rs rt imm s)

/-- `lhu` (R204). -/
def execLhu (rs rt : RegName) (imm : BitVec 16) (s : State) : Host.Outcome State Fault Refusal :=
  .next (load 2 (fun t a => unsignedHalf (halfAt t a)) rs rt imm s)

/-- `lw` (R205). -/
def execLw (rs rt : RegName) (imm : BitVec 16) (s : State) : Host.Outcome State Fault Refusal :=
  .next (load 4 wordAt rs rt imm s)

/-- `sb` (R206). -/
def execSb (rs rt : RegName) (imm : BitVec 16) (s : State) : Host.Outcome State Fault Refusal :=
  .next (store 1 setByte rs rt imm s)

/-- `sh` (R207). -/
def execSh (rs rt : RegName) (imm : BitVec 16) (s : State) : Host.Outcome State Fault Refusal :=
  .next (store 2 setHalf rs rt imm s)

/-- `sw` (R208). -/
def execSw (rs rt : RegName) (imm : BitVec 16) (s : State) : Host.Outcome State Fault Refusal :=
  .next (store 4 setWord rs rt imm s)

end Sys2Proof.Machine
end

