-- ==== Sys2Proof/Machine/Shifts.lean ====
section
/-! DEFINITION. Shifts (spec/42_shifts.md R170 to R175). The amount is 0 to 31 (spec/30_encoding.md R106). -/

namespace Sys2Proof.Machine

/-- `sll` (R170). -/
def execSll (rt rd : RegName) (shamt : BitVec 5) (s : State) : Host.Outcome State Fault Refusal :=
  .next (writeBack rd (readReg s rt <<< shamt) s)

/-- `srl` (R171). -/
def execSrl (rt rd : RegName) (shamt : BitVec 5) (s : State) : Host.Outcome State Fault Refusal :=
  .next (writeBack rd (readReg s rt >>> shamt) s)

/-- `sra` (R172). -/
def execSra (rt rd : RegName) (shamt : BitVec 5) (s : State) : Host.Outcome State Fault Refusal :=
  .next (writeBack rd ((readReg s rt).sshiftRight shamt.toNat) s)

/-- `sllv` (R173): the low 5 bits of `rs` are the amount. -/
def execSllv (rs rt rd : RegName) (s : State) : Host.Outcome State Fault Refusal :=
  .next (writeBack rd (readReg s rt <<< shiftAmount (readReg s rs)) s)

/-- `srlv` (R174): the low 5 bits of `rs` are the amount. -/
def execSrlv (rs rt rd : RegName) (s : State) : Host.Outcome State Fault Refusal :=
  .next (writeBack rd (readReg s rt >>> shiftAmount (readReg s rs)) s)

/-- `srav` (R175): the low 5 bits of `rs` are the amount. -/
def execSrav (rs rt rd : RegName) (s : State) : Host.Outcome State Fault Refusal :=
  .next (writeBack rd ((readReg s rt).sshiftRight (shiftAmount (readReg s rs)).toNat) s)

end Sys2Proof.Machine
end

