-- ==== Sys2Proof/Machine/System.lean ====
section
/-! DEFINITION. System instructions (spec/46_system.md R240 to R242). -/

namespace Sys2Proof.Machine

/-- `syscall` (R240, R241): sets `halted`, raises SYSCALL and returns at once. The PC sequencer does not run, so `pc`
stays; the exit clear and the cycle count still happen (spec/40_step.md R132, R138). -/
def execSyscall (s : State) : Host.Outcome State Fault Refusal :=
  .next (exitStep (raise .syscall { s with halted := true }))

/-- `break` (R242): raises BREAK and goes on with the next word. -/
def execBreakpoint (s : State) : Host.Outcome State Fault Refusal := .next (raiseOnly .breakpoint s)

end Sys2Proof.Machine
end

