-- ==== Sys2Proof/Machine/Step.lean ====
section
/-! DEFINITION. One step of the CPU (spec/40_step.md R142). -/

namespace Sys2Proof.Machine

/-- `step()` (R142): the entry, the fetch, the decode, then the instruction's own effect with the PC sequencer and the
exit, or that of an invalid word. `halted` is not read (R139). -/
def step (s : State) : Host.Outcome State Fault Refusal :=
  match decode (fetchWord (enterStep s)) with
  | .instr i => exec i (enterStep s)
  | .invalidOpcode _ => execInvalid (enterStep s)
  | .invalidFunct _ => execInvalid (enterStep s)

/-- `s` with the instruction whose bits are `w` (bits from `nbits` on 0) stored where `step` fetches next: `set_word` at
`pc` (spec/20_memory.md R69), as the host places an instruction. -/
def State.withFetchWord (s : State) (nbits w : Nat) : State :=
  setWord s.pc (BitVec.ofNat 32 (w % 2 ^ nbits)) s

end Sys2Proof.Machine
end

