-- ==== Sys2Proof/Machine/AsmTypes.lean ====
section
/-! DEFINITION. The assembler's data (spec/48_assembler.md R300 to R304, R310, R357, R360): configuration, tokens, parsed
lines, the image, errors and warnings. Text is a list of characters. -/

namespace Sys2Proof.Machine

/-- Source text. -/
abbrev Text := List Char

/-- `assemble`'s configuration (R302), with its defaults. -/
structure AsmConfig where
  textStart : Word := Config.textStart
  dataStart : Word := Config.dataStart
  deriving DecidableEq, Repr

/-- The kinds of assembly errors (R360). -/
inductive AsmErrorKind where
  | syntaxError
  | unknownInstruction
  | wrongOperands
  | badRegister
  | badInteger
  | unknownEscape
  | duplicateLabel
  | instructionOutsideText
  | outOfRange
  | branchRange
  | jumpMisaligned
  | undefinedSymbol
  | unsupportedPseudo
  | trailingTokens
  | unexpectedToken
  | dataOutsideData
  | segmentOverflow
  | badConfig
  | badCharacter
  deriving DecidableEq, Repr

/-- An assembly error: a line number and a kind (R304). -/
structure AsmError where
  line : Nat
  kind : AsmErrorKind
  deriving DecidableEq, Repr

/-- The kinds of warnings (R357). -/
inductive AsmWarningKind where
  | unknownDirective
  | jumpRegion
  deriving DecidableEq, Repr

/-- A warning: a line number and a kind (R357). -/
structure AsmWarning where
  line : Nat
  kind : AsmWarningKind
  deriving DecidableEq, Repr

/-- The token kinds (R310). A `str` holds its decoded characters; an `integer` its raw text (R318). -/
inductive Token where
  | special (name : Text)
  | label (name : Text)
  | str (chars : Text)
  | regOpr (name : Text)
  | comOpr (offset : Int) (reg : Text)
  | integer (raw : Text)
  | word (name : Text)
  deriving DecidableEq, Repr

/-- The directives the assembler knows (R328 to R336). -/
inductive Directive where
  | text
  | data
  | word
  | half
  | byte
  | ascii
  | asciiz
  | space
  | align
  deriving DecidableEq, Repr

/-- The mnemonics of the operand table (R340), and `li` and `la`, which are refused by a name of their own (R346). `break` is
not among them (R341). -/
inductive Mnemonic where
  | add | addu | sub | subu | and | or | xor | nor | slt | sltu
  | sll | srl | sra | sllv | srlv | srav
  | jr | syscall
  | addi | addiu | slti | sltiu | andi | ori | xori | lui
  | lb | lbu | lh | lhu | lw | sb | sh | sw
  | beq | bne | j | jal
  | nop | move
  | li | la
  deriving DecidableEq, Repr

/-- The two segments (R325). -/
inductive Segment where
  | text
  | data
  deriving DecidableEq, Repr

/-- A value of a data directive as pass 1 records it (R330). -/
inductive DataValue where
  | integer (raw : Text)
  | label (name : Text)
  deriving DecidableEq, Repr

/-- The kinds of relocation (R347). -/
inductive RelocKind where
  | jump
  | branch
  | luiLabel
  deriving DecidableEq, Repr

/-- An instruction that waits for its label (R303, R347). The label is lowercased. -/
structure Unresolved where
  kind : RelocKind
  opcode : BitVec 6
  rs : RegName
  rt : RegName
  label : Text
  addr : Nat
  deriving DecidableEq, Repr

/-- What a line produces (R303). -/
inductive Payload where
  | encoded (w : Word)
  | unresolved (u : Unresolved)
  | values (width : Nat) (vs : List DataValue)
  | bytes (bs : List Byte)
  | padding
  | nothing
  deriving DecidableEq, Repr

/-- A line after pass 1 (R303), with the warning pass 1 gave it. -/
structure ParsedLine where
  line : Nat
  segment : Segment
  addr : Nat
  size : Nat
  payload : Payload
  warning : Option AsmWarningKind
  deriving DecidableEq, Repr

/-- What an instruction line is after its operands are read: a word at once, or a relocation for pass 2 (R347). -/
inductive Assembled where
  | ready (i : Instr) (warning : Option AsmWarningKind)
  | waits (kind : RelocKind) (opcode : BitVec 6) (rs rt : RegName) (label : Text)
  deriving DecidableEq, Repr

/-- The result of `assemble` (R301). Symbols are in the order of their definition; the source map is in the order of
addresses, one entry for an address. -/
structure AssemblyImage where
  textStart : Word
  textSize : Nat
  textWords : List Word
  dataStart : Word
  dataSize : Nat
  dataBytes : List Byte
  symbols : List (Text × Nat)
  sourceMap : List (Nat × Nat)
  deriving DecidableEq, Repr

end Sys2Proof.Machine
end

