-- ==== Sys2Proof/Machine/Tokeniser.lean ====
section
/-! DEFINITION. The pre-pass and the tokeniser (spec/48_assembler.md R305 to R324). Each pattern is a function from the text
at the current position to the match and the text after it. -/

namespace Sys2Proof.Machine

/-! ### Characters -/

def isDigit (c : Char) : Bool := decide (48 ≤ c.toNat) && decide (c.toNat ≤ 57)
def isUpper (c : Char) : Bool := decide (65 ≤ c.toNat) && decide (c.toNat ≤ 90)
def isLower (c : Char) : Bool := decide (97 ≤ c.toNat) && decide (c.toNat ≤ 122)
def isAlnum (c : Char) : Bool := isDigit c || isUpper c || isLower c
/-- `[0-9A-Fa-f]` (R318). -/
def isHexDigit (c : Char) : Bool :=
  isDigit c || (decide (65 ≤ c.toNat) && decide (c.toNat ≤ 70)) || (decide (97 ≤ c.toNat) && decide (c.toNat ≤ 102))
/-- `[A-Za-z_]` (R313). -/
def isIdentStart (c : Char) : Bool := isUpper c || isLower c || c == '_'
/-- `[A-Za-z0-9_]` (R313). -/
def isIdentChar (c : Char) : Bool := isAlnum c || c == '_'
/-- Space, tab, vertical tab, form feed, CR (R307). -/
def isBlank (c : Char) : Bool :=
  c.toNat == 32 || c.toNat == 9 || c.toNat == 11 || c.toNat == 12 || c.toNat == 13

/-- ASCII lower case (R323). -/
def lowerChar (c : Char) : Char := if isUpper c then Char.ofNat (c.toNat + 32) else c
def lower (t : Text) : Text := t.map lowerChar

/-! ### Pre-pass -/

/-- Split at each line feed (R305). -/
def splitLines : Text → List Text
  | [] => [[]]
  | c :: rest =>
    if c.toNat = 10 then [] :: splitLines rest
    else match splitLines rest with
      | [] => [[c]]
      | l :: ls => (c :: l) :: ls

/-- Number the lines from `n` on (R305). -/
def numberLines (n : Nat) : List Text → List (Nat × Text)
  | [] => []
  | l :: ls => (n, l) :: numberLines (n + 1) ls

/-- Strip everything from `#` on (R306), purely textual. -/
def stripComment (t : Text) : Text := t.takeWhile (fun c => c != '#')

/-- Trim both ends (R307). -/
def trim (t : Text) : Text := ((t.dropWhile isBlank).reverse.dropWhile isBlank).reverse

/-- The pre-pass: numbered lines, comments stripped, trimmed, empty lines dropped (R305 to R307). -/
def prePass (source : Text) : List (Nat × Text) :=
  ((numberLines 1 (splitLines source)).map (fun l => (l.1, trim (stripComment l.2)))).filter (fun l => !l.2.isEmpty)

/-! ### Escapes and integers -/

/-- The code of the escape `\c` (R314). -/
def escapeCode (c : Char) : Except AsmErrorKind Char :=
  match c.toNat with
  | 110 => .ok (Char.ofNat 0x0A)
  | 116 => .ok (Char.ofNat 0x09)
  | 92 => .ok (Char.ofNat 0x5C)
  | 34 => .ok (Char.ofNat 0x22)
  | 48 => .ok (Char.ofNat 0x00)
  | 39 => .ok (Char.ofNat 0x27)
  | _ => .error .unknownEscape

/-- Replace the escapes of a literal's raw content (R314) and check that each character fits a byte (R324),
from left to right. DESIGN CHOICE, log entry 6: a backslash before a character above 255 is UnknownEscape and not BadCharacter. -/
def unescape : Text → Except AsmErrorKind Text
  | [] => .ok []
  | '\\' :: [] => .error .unknownEscape
  | '\\' :: c :: rest => do
    let v ← escapeCode c
    let vs ← unescape rest
    return v :: vs
  | c :: rest => do
    if 255 < c.toNat then throw .badCharacter
    let vs ← unescape rest
    return c :: vs

/-- The value of a hexadecimal digit. -/
def digitValue (c : Char) : Nat :=
  if isDigit c then c.toNat - 48 else if isUpper c then c.toNat - 55 else c.toNat - 87

/-- The value of a digit string in a base, continued from `acc`. -/
def digitsValue (base : Nat) : Nat → Text → Nat
  | acc, [] => acc
  | acc, c :: rest => digitsValue base (acc * base + digitValue c) rest

/-- The value of an Integer token's raw text (R321). -/
def integerValue : Text → Except AsmErrorKind Int
  | '0' :: 'x' :: ds => .ok (digitsValue 16 0 ds)
  | '0' :: 'X' :: ds => .ok (digitsValue 16 0 ds)
  | '-' :: ds => .ok (-(digitsValue 10 0 ds : Int))
  | '\'' :: rest => do
    match ← unescape rest.dropLast with
    | c :: _ => return (c.toNat : Int)
    | [] => throw .badInteger
  | ds => .ok (digitsValue 10 0 ds)

/-! ### Patterns (R312 to R319), in their order -/

/-- Pattern 1: `\.[A-Za-z_][A-Za-z0-9_]*` (R312). -/
def matchSpecial : Text → Option (Text × Text)
  | '.' :: c :: rest =>
    if isIdentStart c then some ('.' :: c :: rest.takeWhile isIdentChar, rest.dropWhile isIdentChar) else none
  | _ => none

/-- `[A-Za-z_][A-Za-z0-9_]*`. -/
def matchIdent : Text → Option (Text × Text)
  | c :: rest => if isIdentStart c then some (c :: rest.takeWhile isIdentChar, rest.dropWhile isIdentChar) else none
  | [] => none

/-- Pattern 2: an identifier and a colon (R313). -/
def matchLabel (t : Text) : Option (Text × Text) :=
  match matchIdent t with
  | some (name, ':' :: rest) => some (name, rest)
  | _ => none

/-- The raw content up to the closing double quote, and the text after it (R314). -/
def scanString : Text → Option (Text × Text)
  | [] => none
  | '"' :: rest => some ([], rest)
  | '\\' :: [] => none
  | '\\' :: c :: rest => (scanString rest).map (fun p => ('\\' :: c :: p.1, p.2))
  | c :: rest => (scanString rest).map (fun p => (c :: p.1, p.2))

/-- Pattern 3: a string (R314), its content still raw. -/
def matchString : Text → Option (Text × Text)
  | '"' :: rest => scanString rest
  | _ => none

/-- Pattern 5: `\$[A-Za-z0-9]+`, or `zero` in any case with no identifier character after it (R316). -/
def matchRegister : Text → Option (Text × Text)
  | '$' :: rest =>
    if (rest.takeWhile isAlnum).isEmpty then none
    else some ('$' :: rest.takeWhile isAlnum, rest.dropWhile isAlnum)
  | t =>
    match matchIdent t with
    | some (name, rest) => if lower name = ['z', 'e', 'r', 'o'] then some (name, rest) else none
    | none => none

/-- The `($reg)` of a base plus offset: the register with its dollar, and the text after the parenthesis. -/
def matchBase : Text → Option (Text × Text)
  | '(' :: '$' :: rest =>
    if (rest.takeWhile isAlnum).isEmpty then none
    else match rest.dropWhile isAlnum with
      | ')' :: rest' => some ('$' :: rest.takeWhile isAlnum, rest')
      | _ => none
  | _ => none

/-- Pattern 6: `-?[0-9]*\(\$[A-Za-z0-9]+\)` (R317): the raw offset, the register and the text after it. -/
def matchBaseOffset : Text → Option (Text × Text × Text)
  | '-' :: rest => (matchBase (rest.dropWhile isDigit)).map (fun p => ('-' :: rest.takeWhile isDigit, p.1, p.2))
  | rest => (matchBase (rest.dropWhile isDigit)).map (fun p => (rest.takeWhile isDigit, p.1, p.2))

/-- The offset of a base plus offset (R317): an empty one is 0, a lone `-` is an error. -/
def offsetValue : Text → Except AsmErrorKind Int
  | '-' :: [] => .error .badInteger
  | '-' :: ds => .ok (-(digitsValue 10 0 ds : Int))
  | ds => .ok (digitsValue 10 0 ds)

/-- `0[xX][0-9A-Fa-f]+` (R318). -/
def matchHex : Text → Option (Text × Text)
  | '0' :: x :: rest =>
    if (x == 'x' || x == 'X') && !(rest.takeWhile isHexDigit).isEmpty then
      some ('0' :: x :: rest.takeWhile isHexDigit, rest.dropWhile isHexDigit)
    else none
  | _ => none

/-- `-?[0-9]+` (R318). -/
def matchDecimal : Text → Option (Text × Text)
  | '-' :: rest =>
    if (rest.takeWhile isDigit).isEmpty then none
    else some ('-' :: rest.takeWhile isDigit, rest.dropWhile isDigit)
  | rest =>
    if (rest.takeWhile isDigit).isEmpty then none
    else some (rest.takeWhile isDigit, rest.dropWhile isDigit)

/-- `'([^'\\]|\\.)'` (R318), quotes included in the raw text. -/
def matchCharacter : Text → Option (Text × Text)
  | '\'' :: '\\' :: c :: '\'' :: rest => some (['\'', '\\', c, '\''], rest)
  | '\'' :: c :: '\'' :: rest => if c == '\'' || c == '\\' then none else some (['\'', c, '\''], rest)
  | _ => none

/-- Pattern 7: an integer, its three forms in their order (R318). -/
def matchInteger (t : Text) : Option (Text × Text) :=
  (matchHex t).or ((matchDecimal t).or (matchCharacter t))

/-- One match at the current position (R311): the token, none for a separator, and the text after it. What no pattern
matches is a syntax error (R320). -/
def nextToken (t : Text) : Except AsmErrorKind (Option Token × Text) :=
  match matchSpecial t with
  | some (name, rest) => .ok (some (.special (lower name)), rest)
  | none =>
  match matchLabel t with
  | some (name, rest) => .ok (some (.label name), rest)
  | none =>
  match matchString t with
  | some (raw, rest) => (unescape raw).map (fun chars => (some (.str chars), rest))
  | none =>
  match t with
  | [] => .error .syntaxError
  | c :: rest0 =>
  if c == ',' || isBlank c then .ok (none, rest0) else
  match matchRegister t with
  | some (name, rest) => .ok (some (.regOpr (lower name)), rest)
  | none =>
  match matchBaseOffset t with
  | some (offset, reg, rest) => (offsetValue offset).map (fun v => (some (.comOpr v (lower reg)), rest))
  | none =>
  match matchInteger t with
  | some (raw, rest) => .ok (some (.integer raw), rest)
  | none =>
  match matchIdent t with
  | some (name, rest) => .ok (some (.word name), rest)
  | none => .error .syntaxError

/-- The known directives by name (R328 to R336). -/
def directiveTable : List (String × Directive) :=
  [(".text", .text), (".data", .data), (".word", .word), (".half", .half), (".byte", .byte), (".ascii", .ascii),
   (".asciiz", .asciiz), (".space", .space), (".align", .align)]

/-- Look a name up in a table of names. -/
def lookupName {α : Type} (name : Text) : List (String × α) → Option α
  | [] => none
  | (n, v) :: rest => if n.toList = name then some v else lookupName name rest

def directiveOf (name : Text) : Option Directive := lookupName name directiveTable

/-- The tokens so far (latest first) end in an unknown directive at the head of the line: the rest of the line is then
skipped without checking (R337). -/
def skipsRest : List Token → Bool
  | [.special name] => (directiveOf name).isNone
  | [.special name, .label _] => (directiveOf name).isNone
  | _ => false

/-- The tokens of a line (R311), collected latest first in `acc`. Each match consumes a character, so the length of the
line is fuel enough. -/
def tokeniseFrom : Nat → List Token → Text → Except AsmErrorKind (List Token)
  | _, acc, [] => .ok acc.reverse
  | 0, _, _ :: _ => .error .syntaxError
  | fuel + 1, acc, t =>
    match nextToken t with
    | .error e => .error e
    | .ok (none, rest) => tokeniseFrom fuel acc rest
    | .ok (some token, rest) =>
      if skipsRest (token :: acc) then .ok (token :: acc).reverse
      else tokeniseFrom fuel (token :: acc) rest

/-- The tokens of a line (R310, R311). -/
def tokenise (line : Text) : Except AsmErrorKind (List Token) := tokeniseFrom line.length [] line

end Sys2Proof.Machine
end

