-- ==== Sys2Proof/Machine/AsmOperands.lean ====
section
/-! DEFINITION. Operands of assembly instructions (spec/48_assembler.md R322, R340 to R348) and the three relocations
(R350 to R352). -/

namespace Sys2Proof.Machine

/-! ### Registers -/

/-- The symbolic register names, register k at place k (spec/10_state.md R32). -/
def registerNames : List String :=
  ["$zero", "$at", "$v0", "$v1", "$a0", "$a1", "$a2", "$a3",
   "$t0", "$t1", "$t2", "$t3", "$t4", "$t5", "$t6", "$t7",
   "$s0", "$s1", "$s2", "$s3", "$s4", "$s5", "$s6", "$s7",
   "$t8", "$t9", "$k0", "$k1", "$gp", "$sp", "$fp", "$ra"]

/-- The place of a name in a list of names, counted from `k`. -/
def placeOf (name : Text) (k : Nat) : List String → Option Nat
  | [] => none
  | n :: rest => if n.toList = name then some k else placeOf name (k + 1) rest

/-- A register's number from its lowercased name (R322): bare `zero`, `$` and decimal digits of value 0 to 31, or a symbolic
name. -/
def registerNumber (name : Text) : Except AsmErrorKind RegName :=
  match name with
  | '$' :: ds =>
    if !ds.isEmpty && ds.all isDigit then
      if digitsValue 10 0 ds < 32 then .ok (BitVec.ofNat 5 (digitsValue 10 0 ds)) else .error .badRegister
    else match placeOf name 0 registerNames with
      | some k => .ok (BitVec.ofNat 5 k)
      | none => .error .badRegister
  | _ => if name = ['z', 'e', 'r', 'o'] then .ok 0 else .error .badRegister

/-! ### Readers of one operand: its value and the tokens after it (R342) -/

def takeReg : List Token → Except AsmErrorKind (RegName × List Token)
  | .regOpr name :: rest => (registerNumber name).map (fun r => (r, rest))
  | _ => .error .wrongOperands

/-- The value lies in `[lo, hi]` (R343). -/
def checkRange (lo hi v : Int) : Except AsmErrorKind Int :=
  if lo ≤ v ∧ v ≤ hi then .ok v else .error .outOfRange

def takeInt (lo hi : Int) : List Token → Except AsmErrorKind (Int × List Token)
  | .integer raw :: rest => do
    let v ← integerValue raw
    let v ← checkRange lo hi v
    return (v, rest)
  | _ => .error .wrongOperands

/-- Base plus offset: the register, the 16-bit offset and the tokens after them (R340, R343). DESIGN CHOICE, log entry 6: the
register's name is checked before the offset's range, so `99999($foo)` is BadRegister and not OutOfRange. -/
def takeMem : List Token → Except AsmErrorKind ((RegName × BitVec 16) × List Token)
  | .comOpr offset reg :: rest => do
    let r ← registerNumber reg
    let v ← checkRange (-32768) 32767 offset
    return ((r, BitVec.ofInt 16 v), rest)
  | _ => .error .wrongOperands

/-- A label, lowercased for the lookup (R323). -/
def takeLabel : List Token → Except AsmErrorKind (Text × List Token)
  | .word name :: rest => .ok (lower name, rest)
  | _ => .error .wrongOperands

/-- Nothing may be left after the last operand (R326). -/
def noMore : List Token → Except AsmErrorKind Unit
  | [] => .ok ()
  | _ :: _ => .error .trailingTokens

/-! ### Relocations -/

/-- The address `target` lies in another 256 MiB region than `pc` (R350). -/
def crossesRegion (pc target : Nat) : Bool :=
  (BitVec.ofNat 32 target ^^^ BitVec.ofNat 32 pc) &&& 0xF0000000 != 0

/-- The 26-bit jump field and the warning for an absolute byte address (R350, R348). -/
def relocJump (pc target : Nat) : Except AsmErrorKind (BitVec 26 × Option AsmWarningKind) :=
  if target % 4 = 0 then
    .ok (BitVec.ofNat 26 (target / 4), if crossesRegion pc target then some .jumpRegion else none)
  else .error .jumpMisaligned

/-- The 16-bit branch field: exact signed arithmetic, `>> 2` rounding down (R351). -/
def relocBranch (pc target : Nat) : Except AsmErrorKind (BitVec 16) :=
  let offset : Int := ((target : Int) - ((pc : Int) + 4)) / 4
  if -32768 ≤ offset ∧ offset ≤ 32767 then .ok (BitVec.ofInt 16 offset) else .error .branchRange

/-- The upper half of an address, plus the carry when its bit 15 is set (R352). -/
def relocLui (target : Nat) : BitVec 16 :=
  BitVec.ofNat 16 (target / 65536 + (if 32768 ≤ target % 65536 then 1 else 0))

/-! ### The operand table (R340) -/

/-- `Reg, Reg, Reg`. -/
def threeRegs (ts : List Token) (build : RegName → RegName → RegName → Instr) : Except AsmErrorKind Assembled := do
  let (a, ts) ← takeReg ts
  let (b, ts) ← takeReg ts
  let (c, ts) ← takeReg ts
  noMore ts
  return .ready (build a b c) none

/-- `Reg, Reg, Int[0,31]`. -/
def regsShamt (ts : List Token) (build : RegName → RegName → BitVec 5 → Instr) : Except AsmErrorKind Assembled := do
  let (a, ts) ← takeReg ts
  let (b, ts) ← takeReg ts
  let (v, ts) ← takeInt 0 31 ts
  noMore ts
  return .ready (build a b (BitVec.ofInt 5 v)) none

/-- `Reg, Reg, Int[lo,hi]`: first register to `rt`, second to `rs`. -/
def regsImm (lo hi : Int) (ts : List Token) (build : RegName → RegName → BitVec 16 → Instr) :
    Except AsmErrorKind Assembled := do
  let (rt, ts) ← takeReg ts
  let (rs, ts) ← takeReg ts
  let (v, ts) ← takeInt lo hi ts
  noMore ts
  return .ready (build rs rt (BitVec.ofInt 16 v)) none

/-- `Reg, Mem`. -/
def regMem (ts : List Token) (build : RegName → RegName → BitVec 16 → Instr) : Except AsmErrorKind Assembled := do
  let (rt, ts) ← takeReg ts
  let ((rs, imm), ts) ← takeMem ts
  noMore ts
  return .ready (build rs rt imm) none

/-- `Reg, Reg, Label` of a branch: first register to `rt`, second to `rs`. -/
def regsLabel (opcode : BitVec 6) (ts : List Token) : Except AsmErrorKind Assembled := do
  let (rt, ts) ← takeReg ts
  let (rs, ts) ← takeReg ts
  let (l, ts) ← takeLabel ts
  noMore ts
  return .waits .branch opcode rs rt l

/-- `Label` or `Int[0, 0xFFFFFFFF]` of a jump at address `pc` (R348, R350). The kind of the operand picks the row (R342).
DESIGN CHOICE, log entry 6: an Integer's alignment is checked after what is left over, its range before. -/
def jumpOperand (opcode : BitVec 6) (pc : Nat) (ts : List Token) (build : BitVec 26 → Instr) :
    Except AsmErrorKind Assembled := do
  match ts with
  | .integer _ :: _ =>
    let (v, ts) ← takeInt 0 0xFFFFFFFF ts
    noMore ts
    let (target, warning) ← relocJump pc v.toNat
    return .ready (build target) warning
  | _ =>
    let (l, ts) ← takeLabel ts
    noMore ts
    return .waits .jump opcode 0 0 l

/-- `Reg, Int[0,65535]` or `Reg, Label` of `lui`. -/
def luiOperands (ts : List Token) : Except AsmErrorKind Assembled := do
  let (rt, ts) ← takeReg ts
  match ts with
  | .word _ :: _ =>
    let (l, ts) ← takeLabel ts
    noMore ts
    return .waits .luiLabel 0x0F 0 rt l
  | _ =>
    let (v, ts) ← takeInt 0 65535 ts
    noMore ts
    return .ready (.lui 0 rt (BitVec.ofInt 16 v)) none

/-- Read the operands of a mnemonic at address `pc` (R340, R342). Every field not listed there is 0. -/
def assembleInstr (m : Mnemonic) (pc : Nat) (ts : List Token) : Except AsmErrorKind Assembled :=
  match m with
  | .add => threeRegs ts (fun rd rs rt => .add rs rt rd 0)
  | .addu => threeRegs ts (fun rd rs rt => .addu rs rt rd 0)
  | .sub => threeRegs ts (fun rd rs rt => .sub rs rt rd 0)
  | .subu => threeRegs ts (fun rd rs rt => .subu rs rt rd 0)
  | .and => threeRegs ts (fun rd rs rt => .and rs rt rd 0)
  | .or => threeRegs ts (fun rd rs rt => .or rs rt rd 0)
  | .xor => threeRegs ts (fun rd rs rt => .xor rs rt rd 0)
  | .nor => threeRegs ts (fun rd rs rt => .nor rs rt rd 0)
  | .slt => threeRegs ts (fun rd rs rt => .slt rs rt rd 0)
  | .sltu => threeRegs ts (fun rd rs rt => .sltu rs rt rd 0)
  | .sll => regsShamt ts (fun rd rt sa => .sll 0 rt rd sa)
  | .srl => regsShamt ts (fun rd rt sa => .srl 0 rt rd sa)
  | .sra => regsShamt ts (fun rd rt sa => .sra 0 rt rd sa)
  | .sllv => threeRegs ts (fun rd rt rs => .sllv rs rt rd 0)
  | .srlv => threeRegs ts (fun rd rt rs => .srlv rs rt rd 0)
  | .srav => threeRegs ts (fun rd rt rs => .srav rs rt rd 0)
  | .jr => do
    let (rs, ts) ← takeReg ts
    noMore ts
    return .ready (.jr rs 0 0 0) none
  | .syscall => do
    noMore ts
    return .ready (.syscall 0) none
  | .addi => regsImm (-32768) 32767 ts .addi
  | .addiu => regsImm (-32768) 32767 ts .addiu
  | .slti => regsImm (-32768) 32767 ts .slti
  | .sltiu => regsImm (-32768) 32767 ts .sltiu
  | .andi => regsImm 0 65535 ts .andi
  | .ori => regsImm 0 65535 ts .ori
  | .xori => regsImm 0 65535 ts .xori
  | .lui => luiOperands ts
  | .lb => regMem ts .lb
  | .lbu => regMem ts .lbu
  | .lh => regMem ts .lh
  | .lhu => regMem ts .lhu
  | .lw => regMem ts .lw
  | .sb => regMem ts .sb
  | .sh => regMem ts .sh
  | .sw => regMem ts .sw
  | .beq => regsLabel 0x04 ts
  | .bne => regsLabel 0x05 ts
  | .j => jumpOperand 0x02 pc ts .j
  | .jal => jumpOperand 0x03 pc ts .jal
  | .nop => do
    noMore ts
    return .ready (.sll 0 0 0 0) none
  | .move => do
    let (d, ts) ← takeReg ts
    let (s, ts) ← takeReg ts
    noMore ts
    return .ready (.addu s 0 d 0) none
  | .li => .error .unsupportedPseudo
  | .la => .error .unsupportedPseudo

/-! The mnemonics by name (R340, R346). -/

/-- The names of the register-register instructions. -/
def aluNames : List (String × Mnemonic) :=
  [("add", Mnemonic.add), ("addu", Mnemonic.addu), ("sub", Mnemonic.sub), ("subu", Mnemonic.subu), ("and",
   Mnemonic.and), ("or", Mnemonic.or), ("xor", Mnemonic.xor), ("nor", Mnemonic.nor), ("slt", Mnemonic.slt),
   ("sltu", Mnemonic.sltu)]

/-- The names of the shifts, `jr` and `syscall`. -/
def shiftNames : List (String × Mnemonic) :=
  [("sll", Mnemonic.sll), ("srl", Mnemonic.srl), ("sra", Mnemonic.sra), ("sllv", Mnemonic.sllv), ("srlv",
   Mnemonic.srlv), ("srav", Mnemonic.srav), ("jr", Mnemonic.jr), ("syscall", Mnemonic.syscall)]

/-- The names of the immediate instructions. -/
def immNames : List (String × Mnemonic) :=
  [("addi", Mnemonic.addi), ("addiu", Mnemonic.addiu), ("slti", Mnemonic.slti), ("sltiu", Mnemonic.sltiu),
   ("andi", Mnemonic.andi), ("ori", Mnemonic.ori), ("xori", Mnemonic.xori), ("lui", Mnemonic.lui)]

/-- The names of the loads and stores. -/
def memNames : List (String × Mnemonic) :=
  [("lb", Mnemonic.lb), ("lbu", Mnemonic.lbu), ("lh", Mnemonic.lh), ("lhu", Mnemonic.lhu), ("lw",
   Mnemonic.lw), ("sb", Mnemonic.sb), ("sh", Mnemonic.sh), ("sw", Mnemonic.sw)]

/-- The names of the branches, jumps, pseudo-instructions, and the two refused ones. -/
def otherNames : List (String × Mnemonic) :=
  [("beq", Mnemonic.beq), ("bne", Mnemonic.bne), ("j", Mnemonic.j), ("jal", Mnemonic.jal), ("nop",
   Mnemonic.nop), ("move", Mnemonic.move), ("li", Mnemonic.li), ("la", Mnemonic.la)]

/-- All the names the assembler looks up. -/
def mnemonicTable : List (String × Mnemonic) := aluNames ++ shiftNames ++ immNames ++ memNames ++ otherNames

/-- A mnemonic from its text, in any case (R341). -/
def mnemonicOf (name : Text) : Except AsmErrorKind Mnemonic :=
  match lookupName (lower name) mnemonicTable with
  | some m => .ok m
  | none => .error .unknownInstruction

end Sys2Proof.Machine
end

