-- ==== Sys2Proof/Machine/AsmPass1.lean ====
section
/-! DEFINITION. Pass 1 (spec/48_assembler.md R325 to R339): addresses and the symbol table. -/

namespace Sys2Proof.Machine

/-- The state of pass 1 (R325), with the symbol table (R327). -/
structure Pass1 where
  segment : Segment
  textAddr : Nat
  dataAddr : Nat
  symbols : List (Text × Nat)
  deriving DecidableEq, Repr

/-- The active segment's address (R325). -/
def activeAddr (p : Pass1) : Nat :=
  match p.segment with
  | .text => p.textAddr
  | .data => p.dataAddr

/-- Set the active segment's address; past `0xFFFFFFFF` is an error (R338). -/
def advanceTo (addr : Nat) (p : Pass1) : Except AsmErrorKind Pass1 :=
  if addr < 2 ^ 32 then
    match p.segment with
    | .text => .ok { p with textAddr := addr }
    | .data => .ok { p with dataAddr := addr }
  else .error .segmentOverflow

/-- The next multiple of `n` from `addr` on. -/
def alignNat (n addr : Nat) : Nat := (addr + n - 1) / n * n

/-- The address of a symbol, by its lowercased name. -/
def symbolAddr (name : Text) : List (Text × Nat) → Option Nat
  | [] => none
  | (n, a) :: rest => if n = name then some a else symbolAddr name rest

/-- Bind a label, lowercased, to the active segment's address (R327). -/
def bindLabel (name : Text) (p : Pass1) : Except AsmErrorKind Pass1 :=
  match symbolAddr (lower name) p.symbols with
  | some _ => .error .duplicateLabel
  | none => .ok { p with symbols := p.symbols ++ [(lower name, activeAddr p)] }

/-- A line that produces nothing. -/
def emptyLine (n : Nat) (p : Pass1) (warning : Option AsmWarningKind) : ParsedLine :=
  { line := n, segment := p.segment, addr := activeAddr p, size := 0, payload := .nothing, warning := warning }

/-- Align the active address to `align`, reserve `size` bytes there and record the line (R330 to R336). -/
def reserve (n align size : Nat) (payload : Payload) (p : Pass1) : Except AsmErrorKind (Pass1 × ParsedLine) := do
  let addr := alignNat align (activeAddr p)
  let p' ← advanceTo (addr + size) p
  return (p', { line := n, segment := p.segment, addr := addr, size := size, payload := payload, warning := none })

/-- The values of a data directive (R330): Integers and labels, nothing else. A token of another kind after at least one
value (a register, a ComOpr, a String) is WrongOperands here: DESIGN CHOICE, log entry 17, since R326's left-over tokens
and R342's wrong kind both fit it. -/
def dataValues : List Token → Except AsmErrorKind (List DataValue)
  | [] => .ok []
  | .integer raw :: rest => (dataValues rest).map (fun vs => .integer raw :: vs)
  | .word name :: rest => (dataValues rest).map (fun vs => .label (lower name) :: vs)
  | _ :: _ => .error .wrongOperands

/-- `.word`, `.half` and `.byte`: at least one value, `width` bytes each, aligned to `width` (R330 to R332). -/
def valueDirective (n width : Nat) (ts : List Token) (p : Pass1) : Except AsmErrorKind (Pass1 × ParsedLine) := do
  let vs ← dataValues ts
  if vs.isEmpty then throw .wrongOperands
  reserve n width (width * vs.length) (.values width vs) p

/-- `.ascii` and `.asciiz`: exactly one String (R333, R334); more than one operand is log entry 7. -/
def stringDirective (n : Nat) (terminator : List Byte) (ts : List Token) (p : Pass1) :
    Except AsmErrorKind (Pass1 × ParsedLine) :=
  match ts with
  | [.str chars] =>
    let bs := chars.map (fun c => BitVec.ofNat 8 c.toNat) ++ terminator
    reserve n 1 bs.length (.bytes bs) p
  | _ => .error .wrongOperands

/-- A data directive stands in the data segment only (R329). -/
def inData (p : Pass1) (r : Except AsmErrorKind (Pass1 × ParsedLine)) : Except AsmErrorKind (Pass1 × ParsedLine) :=
  if p.segment = .data then r else .error .dataOutsideData

/-- The size of `.space`: an Integer of at least 0 (R335). -/
def takeSize : List Token → Except AsmErrorKind (Nat × List Token)
  | .integer raw :: rest => do
    let k ← integerValue raw
    if k < 0 then throw .outOfRange
    return (k.toNat, rest)
  | _ => .error .wrongOperands

/-- A directive line (R328 to R336). DEDUCED, log entry 18: R336's 'otherwise OutOfRange' speaks of the value of `.align`'s
Integer, so an operand of another kind or none is WrongOperands and a token after the Integer is TrailingTokens. -/
def directiveLine (n : Nat) (d : Directive) (ts : List Token) (p : Pass1) :
    Except AsmErrorKind (Pass1 × ParsedLine) :=
  match d with
  | .text => do
    noMore ts
    return ({ p with segment := .text }, emptyLine n p none)
  | .data => do
    noMore ts
    return ({ p with segment := .data }, emptyLine n p none)
  | .word => inData p (valueDirective n 4 ts p)
  | .half => inData p (valueDirective n 2 ts p)
  | .byte => inData p (valueDirective n 1 ts p)
  | .ascii => inData p (stringDirective n [] ts p)
  | .asciiz => inData p (stringDirective n [0] ts p)
  | .space => inData p (do
    let (k, ts) ← takeSize ts
    noMore ts
    reserve n 1 k .padding p)
  | .align => do
    let (k, ts) ← takeInt 0 31 ts
    noMore ts
    reserve n 1 (alignNat (2 ^ k.toNat) (activeAddr p) - activeAddr p) .padding p

/-- An instruction line (R339): align to 4, reserve 4 bytes, then encode or record the relocation (R347). -/
def instructionLine (n : Nat) (name : Text) (ts : List Token) (p : Pass1) :
    Except AsmErrorKind (Pass1 × ParsedLine) := do
  if p.segment = .data then throw .instructionOutsideText
  let (p', l) ← reserve n 4 4 .nothing p
  let m ← mnemonicOf name
  match ← assembleInstr m l.addr ts with
  | .ready i warning => return (p', { l with payload := .encoded (encode i), warning := warning })
  | .waits kind opcode rs rt label =>
    let u : Unresolved := { kind := kind, opcode := opcode, rs := rs, rt := rt, label := label, addr := l.addr }
    return (p', { l with payload := .unresolved u })

/-- A line without its label (R326). -/
def bodyLine (n : Nat) (ts : List Token) (p : Pass1) : Except AsmErrorKind (Pass1 × ParsedLine) :=
  match ts with
  | [] => .ok (p, emptyLine n p none)
  | .special name :: rest =>
    match directiveOf name with
    | some d => directiveLine n d rest p
    | none => .ok (p, emptyLine n p (some .unknownDirective))
  | .word name :: rest => instructionLine n name rest p
  | _ :: _ => .error .unexpectedToken

/-- One line of pass 1 (R326, R327): an optional label, then the rest. -/
def pass1Line (n : Nat) (line : Text) (p : Pass1) : Except AsmErrorKind (Pass1 × ParsedLine) := do
  match ← tokenise line with
  | .label name :: rest =>
    let p ← bindLabel name p
    bodyLine n rest p
  | ts => bodyLine n ts p

/-- Name the line of an error (R304). -/
def atLine {α : Type} (n : Nat) : Except AsmErrorKind α → Except AsmError α
  | .ok v => .ok v
  | .error k => .error { line := n, kind := k }

/-- Pass 1 over the lines, in source order, to the first error (R304). -/
def pass1 : List (Nat × Text) → Pass1 → Except AsmError (Pass1 × List ParsedLine)
  | [], p => .ok (p, [])
  | (n, line) :: rest, p => do
    let (p, l) ← atLine n (pass1Line n line p)
    let (p, ls) ← pass1 rest p
    return (p, l :: ls)

end Sys2Proof.Machine
end

