-- ==== Sys2Proof/Machine/Assembler.lean ====
section
/-! DEFINITION. Pass 2 and `assemble` (spec/48_assembler.md R300, R302, R304, R349 to R357). -/

namespace Sys2Proof.Machine

/-- What pass 2 builds. -/
structure Build where
  textWords : List Word
  dataBytes : List Byte
  sourceMap : List (Nat × Nat)
  warnings : List AsmWarning
  deriving DecidableEq, Repr

/-- Lengthen a list to `n` entries. -/
def padTo {α : Type} (n : Nat) (fill : α) (l : List α) : List α := l ++ List.replicate (n - l.length) fill

/-- Emit words at the place `at` of the text image (R349); what lies before and is not emitted is 0 (R354). -/
def emitWords (place : Nat) (ws : List Word) (b : Build) : Build :=
  { b with textWords := padTo place 0 b.textWords ++ ws }

/-- Emit bytes at the place `at` of the data image (R349); what lies before and is not emitted is 0 (R354). -/
def emitBytes (place : Nat) (bs : List Byte) (b : Build) : Build :=
  { b with dataBytes := padTo place 0 b.dataBytes ++ bs }

/-- Record a line of an address (R355): the later line wins. -/
def mapLine (addr line : Nat) : List (Nat × Nat) → List (Nat × Nat)
  | [] => [(addr, line)]
  | (a, l) :: rest =>
    if addr < a then (addr, line) :: (a, l) :: rest
    else if addr = a then (addr, line) :: rest
    else (a, l) :: mapLine addr line rest

/-- The address of a symbol, or the error (R350 to R353). -/
def resolve (symbols : List (Text × Nat)) (name : Text) : Except AsmErrorKind Nat :=
  match symbolAddr name symbols with
  | some a => .ok a
  | none => .error .undefinedSymbol

/-- Finish a relocation (R350 to R352): its word, and its warning. -/
def relocate (symbols : List (Text × Nat)) (u : Unresolved) : Except AsmErrorKind (Word × Option AsmWarningKind) := do
  let target ← resolve symbols u.label
  match u.kind with
  | .jump =>
    let (index, warning) ← relocJump u.addr target
    return (packJ u.opcode index, warning)
  | .branch =>
    let offset ← relocBranch u.addr target
    return (packI u.opcode u.rs u.rt offset, none)
  | .luiLabel => return (packI u.opcode u.rs u.rt (relocLui target), none)

/-- The bytes of an integer in `width` bytes, big-endian, modulo `2^(8 width)` (R353). -/
def packValue : Nat → Int → List Byte
  | 0, _ => []
  | w + 1, v => BitVec.ofInt 8 (v / 2 ^ (8 * w)) :: packValue w v

/-- The integer a data value stands for: its own, or its symbol's address (R353). -/
def valueOf (symbols : List (Text × Nat)) : DataValue → Except AsmErrorKind Int
  | .integer raw => integerValue raw
  | .label name => (resolve symbols name).map (fun a => (a : Int))

/-- One value of a data directive: resolved, checked against its width, packed (R353). -/
def emitValue (symbols : List (Text × Nat)) (width : Nat) (v : DataValue) : Except AsmErrorKind (List Byte) := do
  let n ← valueOf symbols v
  let n ← checkRange (-(2 ^ (8 * width - 1))) (2 ^ (8 * width) - 1) n
  return packValue width n

/-- The values of a data directive, in order (R353). -/
def emitValues (symbols : List (Text × Nat)) (width : Nat) : List DataValue → Except AsmErrorKind (List Byte)
  | [] => .ok []
  | v :: rest => do
    let bs ← emitValue symbols width v
    let more ← emitValues symbols width rest
    return bs ++ more

/-- What a line emits (R349), and the warning pass 2 gives it. -/
def emitLine (cfg : AsmConfig) (symbols : List (Text × Nat)) (l : ParsedLine) (b : Build) :
    Except AsmErrorKind (Build × Option AsmWarningKind) := do
  let wordPlace := (l.addr - cfg.textStart.toNat) / 4
  let bytePlace := l.addr - cfg.dataStart.toNat
  match l.payload with
  | .encoded w => return (emitWords wordPlace [w] b, none)
  | .unresolved u =>
    let (w, warning) ← relocate symbols u
    return (emitWords wordPlace [w] b, warning)
  | .values width vs =>
    let bs ← emitValues symbols width vs
    return (emitBytes bytePlace bs b, none)
  | .bytes bs => return (emitBytes bytePlace bs b, none)
  | .padding =>
    match l.segment with
    | .text => return (emitWords wordPlace (List.replicate (l.size / 4) 0) b, none)
    | .data => return (emitBytes bytePlace (List.replicate l.size 0) b, none)
  | .nothing => return (b, none)

/-- The warnings of a line, the one of pass 1 first (R357). -/
def warningsOf (n : Nat) (w1 w2 : Option AsmWarningKind) : List AsmWarning :=
  (w1.toList ++ w2.toList).map (fun k => { line := n, kind := k })

/-- One line of pass 2: its bytes or word, its source-map entry if it has a size (R355), its warnings (R357). -/
def pass2Line (cfg : AsmConfig) (symbols : List (Text × Nat)) (l : ParsedLine) (b : Build) :
    Except AsmErrorKind Build := do
  let (b, warning) ← emitLine cfg symbols l b
  return { b with
    sourceMap := if l.size = 0 then b.sourceMap else mapLine l.addr l.line b.sourceMap
    warnings := b.warnings ++ warningsOf l.line l.warning warning }

/-- Pass 2 over the parsed lines, in source order, to the first error (R304, R349). -/
def pass2 (cfg : AsmConfig) (symbols : List (Text × Nat)) : List ParsedLine → Build → Except AsmError Build
  | [], b => .ok b
  | l :: rest, b => do
    let b ← atLine l.line (pass2Line cfg symbols l b)
    pass2 cfg symbols rest b

/-- The image (R354) of a finished pass 1 and pass 2. -/
def imageOf (cfg : AsmConfig) (p : Pass1) (b : Build) : AssemblyImage :=
  let textSize := p.textAddr - cfg.textStart.toNat
  let dataSize := p.dataAddr - cfg.dataStart.toNat
  { textStart := cfg.textStart
    textSize := textSize
    textWords := padTo (textSize / 4) 0 b.textWords
    dataStart := cfg.dataStart
    dataSize := dataSize
    dataBytes := padTo dataSize 0 b.dataBytes
    symbols := p.symbols
    sourceMap := b.sourceMap }

/-- Pass 1's start (R325). -/
def pass1Start (cfg : AsmConfig) : Pass1 :=
  { segment := .text, textAddr := cfg.textStart.toNat, dataAddr := cfg.dataStart.toNat, symbols := [] }

/-- The configuration is one the assembler accepts: `text_start_addr` is a multiple of 4 (R302). -/
def AsmConfig.valid (cfg : AsmConfig) : Bool := cfg.textStart.toNat % 4 == 0

/-- `assemble` on text (R300): an image with its warnings, or the first error (R304). A pure function. -/
def assembleText (cfg : AsmConfig) (source : Text) : Except AsmError (AssemblyImage × List AsmWarning) := do
  if !cfg.valid then throw { line := 0, kind := .badConfig }
  let (p, ls) ← pass1 (prePass source) (pass1Start cfg)
  let b ← pass2 cfg p.symbols ls { textWords := [], dataBytes := [], sourceMap := [], warnings := [] }
  return (imageOf cfg p b, b.warnings)

/-- `assemble(source, config)` (R300). -/
def assemble (source : String) (cfg : AsmConfig := {}) : Except AsmError (AssemblyImage × List AsmWarning) :=
  assembleText cfg source.toList

end Sys2Proof.Machine
end

