-- ==== Sys2Proof/Machine/Driver.lean ====
section
/-! DEFINITION. The host (spec/60_exceptions.md R420 to R426, spec/70_reset_and_hazards.md R450 to R455, spec/20_memory.md R73):
the event hook on `step`, its operations between steps, the driver, and the boot sequence. -/

namespace Sys2Proof.Machine

/-! ### Reset and construction -/

/-- `reset()` (spec/70_reset_and_hazards.md R450, R451): the CPU's state becomes that after construction; memory and pages
stay. The host's stop request is not the CPU's and stays; the mask is NONE, since no step has run since. -/
def resetCpu (s : State) : State :=
  { s with
    regs := resetRegs
    pc := Config.resetPc
    cycle := 0
    halted := false
    branchTarget := none
    mask := 0 }

/-- `new(memory)` (R452): a CPU in the reset state bound to a memory. -/
def newCpu (mem : List Host.Cell) (pages : List PageIndex) : State :=
  { State.reset with mem := mem, pages := pages }

/-- Raise or clear the external stop request (spec/60_exceptions.md R421): it changes no CPU or memory state. -/
def setStop (on : Bool) (s : State) : State := { s with stopRequest := on }

/-! ### Loading -/

/-- `load_image(image)` (spec/20_memory.md R73): data bytes first, then text words; nothing is cleared, the CPU is not
touched. -/
def loadImage (image : AssemblyImage) (s : State) : State :=
  putWords image.textStart image.textWords (putBytes image.dataStart image.dataBytes s)

/-! ### Views -/

/-- The read-only views (spec/10_state.md R49). -/
structure View where
  pc : Word
  cycle : Nat
  registers : List Word
  halted : Bool
  deriving DecidableEq, Repr

def viewOf (s : State) : View :=
  { pc := s.pc, cycle := s.cycle, registers := s.regs.toList, halted := s.halted }

/-! ### One step, and the hook on it -/

/-- One `step()` as the host calls it: the state after it. A step always answers a next state
(spec/40_step.md R142), so the other two arms are never taken. -/
def hostStep (s : State) : State :=
  match step s with
  | .next t => t
  | .fault _ => s
  | .refused _ => s

/-- One call of the event hook (spec/60_exceptions.md R423): the mask and a view, the step's effects complete. -/
structure HookCall where
  mask : BitVec 8
  view : View
  deriving DecidableEq, Repr

/-- The hook is called after a step whose mask is not NONE or after which `halted` is true (R423). -/
def hookDue (s : State) : Bool := s.mask != 0 || s.halted

/-- The calls that the step which led to `t` makes: one if a hook is installed and due, else none (R423). Every step the
host takes goes through here, whoever issued it: the driver, or the host by itself. -/
def hookCalls (hooked : Bool) (t : State) : List HookCall :=
  if hooked && hookDue t then [{ mask := t.mask, view := viewOf t }] else []

/-! ### Host operations (spec/60_exceptions.md R425) -/

inductive HostOp where
  /-- `assemble(source, config)`: pure. -/
  | assemble (source : String) (cfg : AsmConfig)
  /-- Memory construction and `new(memory)` on it. -/
  | newSession
  /-- `new(memory)` on the session's memory. -/
  | newCpu
  | loadImage (image : AssemblyImage)
  | getByte (a : Word)
  | getHalf (a : Word)
  | getWord (a : Word)
  | dump (start : Word) (len : Nat)
  | setByte (a v : Word)
  | setHalf (a v : Word)
  | setWord (a v : Word)
  | reset
  | step
  | view
  /-- Raise or clear the external stop request (R421). -/
  | stopRequest (on : Bool)
  deriving DecidableEq, Repr

/-- What the host gets back. -/
inductive HostReply where
  | nothing
  | assembled (r : Except AsmError (AssemblyImage × List AsmWarning))
  | byte (v : Byte)
  | half (v : Half)
  | word (v : Word)
  | bytes (vs : List Byte)
  | mask (m : BitVec 8)
  | view (v : View)
  deriving Repr

/-- What a host operation comes to: its reply, the state after it, and the calls of the hook during it. -/
structure HostResult where
  reply : HostReply
  state : State
  hooks : List HookCall := []
  deriving Repr

/-- A host operation. `hooked` says whether a hook is installed; of these operations only `step` calls it (R423). -/
def applyHostOp (hooked : Bool) (op : HostOp) (s : State) : HostResult :=
  match op with
  | .assemble source cfg => { reply := .assembled (assemble source cfg), state := s }
  | .newSession => { reply := .nothing, state := setStop s.stopRequest State.reset }
  | .newCpu => { reply := .nothing, state := setStop s.stopRequest (newCpu s.mem s.pages) }
  | .loadImage image => { reply := .nothing, state := loadImage image s }
  | .getByte a => { reply := .byte (getByte a s).1, state := (getByte a s).2 }
  | .getHalf a => { reply := .half (getHalf a s).1, state := (getHalf a s).2 }
  | .getWord a => { reply := .word (getWord a s).1, state := (getWord a s).2 }
  | .dump start len => { reply := .bytes (dump start len s).1, state := (dump start len s).2 }
  | .setByte a v => { reply := .nothing, state := setByte a v s }
  | .setHalf a v => { reply := .nothing, state := setHalf a v s }
  | .setWord a v => { reply := .nothing, state := setWord a v s }
  | .reset => { reply := .nothing, state := resetCpu s }
  | .step => { reply := .mask (hostStep s).mask, state := hostStep s, hooks := hookCalls hooked (hostStep s) }
  | .view => { reply := .view (viewOf s), state := s }
  | .stopRequest on => { reply := .nothing, state := setStop on s }

/-- What a sequence of host operations comes to: the state, and the hook's calls in order. -/
structure HostRun where
  state : State
  hooks : List HookCall
  deriving DecidableEq, Repr

/-- Host operations one after another: the host acts only between whole steps (spec/60_exceptions.md R422). -/
def runHost (hooked : Bool) : List HostOp → State → HostRun
  | [], s => { state := s, hooks := [] }
  | op :: ops, s =>
    let r := applyHostOp hooked op s
    let more := runHost hooked ops r.state
    { more with hooks := r.hooks ++ more.hooks }

/-! ### The driver -/

/-- The driver stops after a step with a nonzero mask, or halted, or with the stop request set (R420). -/
def driverStops (s : State) : Bool := s.mask != 0 || s.halted || s.stopRequest

/-- What a driver's run has come to: it stopped (its last mask is the state's), or it goes on after the steps it was
given. -/
inductive RunEnd where
  | stopped
  | running
  deriving DecidableEq, Repr

/-- A run so far: how it stands, the state, and the hook's calls in order. -/
structure DriverRun where
  status : RunEnd
  state : State
  hooks : List HookCall
  deriving DecidableEq, Repr

/-- The loop of R420. `stops` holds, for each step the run may take, whether the host has raised its stop request by
the end of that step (R421: a request once set stays set). `hooked` says whether a hook is installed (R423). -/
def driverLoop (hooked : Bool) : List Bool → State → DriverRun
  | [], s => { status := .running, state := s, hooks := [] }
  | stop :: stops, s =>
    let t := hostStep s
    let calls := hookCalls hooked t
    let u := setStop (t.stopRequest || stop) t
    if driverStops u then { status := .stopped, state := u, hooks := calls }
    else
      let more := driverLoop hooked stops u
      { more with hooks := calls ++ more.hooks }

/-- A driver's run (R420, R426): the stop request is false when it starts (spec/70_reset_and_hazards.md R454). -/
def drive (hooked : Bool) (stops : List Bool) (s : State) : DriverRun :=
  driverLoop hooked stops (setStop false s)

/-! ### Boot -/

/-- The boot sequence up to the driver (spec/70_reset_and_hazards.md R455): load the image into the session's memory, then
reset. -/
def boot (image : AssemblyImage) (s : State) : State := resetCpu (loadImage image s)

end Sys2Proof.Machine
end

