-- ==== Sys2Proof/Safety.lean ====
section
/-! DEFINITION. The terms claims are stated in: what a state keeps at all times, what an instruction leaves
alone, what a step reports, and how a run ends. -/

namespace Sys2Proof

open Sys2Proof.Machine

/-! ### Invariants of a state -/

/-- Register 0 holds 0 (spec/10_state.md R31). -/
def ZeroHolds (s : State) : Prop := s.regs[0] = 0

/-- `pc` is a multiple of 4 (spec/10_state.md R37). -/
def PcAligned (s : State) : Prop := s.pc.toNat % 4 = 0

/-- The memory and the page set are in their canonical form, and a byte that is not 0 lies in an allocated page
(spec/20_memory.md R62, R63). -/
def StoreOk (s : State) : Prop :=
  Memory.wf s.mem = true ∧ Pages.wf s.pages = true ∧ ∀ a : Word, byteAt s a ≠ 0 → pageOf a ∈ s.pages

/-- The mask of a step: at most one bit, and never one of the two that nothing raises
(spec/40_step.md R144, spec/60_exceptions.md R401). -/
def MaskLegal (m : BitVec 8) : Prop := m ∈ [0, 1, 2, 4, 8, 32, 128]

/-- What holds of a state between steps: register 0, `pc`, the memory, the inert scratch (spec/10_state.md R41), the mask, and
that a SYSCALL in the mask means halted (spec/46_system.md R241). -/
structure Inv (s : State) : Prop where
  zero : ZeroHolds s
  aligned : PcAligned s
  store : StoreOk s
  scratch : s.branchTarget = none
  mask : MaskLegal s.mask
  halts : s.mask = 128 → s.halted = true

/-! ### Frames -/

/-- Every register keeps the value it reads as. -/
def RegsKept (s t : State) : Prop := ∀ r : RegName, readReg t r = readReg s r

/-- Register `d` becomes `v`, or stays 0 where `d` is register 0; every other register keeps its value. -/
def RegWritten (s t : State) (d : RegName) (v : Word) : Prop :=
  ∀ r : RegName, readReg t r = if r = d then (if d = 0 then 0 else v) else readReg s r

/-- Every byte of memory keeps its value. -/
def BytesKept (s t : State) : Prop := ∀ a : Word, byteAt t a = byteAt s a

/-- Every byte outside the `n` bytes from `ea` on keeps its value. -/
def BytesKeptOutside (s t : State) (ea : Word) (n : Nat) : Prop :=
  ∀ a : Word, n ≤ (a - ea).toNat → byteAt t a = byteAt s a

/-- The page set keeps its members. -/
def PagesKept (s t : State) : Prop := ∀ p : PageIndex, p ∈ t.pages ↔ p ∈ s.pages

/-- The page set gains the pages of the `n` bytes from `ea` on, and nothing else. -/
def PagesGain (s t : State) (ea : Word) (n : Nat) : Prop :=
  ∀ p : PageIndex, p ∈ t.pages ↔ (∃ k : Nat, k < n ∧ p = pageOf (ea + BitVec.ofNat 32 k)) ∨ p ∈ s.pages

/-- What no instruction but `syscall` changes, and the count every instruction makes: `halted`, the scratch and the stop
request stay, `cycle` counts one. -/
def CountsOne (s t : State) : Prop :=
  t.cycle = s.cycle + 1 ∧ t.halted = s.halted ∧ t.branchTarget = s.branchTarget ∧ t.stopRequest = s.stopRequest

/-- `t` is `s` after an instruction that touches no memory and goes on with the next word, `raised` raised. -/
def GoesOn (s t : State) (raised : BitVec 8) : Prop :=
  BytesKept s t ∧ PagesKept s t ∧ CountsOne s t ∧ t.pc = s.pc + 4 ∧ t.mask = s.mask ||| raised

/-- `t` is `s` after an access to the `n` bytes from `ea` on and nothing raised, going on with the next word. What the
access does to registers and bytes is said beside it. -/
def Accessed (s t : State) (ea : Word) (n : Nat) : Prop :=
  PagesGain s t ea n ∧ CountsOne s t ∧ t.pc = s.pc + 4 ∧ t.mask = s.mask

/-- `t` is `s` after a transfer of control to `target`, `raised` raised. Registers are said beside it. -/
def Transferred (s t : State) (target : Word) (raised : BitVec 8) : Prop :=
  BytesKept s t ∧ PagesKept s t ∧ CountsOne s t ∧ t.pc = target ∧ t.mask = s.mask ||| raised

/-- An exact integer is no signed 32-bit value. -/
def LeavesSigned (x : Int) : Prop := x < -2 ^ 31 ∨ 2 ^ 31 ≤ x

/-! ### Encodings -/

/-- The instruction's word is SPECIAL with this funct (spec/30_encoding.md R111). -/
def IsSpecial (i : Instr) (funct : BitVec 6) : Prop := opcodeOf (encode i) = 0 ∧ functOf (encode i) = funct

/-- The instruction's word has this opcode (spec/30_encoding.md R111). -/
def HasOpcode (i : Instr) (opcode : BitVec 6) : Prop := opcodeOf (encode i) = opcode

/-! ### Runs -/

/-- The state after `n` steps, whatever they raise (spec/60_exceptions.md R420's loop without its stop). -/
def hostSteps : Nat → State → State
  | 0, s => s
  | n + 1, s => hostSteps n (hostStep s)

/-- After `n` steps from `s` the driver has to stop (spec/60_exceptions.md R420, R421): the mask is not NONE, or `halted` is
true, or the host has requested the stop by the end of one of these steps. -/
def StopDue (stops : List Bool) (s : State) (n : Nat) : Prop :=
  (hostSteps n s).mask ≠ 0 ∨ (hostSteps n s).halted = true ∨ true ∈ stops.take n

/-- No exception was reported by the step that led here (spec/93_implementation_defined.md part 1: "a claim about a clean run
takes no bit in any mask as a premise"). -/
def CleanStep (s : State) : Prop := s.mask = 0

/-- A run ended by completing its program (spec/60_exceptions.md R426): its last step is a `syscall`. -/
def Completed (r : DriverRun) : Prop := r.status = .stopped ∧ r.state.mask = 128 ∧ r.state.halted = true

end Sys2Proof
end

