-- ==== Sys2Proof/Certificates/Slice0/Obligations.lean ====
section
/-! DEFINITION. The statements for the provers, taken from the spec's numbered rules. The frames, the ends of an
instruction and the invariant are named in Safety.lean. -/

section

open Sys2Proof Sys2Proof.Machine

/-- The bits an instruction uses: those its don't-care fields leave (spec/30_encoding.md R112). -/
def Sys2Proof.usedBits : Instr → Word
  | .sll _ _ _ _ => 0xFC1FFFFF
  | .srl _ _ _ _ => 0xFC1FFFFF
  | .sra _ _ _ _ => 0xFC1FFFFF
  | .sllv _ _ _ _ => 0xFFFFF83F
  | .srlv _ _ _ _ => 0xFFFFF83F
  | .srav _ _ _ _ => 0xFFFFF83F
  | .jr _ _ _ _ => 0xFFE0003F
  | .syscall _ => 0xFC00003F
  | .breakpoint _ => 0xFC00003F
  | .add _ _ _ _ => 0xFFFFF83F
  | .addu _ _ _ _ => 0xFFFFF83F
  | .sub _ _ _ _ => 0xFFFFF83F
  | .subu _ _ _ _ => 0xFFFFF83F
  | .and _ _ _ _ => 0xFFFFF83F
  | .or _ _ _ _ => 0xFFFFF83F
  | .xor _ _ _ _ => 0xFFFFF83F
  | .nor _ _ _ _ => 0xFFFFF83F
  | .slt _ _ _ _ => 0xFFFFF83F
  | .sltu _ _ _ _ => 0xFFFFF83F
  | .j _ => 0xFFFFFFFF
  | .jal _ => 0xFFFFFFFF
  | .beq _ _ _ => 0xFFFFFFFF
  | .bne _ _ _ => 0xFFFFFFFF
  | .addi _ _ _ => 0xFFFFFFFF
  | .addiu _ _ _ => 0xFFFFFFFF
  | .slti _ _ _ => 0xFFFFFFFF
  | .sltiu _ _ _ => 0xFFFFFFFF
  | .andi _ _ _ => 0xFFFFFFFF
  | .ori _ _ _ => 0xFFFFFFFF
  | .xori _ _ _ => 0xFFFFFFFF
  | .lui _ _ _ => 0xFC1FFFFF
  | .lb _ _ _ => 0xFFFFFFFF
  | .lh _ _ _ => 0xFFFFFFFF
  | .lw _ _ _ => 0xFFFFFFFF
  | .lbu _ _ _ => 0xFFFFFFFF
  | .lhu _ _ _ => 0xFFFFFFFF
  | .sb _ _ _ => 0xFFFFFFFF
  | .sh _ _ _ => 0xFFFFFFFF
  | .sw _ _ _ => 0xFFFFFFFF

/-- The register an instruction writes (spec/10_state.md R35). -/
def Sys2Proof.destOf : Instr → Option RegName
  | .sll _ _ rd _ => some rd
  | .srl _ _ rd _ => some rd
  | .sra _ _ rd _ => some rd
  | .sllv _ _ rd _ => some rd
  | .srlv _ _ rd _ => some rd
  | .srav _ _ rd _ => some rd
  | .jr _ _ _ _ => none
  | .syscall _ => none
  | .breakpoint _ => none
  | .add _ _ rd _ => some rd
  | .addu _ _ rd _ => some rd
  | .sub _ _ rd _ => some rd
  | .subu _ _ rd _ => some rd
  | .and _ _ rd _ => some rd
  | .or _ _ rd _ => some rd
  | .xor _ _ rd _ => some rd
  | .nor _ _ rd _ => some rd
  | .slt _ _ rd _ => some rd
  | .sltu _ _ rd _ => some rd
  | .j _ => none
  | .jal _ => some 31
  | .beq _ _ _ => none
  | .bne _ _ _ => none
  | .addi _ rt _ => some rt
  | .addiu _ rt _ => some rt
  | .slti _ rt _ => some rt
  | .sltiu _ rt _ => some rt
  | .andi _ rt _ => some rt
  | .ori _ rt _ => some rt
  | .xori _ rt _ => some rt
  | .lui _ rt _ => some rt
  | .lb _ rt _ => some rt
  | .lh _ rt _ => some rt
  | .lw _ rt _ => some rt
  | .lbu _ rt _ => some rt
  | .lhu _ rt _ => some rt
  | .sb _ _ _ => none
  | .sh _ _ _ => none
  | .sw _ _ _ => none

/-- Where an instruction stores: the base register, the displacement and the number of bytes (spec/20_memory.md R76). -/
def Sys2Proof.storeOf : Instr → Option (RegName × BitVec 16 × Nat)
  | .sll _ _ _ _ => none
  | .srl _ _ _ _ => none
  | .sra _ _ _ _ => none
  | .sllv _ _ _ _ => none
  | .srlv _ _ _ _ => none
  | .srav _ _ _ _ => none
  | .jr _ _ _ _ => none
  | .syscall _ => none
  | .breakpoint _ => none
  | .add _ _ _ _ => none
  | .addu _ _ _ _ => none
  | .sub _ _ _ _ => none
  | .subu _ _ _ _ => none
  | .and _ _ _ _ => none
  | .or _ _ _ _ => none
  | .xor _ _ _ _ => none
  | .nor _ _ _ _ => none
  | .slt _ _ _ _ => none
  | .sltu _ _ _ _ => none
  | .j _ => none
  | .jal _ => none
  | .beq _ _ _ => none
  | .bne _ _ _ => none
  | .addi _ _ _ => none
  | .addiu _ _ _ => none
  | .slti _ _ _ => none
  | .sltiu _ _ _ => none
  | .andi _ _ _ => none
  | .ori _ _ _ => none
  | .xori _ _ _ => none
  | .lui _ _ _ => none
  | .lb _ _ _ => none
  | .lh _ _ _ => none
  | .lw _ _ _ => none
  | .lbu _ _ _ => none
  | .lhu _ _ _ => none
  | .sb rs _ imm => some (rs, imm, 1)
  | .sh rs _ imm => some (rs, imm, 2)
  | .sw rs _ imm => some (rs, imm, 4)

/-- The mask bit an instruction can raise, 0 for none (spec/40_step.md R144). -/
def Sys2Proof.kindOf : Instr → BitVec 8
  | .sll _ _ _ _ => 0
  | .srl _ _ _ _ => 0
  | .sra _ _ _ _ => 0
  | .sllv _ _ _ _ => 0
  | .srlv _ _ _ _ => 0
  | .srav _ _ _ _ => 0
  | .jr _ _ _ _ => 4
  | .syscall _ => 128
  | .breakpoint _ => 32
  | .add _ _ _ _ => 2
  | .addu _ _ _ _ => 0
  | .sub _ _ _ _ => 2
  | .subu _ _ _ _ => 0
  | .and _ _ _ _ => 0
  | .or _ _ _ _ => 0
  | .xor _ _ _ _ => 0
  | .nor _ _ _ _ => 0
  | .slt _ _ _ _ => 0
  | .sltu _ _ _ _ => 0
  | .j _ => 0
  | .jal _ => 0
  | .beq _ _ _ => 0
  | .bne _ _ _ => 0
  | .addi _ _ _ => 2
  | .addiu _ _ _ => 0
  | .slti _ _ _ => 0
  | .sltiu _ _ _ => 0
  | .andi _ _ _ => 0
  | .ori _ _ _ => 0
  | .xori _ _ _ => 0
  | .lui _ _ _ => 0
  | .lb _ _ _ => 0
  | .lh _ _ _ => 8
  | .lw _ _ _ => 8
  | .lbu _ _ _ => 0
  | .lhu _ _ _ => 8
  | .sb _ _ _ => 0
  | .sh _ _ _ => 8
  | .sw _ _ _ => 8

/-- For every instruction, all 39 constructors with every operand and every unused field at every value, decoding
its encoded word answers exactly that instruction. That unused fields are part of an instruction is the model's
choice (log entry 12). (spec/30_encoding.md R101, R111, R112, spec/48_assembler.md R361) -/
def Obligations.DecodeOfEncodeIsTheInstruction : Prop :=
  ∀ i : Instr, decode (encode i) = .instr i

/-- Whenever a word decodes to an instruction, encoding that instruction is the word itself. That the word's
don't-care bits come back too is the model's choice (log entry 12, DESIGN CHOICE: an instruction carries the
fields it does not use); the spec asks only for the bits of the fields it lists, and its assembler writes 0 in
the others. (spec/30_encoding.md R101 to R104, R111) -/
def Obligations.EncodeOfDecodeIsTheWord : Prop :=
  ∀ (w : Word) (i : Instr), decode w = .instr i → encode i = w

/-- A word decodes to some instruction if and only if its opcode is one of the listed nonzero opcodes, or its opcode
is 0 and its funct is one of the listed functs; every other word is invalid. (R113) -/
def Obligations.ExactlyTheListedOpcodesAndFunctsDecode : Prop :=
  ∀ w : Word, (∃ i : Instr, decode w = .instr i) ↔
    opcodeOf w ∈ [0x02, 0x03, 0x04, 0x05, 0x08, 0x09, 0x0A, 0x0B, 0x0C, 0x0D, 0x0E, 0x0F,
        0x20, 0x21, 0x23, 0x24, 0x25, 0x28, 0x29, 0x2B] ∨
      (opcodeOf w = 0x00 ∧
        functOf w ∈ [0x00, 0x02, 0x03, 0x04, 0x06, 0x07, 0x08, 0x0C, 0x0D,
          0x20, 0x21, 0x22, 0x23, 0x24, 0x25, 0x26, 0x27, 0x2A, 0x2B])

/-- If a word decodes to an instruction and another word agrees with it on every bit that instruction uses, the
other word decodes too, and its instruction executes exactly like the first in every state. The spec marks R112
as its own inference ("derived"). (spec/30_encoding.md R112, spec/93_implementation_defined.md part 1) -/
def Obligations.UnusedBitsChangeNothing : Prop :=
  ∀ (w w' : Word) (i : Instr), decode w = .instr i →
    (w ^^^ w') &&& usedBits i = 0 →
    ∃ i' : Instr, decode w' = .instr i' ∧ ∀ s : State, exec i' s = exec i s

/-- Ten words taken from the spec's worked encodings and vectors, one or more of each family, decode to the
instruction and operands the spec gives them. The don't-care fields the decoded instructions carry (shamt 3 of
row RR26, the code bits of row SY2) are the model's form of an instruction (log entry 12).
(spec/95_test_vectors.md 1.3, 1.5, 1.7, 1.8, 2.1 to 2.6, spec/30_encoding.md R116) -/
def Obligations.SampleWordsDecodeAsTheSpecSays : Prop :=
  decode 0x01095020 = .instr (.add 8 9 10 0) ∧
    decode 0x010950E0 = .instr (.add 8 9 10 3) ∧
    decode 0x000957C3 = .instr (.sra 0 9 10 31) ∧
    decode 0x2109FFFD = .instr (.addi 8 9 0xFFFD) ∧
    decode 0x3C081000 = .instr (.lui 0 8 0x1000) ∧
    decode 0x8D09FFFC = .instr (.lw 8 9 0xFFFC) ∧
    decode 0xA5090002 = .instr (.sh 8 9 2) ∧
    decode 0x1549FFFD = .instr (.bne 10 9 0xFFFD) ∧
    decode 0x08010002 = .instr (.j 0x0010002) ∧
    decode 0x03FFFFCC = .instr (.syscall 0xFFFFF)

/-- When the word at pc decodes to an instruction, step is exec of it at the entered state; the entered state has
the mask NONE, register 0 cleared, the page of the fetched word allocated, and everything else as before.
(spec/40_step.md R142, R130, R131, R133) -/
def Obligations.StepRunsTheDecodedInstruction : Prop :=
  ∀ (s : State) (i : Instr), decode (wordAt s s.pc) = .instr i →
    step s = exec i (enterStep s) ∧
    (enterStep s).mask = 0 ∧ ZeroHolds (enterStep s) ∧ RegsKept s (enterStep s) ∧
    PagesGain s (enterStep s) s.pc 4 ∧ (enterStep s).mem = s.mem ∧ (enterStep s).pc = s.pc ∧
    (enterStep s).cycle = s.cycle ∧ (enterStep s).halted = s.halted ∧
    (enterStep s).branchTarget = s.branchTarget ∧ (enterStep s).stopRequest = s.stopRequest

/-- When the word at an aligned pc decodes to no instruction, step answers a next state: mask INVALID_INST (1), pc
the next word, cycle one more, no register, byte or halted changed, and no page but the fetched word's
allocated. (R245) -/
def Obligations.InvalidWordOnlyRaises : Prop :=
  ∀ s : State, PcAligned s → (∀ i : Instr, decode (wordAt s s.pc) ≠ .instr i) →
    ∃ t : State, step s = .next t ∧ RegsKept s t ∧ BytesKept s t ∧ PagesGain s t s.pc 4 ∧ CountsOne s t ∧
      t.pc = s.pc + 4 ∧ t.mask = 1

/-- For all operands add completes: rd receives the sum modulo 2^32 (register 0 stays 0), the mask gains
INT_OVERFLOW (2) exactly when the exact signed sum leaves the signed range, which is the sign-bit rule the spec
gives, and nothing else changes but pc and cycle. (R150) -/
def Obligations.AddWritesTheWrappedSumAndFlagsOverflow : Prop :=
  ∀ (s : State) (rs rt rd : RegName) (sa : BitVec 5), PcAligned s →
    IsSpecial (.add rs rt rd sa) 0x20 ∧
    (∃ t : State, exec (.add rs rt rd sa) s = .next t ∧ RegWritten s t rd (readReg s rs + readReg s rt) ∧
      (LeavesSigned ((readReg s rs).toInt + (readReg s rt).toInt) → GoesOn s t 2) ∧
      (¬ LeavesSigned ((readReg s rs).toInt + (readReg s rt).toInt) → GoesOn s t 0)) ∧
    (LeavesSigned ((readReg s rs).toInt + (readReg s rt).toInt) ↔
      (readReg s rs).msb = (readReg s rt).msb ∧
        (readReg s rs + readReg s rt).msb ≠ (readReg s rs).msb)

/-- For all operands sub completes: rd receives the difference modulo 2^32 (register 0 stays 0), the mask gains
INT_OVERFLOW (2) exactly when the exact signed difference leaves the signed range, which is the sign-bit rule
the spec gives, and nothing else changes but pc and cycle. (R152) -/
def Obligations.SubWritesTheWrappedDifferenceAndFlagsOverflow : Prop :=
  ∀ (s : State) (rs rt rd : RegName) (sa : BitVec 5), PcAligned s →
    IsSpecial (.sub rs rt rd sa) 0x22 ∧
    (∃ t : State, exec (.sub rs rt rd sa) s = .next t ∧ RegWritten s t rd (readReg s rs - readReg s rt) ∧
      (LeavesSigned ((readReg s rs).toInt - (readReg s rt).toInt) → GoesOn s t 2) ∧
      (¬ LeavesSigned ((readReg s rs).toInt - (readReg s rt).toInt) → GoesOn s t 0)) ∧
    (LeavesSigned ((readReg s rs).toInt - (readReg s rt).toInt) ↔
      (readReg s rs).msb ≠ (readReg s rt).msb ∧
        (readReg s rs - readReg s rt).msb ≠ (readReg s rs).msb)

/-- For all operands addu and subu complete: rd receives the sum or difference modulo 2^32 (register 0 stays 0),
nothing is raised, and nothing else changes but pc and cycle. (R151, R153) -/
def Obligations.AdduAndSubuWrapWithoutFlagging : Prop :=
  ∀ (s : State) (rs rt rd : RegName) (sa : BitVec 5), PcAligned s →
    (IsSpecial (.addu rs rt rd sa) 0x21 ∧
    ∃ t : State, exec (.addu rs rt rd sa) s = .next t ∧ RegWritten s t rd (BitVec.ofNat 32 ((readReg s rs).toNat + (readReg s rt).toNat)) ∧ GoesOn s t 0) ∧
    (IsSpecial (.subu rs rt rd sa) 0x23 ∧
    ∃ t : State, exec (.subu rs rt rd sa) s = .next t ∧ RegWritten s t rd (BitVec.ofInt 32 ((readReg s rs).toNat - (readReg s rt).toNat)) ∧ GoesOn s t 0)

/-- For all operands and, or, xor and nor complete: each bit of the value written to rd is the and, or, exclusive
or, or not-or of the sources' bits, register 0 stays 0, nothing is raised, and nothing else changes but pc and
cycle. (R154, R155, R156, R157) -/
def Obligations.LogicalRegisterInstructionsAreBitwise : Prop :=
  ∀ (s : State) (rs rt rd : RegName) (sa : BitVec 5), PcAligned s →
    (IsSpecial (.and rs rt rd sa) 0x24 ∧
    ∃ (t : State) (v : Word), exec (.and rs rt rd sa) s = .next t ∧ RegWritten s t rd v ∧ GoesOn s t 0 ∧
      ∀ k : Nat, k < 32 → v.getLsbD k = ((readReg s rs).getLsbD k && (readReg s rt).getLsbD k)) ∧
    (IsSpecial (.or rs rt rd sa) 0x25 ∧
    ∃ (t : State) (v : Word), exec (.or rs rt rd sa) s = .next t ∧ RegWritten s t rd v ∧ GoesOn s t 0 ∧
      ∀ k : Nat, k < 32 → v.getLsbD k = ((readReg s rs).getLsbD k || (readReg s rt).getLsbD k)) ∧
    (IsSpecial (.xor rs rt rd sa) 0x26 ∧
    ∃ (t : State) (v : Word), exec (.xor rs rt rd sa) s = .next t ∧ RegWritten s t rd v ∧ GoesOn s t 0 ∧
      ∀ k : Nat, k < 32 → v.getLsbD k = ((readReg s rs).getLsbD k ^^ (readReg s rt).getLsbD k)) ∧
    (IsSpecial (.nor rs rt rd sa) 0x27 ∧
    ∃ (t : State) (v : Word), exec (.nor rs rt rd sa) s = .next t ∧ RegWritten s t rd v ∧ GoesOn s t 0 ∧
      ∀ k : Nat, k < 32 → v.getLsbD k = !((readReg s rs).getLsbD k || (readReg s rt).getLsbD k))

/-- For all operands slt and sltu complete: rd receives 1 where the first source is less than the second (signed for
slt, unsigned for sltu) and 0 otherwise, register 0 stays 0, nothing is raised, and nothing else changes but pc
and cycle. (R158, R159) -/
def Obligations.SetOnLessThanComparesSignedAndUnsigned : Prop :=
  ∀ (s : State) (rs rt rd : RegName) (sa : BitVec 5), PcAligned s →
    (IsSpecial (.slt rs rt rd sa) 0x2A ∧
    ∃ t : State, exec (.slt rs rt rd sa) s = .next t ∧ RegWritten s t rd (if (readReg s rs).toInt < (readReg s rt).toInt then 1 else 0) ∧ GoesOn s t 0) ∧
    (IsSpecial (.sltu rs rt rd sa) 0x2B ∧
    ∃ t : State, exec (.sltu rs rt rd sa) s = .next t ∧ RegWritten s t rd (if (readReg s rs).toNat < (readReg s rt).toNat then 1 else 0) ∧ GoesOn s t 0)

/-- For all operands sll, srl and sra complete: bit k of the value written to rd is the bit of rt shamt places below
(sll) or above (srl, sra); vacated bits are 0, or bit 31 of rt for sra; nothing is raised, and nothing else
changes but pc and cycle. (R170, R171, R172) -/
def Obligations.ConstantShiftsMoveBits : Prop :=
  ∀ (s : State) (rs rt rd : RegName) (sa : BitVec 5), PcAligned s →
    (IsSpecial (.sll rs rt rd sa) 0x00 ∧
    ∃ (t : State) (v : Word), exec (.sll rs rt rd sa) s = .next t ∧ RegWritten s t rd v ∧ GoesOn s t 0 ∧
      ∀ k : Nat, k < 32 → v.getLsbD k = (!decide (k < sa.toNat) && (readReg s rt).getLsbD (k - sa.toNat))) ∧
    (IsSpecial (.srl rs rt rd sa) 0x02 ∧
    ∃ (t : State) (v : Word), exec (.srl rs rt rd sa) s = .next t ∧ RegWritten s t rd v ∧ GoesOn s t 0 ∧
      ∀ k : Nat, k < 32 → v.getLsbD k = (decide (k + sa.toNat < 32) && (readReg s rt).getLsbD (k + sa.toNat))) ∧
    (IsSpecial (.sra rs rt rd sa) 0x03 ∧
    ∃ (t : State) (v : Word), exec (.sra rs rt rd sa) s = .next t ∧ RegWritten s t rd v ∧ GoesOn s t 0 ∧
      ∀ k : Nat, k < 32 → v.getLsbD k = if k + sa.toNat < 32 then (readReg s rt).getLsbD (k + sa.toNat) else (readReg s rt).msb)

/-- For all operands sllv, srlv and srav complete: they shift rt as the constant shifts do, by the value of rs
modulo 32; nothing is raised, and nothing else changes but pc and cycle. (R173, R174, R175) -/
def Obligations.VariableShiftsUseTheLowFiveBits : Prop :=
  ∀ (s : State) (rs rt rd : RegName) (sa : BitVec 5), PcAligned s →
    (IsSpecial (.sllv rs rt rd sa) 0x04 ∧
    ∃ (t : State) (v : Word), exec (.sllv rs rt rd sa) s = .next t ∧ RegWritten s t rd v ∧ GoesOn s t 0 ∧
      ∀ k : Nat, k < 32 → v.getLsbD k = (!decide (k < ((readReg s rs).toNat % 32)) && (readReg s rt).getLsbD (k - ((readReg s rs).toNat % 32)))) ∧
    (IsSpecial (.srlv rs rt rd sa) 0x06 ∧
    ∃ (t : State) (v : Word), exec (.srlv rs rt rd sa) s = .next t ∧ RegWritten s t rd v ∧ GoesOn s t 0 ∧
      ∀ k : Nat, k < 32 → v.getLsbD k = (decide (k + ((readReg s rs).toNat % 32) < 32) && (readReg s rt).getLsbD (k + ((readReg s rs).toNat % 32)))) ∧
    (IsSpecial (.srav rs rt rd sa) 0x07 ∧
    ∃ (t : State) (v : Word), exec (.srav rs rt rd sa) s = .next t ∧ RegWritten s t rd v ∧ GoesOn s t 0 ∧
      ∀ k : Nat, k < 32 → v.getLsbD k = if k + ((readReg s rs).toNat % 32) < 32 then (readReg s rt).getLsbD (k + ((readReg s rs).toNat % 32)) else (readReg s rt).msb)

/-- For all operands addi and addiu complete: rt receives the sum of rs and the signed immediate modulo 2^32
(register 0 stays 0); for addi the mask gains INT_OVERFLOW (2) exactly when the exact signed sum leaves the
signed range, for addiu nothing is raised; nothing else changes but pc and cycle. (R180, R181) -/
def Obligations.AddiAndAddiuAddTheSignedImmediate : Prop :=
  ∀ (s : State) (rs rt : RegName) (imm : BitVec 16), PcAligned s →
    (HasOpcode (.addi rs rt imm) 0x08 ∧
    ∃ t : State, exec (.addi rs rt imm) s = .next t ∧
      RegWritten s t rt (BitVec.ofInt 32 ((readReg s rs).toInt + imm.toInt)) ∧
      (LeavesSigned ((readReg s rs).toInt + imm.toInt) → GoesOn s t 2) ∧
      (¬ LeavesSigned ((readReg s rs).toInt + imm.toInt) → GoesOn s t 0)) ∧
    (HasOpcode (.addiu rs rt imm) 0x09 ∧
    ∃ t : State, exec (.addiu rs rt imm) s = .next t ∧ RegWritten s t rt (BitVec.ofInt 32 ((readReg s rs).toInt + imm.toInt)) ∧ GoesOn s t 0)

/-- For all operands slti and sltiu complete: rt receives 1 where rs is less than the immediate, compared signed for
slti and, after sign extension to 32 bits, unsigned for sltiu, and 0 otherwise; nothing is raised, and nothing
else changes but pc and cycle. (R182, R183) -/
def Obligations.SetOnLessThanImmediateComparesSignedAndUnsigned : Prop :=
  ∀ (s : State) (rs rt : RegName) (imm : BitVec 16), PcAligned s →
    (HasOpcode (.slti rs rt imm) 0x0A ∧
    ∃ t : State, exec (.slti rs rt imm) s = .next t ∧ RegWritten s t rt (if (readReg s rs).toInt < imm.toInt then 1 else 0) ∧ GoesOn s t 0) ∧
    (HasOpcode (.sltiu rs rt imm) 0x0B ∧
    ∃ t : State, exec (.sltiu rs rt imm) s = .next t ∧ RegWritten s t rt (if (readReg s rs).toNat < (imm.toInt % 2 ^ 32).toNat then 1 else 0) ∧ GoesOn s t 0)

/-- For all operands andi, ori, xori and lui complete: each bit of the value written to rt is the and, or, exclusive
or of rs's bit and the immediate's (0 above bit 15), and for lui bit k is bit k - 16 of the immediate, 0 below
bit 16; nothing is raised, and nothing else changes but pc and cycle. (R184, R185, R186, R187) -/
def Obligations.LogicalImmediateInstructionsZeroExtend : Prop :=
  ∀ (s : State) (rs rt : RegName) (imm : BitVec 16), PcAligned s →
    (HasOpcode (.andi rs rt imm) 0x0C ∧
    ∃ (t : State) (v : Word), exec (.andi rs rt imm) s = .next t ∧ RegWritten s t rt v ∧ GoesOn s t 0 ∧
      ∀ k : Nat, k < 32 → v.getLsbD k = ((readReg s rs).getLsbD k && (decide (k < 16) && imm.getLsbD k))) ∧
    (HasOpcode (.ori rs rt imm) 0x0D ∧
    ∃ (t : State) (v : Word), exec (.ori rs rt imm) s = .next t ∧ RegWritten s t rt v ∧ GoesOn s t 0 ∧
      ∀ k : Nat, k < 32 → v.getLsbD k = ((readReg s rs).getLsbD k || (decide (k < 16) && imm.getLsbD k))) ∧
    (HasOpcode (.xori rs rt imm) 0x0E ∧
    ∃ (t : State) (v : Word), exec (.xori rs rt imm) s = .next t ∧ RegWritten s t rt v ∧ GoesOn s t 0 ∧
      ∀ k : Nat, k < 32 → v.getLsbD k = ((readReg s rs).getLsbD k ^^ (decide (k < 16) && imm.getLsbD k))) ∧
    (HasOpcode (.lui rs rt imm) 0x0F ∧
    ∃ (t : State) (v : Word), exec (.lui rs rt imm) s = .next t ∧ RegWritten s t rt v ∧ GoesOn s t 0 ∧
      ∀ k : Nat, k < 32 → v.getLsbD k = (!decide (k < 16) && imm.getLsbD (k - 16)))

/-- The effective address is rs plus the sign-extended displacement modulo 2^32. lb, lbu and sb raise nothing at any
address. lh, lhu and sh at an odd address and lw and sw at an address that is no multiple of 4 complete with
mask DATA_ALIGN (8), pc the next word, cycle one more, and no register, byte or page changed. (R200) -/
def Obligations.AccessAddressAndAlignmentAreCheckedFirst : Prop :=
  ∀ (s : State) (rs rt : RegName) (imm : BitVec 16), PcAligned s →
    effectiveAddress s rs imm = BitVec.ofInt 32 ((readReg s rs).toInt + imm.toInt) ∧
    (∀ t : State, exec (.lb rs rt imm) s = .next t ∨ exec (.lbu rs rt imm) s = .next t ∨
      exec (.sb rs rt imm) s = .next t → t.mask = s.mask) ∧
    ((effectiveAddress s rs imm).toNat % 2 ≠ 0 →
      (∃ t : State, exec (.lh rs rt imm) s = .next t ∧ RegsKept s t ∧ GoesOn s t 8) ∧
      (∃ t : State, exec (.lhu rs rt imm) s = .next t ∧ RegsKept s t ∧ GoesOn s t 8) ∧
      (∃ t : State, exec (.sh rs rt imm) s = .next t ∧ RegsKept s t ∧ GoesOn s t 8)) ∧
    ((effectiveAddress s rs imm).toNat % 4 ≠ 0 →
      (∃ t : State, exec (.lw rs rt imm) s = .next t ∧ RegsKept s t ∧ GoesOn s t 8) ∧
      (∃ t : State, exec (.sw rs rt imm) s = .next t ∧ RegsKept s t ∧ GoesOn s t 8))

/-- At every address lb and lbu complete: rt receives the byte at the effective address, sign-extended for lb and
zero-extended for lbu (register 0 stays 0), the byte's page is allocated, no byte changes, nothing is raised,
and nothing else changes but pc and cycle. (R201, R202) -/
def Obligations.LoadByteExtendsTheByte : Prop :=
  ∀ (s : State) (rs rt : RegName) (imm : BitVec 16), PcAligned s →
    (HasOpcode (.lb rs rt imm) 0x20 ∧
    ∃ (t : State) (v : Word), exec (.lb rs rt imm) s = .next t ∧ RegWritten s t rt v ∧ v.toInt = (byteAt s (effectiveAddress s rs imm)).toInt ∧
      BytesKept s t ∧ Accessed s t (effectiveAddress s rs imm) 1) ∧
    (HasOpcode (.lbu rs rt imm) 0x24 ∧
    ∃ (t : State) (v : Word), exec (.lbu rs rt imm) s = .next t ∧ RegWritten s t rt v ∧ v.toNat = (byteAt s (effectiveAddress s rs imm)).toNat ∧
      BytesKept s t ∧ Accessed s t (effectiveAddress s rs imm) 1)

/-- At every even effective address lh and lhu complete: rt receives the big-endian halfword there, sign-extended
for lh and zero-extended for lhu (register 0 stays 0), its page is allocated, no byte changes, nothing is
raised, and nothing else changes but pc and cycle. The odd addresses are in
AccessAddressAndAlignmentAreCheckedFirst. (spec/44_load_store.md R203, R204) -/
def Obligations.LoadHalfwordExtendsTheHalfword : Prop :=
  ∀ (s : State) (rs rt : RegName) (imm : BitVec 16), PcAligned s → (effectiveAddress s rs imm).toNat % 2 = 0 →
    (HasOpcode (.lh rs rt imm) 0x21 ∧
    ∃ (t : State) (v : Word), exec (.lh rs rt imm) s = .next t ∧ RegWritten s t rt v ∧ v.toInt = (BitVec.ofNat 16 ((byteAt s (effectiveAddress s rs imm)).toNat * 256 + (byteAt s ((effectiveAddress s rs imm) + 1)).toNat)).toInt ∧
      BytesKept s t ∧ Accessed s t (effectiveAddress s rs imm) 2) ∧
    (HasOpcode (.lhu rs rt imm) 0x25 ∧
    ∃ (t : State) (v : Word), exec (.lhu rs rt imm) s = .next t ∧ RegWritten s t rt v ∧ v.toNat = (byteAt s (effectiveAddress s rs imm)).toNat * 256 + (byteAt s ((effectiveAddress s rs imm) + 1)).toNat ∧
      BytesKept s t ∧ Accessed s t (effectiveAddress s rs imm) 2)

/-- At every effective address that is a multiple of 4 lw completes: rt receives the big-endian word there (register
0 stays 0), its page is allocated, no byte changes, nothing is raised, and nothing else changes but pc and
cycle. The other addresses are in AccessAddressAndAlignmentAreCheckedFirst. (spec/44_load_store.md R205,
spec/20_memory.md R66) -/
def Obligations.LoadWordReadsTheBigEndianWord : Prop :=
  ∀ (s : State) (rs rt : RegName) (imm : BitVec 16), PcAligned s → (effectiveAddress s rs imm).toNat % 4 = 0 →
    HasOpcode (.lw rs rt imm) 0x23 ∧
    ∃ (t : State) (v : Word), exec (.lw rs rt imm) s = .next t ∧ RegWritten s t rt v ∧ 
      v.toNat = ((byteAt s (effectiveAddress s rs imm)).toNat * 256 + (byteAt s ((effectiveAddress s rs imm) + 1)).toNat) * 65536 +
        (byteAt s ((effectiveAddress s rs imm) + 2)).toNat * 256 + (byteAt s ((effectiveAddress s rs imm) + 3)).toNat ∧
      BytesKept s t ∧ Accessed s t (effectiveAddress s rs imm) 4

/-- sb at every address, sh at every even one and sw at every multiple of 4 complete: the 1, 2 or 4 bytes from the
effective address on are the low bytes of rt, the most significant first, every byte outside them keeps its
value, their page is allocated, no register changes, nothing is raised, and nothing else changes but pc and
cycle. Misaligned addresses are in AccessAddressAndAlignmentAreCheckedFirst. (spec/44_load_store.md R206, R207,
R208) -/
def Obligations.StoresWriteTheLowBytesBigEndian : Prop :=
  ∀ (s : State) (rs rt : RegName) (imm : BitVec 16), PcAligned s →
    (HasOpcode (.sb rs rt imm) 0x28 ∧
    ∃ t : State, exec (.sb rs rt imm) s = .next t ∧ RegsKept s t ∧ (byteAt t (effectiveAddress s rs imm)).toNat = (readReg s rt).toNat % 256 ∧
      BytesKeptOutside s t (effectiveAddress s rs imm) 1 ∧ Accessed s t (effectiveAddress s rs imm) 1) ∧
    ((effectiveAddress s rs imm).toNat % 2 = 0 → HasOpcode (.sh rs rt imm) 0x29 ∧
    ∃ t : State, exec (.sh rs rt imm) s = .next t ∧ RegsKept s t ∧ 
      (byteAt t (effectiveAddress s rs imm)).toNat = (readReg s rt).toNat / 256 % 256 ∧
      (byteAt t ((effectiveAddress s rs imm) + 1)).toNat = (readReg s rt).toNat % 256 ∧
      BytesKeptOutside s t (effectiveAddress s rs imm) 2 ∧ Accessed s t (effectiveAddress s rs imm) 2) ∧
    ((effectiveAddress s rs imm).toNat % 4 = 0 → HasOpcode (.sw rs rt imm) 0x2B ∧
    ∃ t : State, exec (.sw rs rt imm) s = .next t ∧ RegsKept s t ∧ 
      (byteAt t (effectiveAddress s rs imm)).toNat = (readReg s rt).toNat / 16777216 ∧
      (byteAt t ((effectiveAddress s rs imm) + 1)).toNat = (readReg s rt).toNat / 65536 % 256 ∧
      (byteAt t ((effectiveAddress s rs imm) + 2)).toNat = (readReg s rt).toNat / 256 % 256 ∧
      (byteAt t ((effectiveAddress s rs imm) + 3)).toNat = (readReg s rt).toNat % 256 ∧
      BytesKeptOutside s t (effectiveAddress s rs imm) 4 ∧ Accessed s t (effectiveAddress s rs imm) 4)

/-- When sw stores to the word right after itself, the step after it fetches exactly the value stored, whatever
stood there. The spec marks R84 as its own inference ("derived"). (spec/20_memory.md R84,
spec/70_reset_and_hazards.md R463) -/
def Obligations.AStoreIsSeenByTheNextFetch : Prop :=
  ∀ (s : State) (rs rt : RegName) (imm : BitVec 16), PcAligned s → effectiveAddress s rs imm = s.pc + 4 →
    ∃ t : State, exec (.sw rs rt imm) s = .next t ∧ fetchWord (enterStep t) = readReg s rt

/-- For all operands beq and bne complete: when rs and rt are equal (beq) or differ (bne) pc becomes the branch's
own address plus four times the signed immediate modulo 2^32, otherwise the next word; no register, byte or page
changes, nothing is raised, cycle counts one. (R220, R221) -/
def Obligations.BranchesCompareAndAddToTheirOwnAddress : Prop :=
  ∀ (s : State) (rs rt : RegName) (imm : BitVec 16), PcAligned s →
    (HasOpcode (.beq rs rt imm) 0x04 ∧
    ∃ t : State, exec (.beq rs rt imm) s = .next t ∧ RegsKept s t ∧
      Transferred s t (if readReg s rs = readReg s rt then s.pc + BitVec.ofInt 32 (4 * imm.toInt) else s.pc + 4) 0) ∧
    (HasOpcode (.bne rs rt imm) 0x05 ∧
    ∃ t : State, exec (.bne rs rt imm) s = .next t ∧ RegsKept s t ∧
      Transferred s t (if readReg s rs ≠ readReg s rt then s.pc + BitVec.ofInt 32 (4 * imm.toInt) else s.pc + 4) 0)

/-- In every state j and jal complete: pc becomes the upper four bits of the jump's own address followed by the
target times 4; jal writes pc + 4 to register 31, j writes no register; no byte or page changes, nothing is
raised, cycle counts one. (R222, R223) -/
def Obligations.JumpsStayInTheirRegionAndJalLinks : Prop :=
  ∀ (s : State) (target : BitVec 26),
    (HasOpcode (.j target) 0x02 ∧
      ∃ t : State, exec (.j target) s = .next t ∧ RegsKept s t ∧
        Transferred s t (BitVec.ofNat 32 (s.pc.toNat / 2 ^ 28 * 2 ^ 28 + 4 * target.toNat)) 0) ∧
    (HasOpcode (.jal target) 0x03 ∧
      ∃ t : State, exec (.jal target) s = .next t ∧ RegWritten s t 31 (s.pc + 4) ∧
        Transferred s t (BitVec.ofNat 32 (s.pc.toNat / 2 ^ 28 * 2 ^ 28 + 4 * target.toNat)) 0)

/-- In every state jr completes: with an aligned register pc becomes its value and nothing is raised; otherwise pc
becomes the next multiple of 4 modulo 2^32 and the mask gains PC_ALIGN (4); no register, byte or page changes,
cycle counts one. (R224) -/
def Obligations.JrRoundsAMisalignedTargetUp : Prop :=
  ∀ (s : State) (rs rt rd : RegName) (sa : BitVec 5), IsSpecial (.jr rs rt rd sa) 0x08 ∧
    ((readReg s rs).toNat % 4 = 0 → ∃ t : State, exec (.jr rs rt rd sa) s = .next t ∧ RegsKept s t ∧
      Transferred s t (readReg s rs) 0) ∧
    ((readReg s rs).toNat % 4 ≠ 0 → ∃ t : State, exec (.jr rs rt rd sa) s = .next t ∧ RegsKept s t ∧
      Transferred s t (BitVec.ofNat 32 ((readReg s rs).toNat / 4 * 4 + 4)) 4)

/-- In every state, whatever its code bits, syscall completes: halted becomes true, the mask gains SYSCALL (128), pc
keeps the syscall's address, cycle counts one, register 0 holds 0, and no register, byte or page changes. (R240) -/
def Obligations.SyscallHaltsInPlace : Prop :=
  ∀ (s : State) (code : BitVec 20), IsSpecial (.syscall code) 0x0C ∧
    ∃ t : State, exec (.syscall code) s = .next t ∧ t.halted = true ∧ t.mask = s.mask ||| 128 ∧ t.pc = s.pc ∧
      t.cycle = s.cycle + 1 ∧ RegsKept s t ∧ ZeroHolds t ∧ BytesKept s t ∧ PagesKept s t ∧
      t.branchTarget = s.branchTarget ∧ t.stopRequest = s.stopRequest

/-- Whatever its code bits, break completes: the mask gains BREAK (32), pc becomes the next word, cycle counts one,
and no register, byte, page or halted changes. (R242) -/
def Obligations.BreakOnlyRaises : Prop :=
  ∀ (s : State) (code : BitVec 20), PcAligned s → IsSpecial (.breakpoint code) 0x0D ∧
    ∃ t : State, exec (.breakpoint code) s = .next t ∧ RegsKept s t ∧ GoesOn s t 32

/-- The eight kinds have the bits 1, 2, 4, 8, 16, 32, 64 and 128 in the spec's order. (spec/60_exceptions.md R400) -/
def Obligations.ExceptionKindsHaveTheirBits : Prop :=
  ExceptionKind.bit .invalidInst = 1 ∧ ExceptionKind.bit .intOverflow = 2 ∧ ExceptionKind.bit .pcAlign = 4 ∧
    ExceptionKind.bit .dataAlign = 8 ∧ ExceptionKind.bit .branchInDelaySlot = 16 ∧ ExceptionKind.bit .breakpoint = 32 ∧
    ExceptionKind.bit .pcLimit = 64 ∧ ExceptionKind.bit .syscall = 128

/-- From every state whatever, reachable or not, step answers a next state: it never faults and never refuses.
(spec/40_step.md R142) -/
def Obligations.EveryStepAnswersANextState : Prop :=
  ∀ s : State, ∃ t : State, step s = .next t

/-- Every step, raising or not, syscall among them, makes cycle one more; after n host steps from any reset cycle is
n. (R138) -/
def Obligations.EveryStepCountsOneCycle : Prop :=
  (∀ s t : State, step s = .next t → t.cycle = s.cycle + 1) ∧
    (∀ (hooked : Bool) (s : State) (n : Nat), (runHost hooked (List.replicate n .step) (resetCpu s)).state.cycle = n)

/-- Changing halted before a step changes nothing after it but halted itself, which the step then leaves as it was
unless the step is a syscall, which sets it. (spec/40_step.md R139, spec/60_exceptions.md R414) -/
def Obligations.StepDoesNotReadHalted : Prop :=
  ∀ (s t : State) (b : Bool), step s = .next t →
    step { s with halted := b } = .next { t with halted := if t.mask = 128 then true else b }

/-- A step sets halted exactly when the word at pc is a syscall, and no step clears it. (spec/10_state.md R40,
spec/60_exceptions.md R414) -/
def Obligations.OnlySyscallHalts : Prop :=
  ∀ s t : State, step s = .next t →
    (t.halted = true ↔ s.halted = true ∨ ∃ code : BitVec 20, decode (wordAt s s.pc) = .instr (.syscall code))

/-- In every state register 0 reads 0; after a step from any state, whatever that state held in it, its stored value
is 0; so it is after reset. (R31) -/
def Obligations.RegisterZeroIsAlwaysZero : Prop :=
  (∀ s : State, readReg s 0 = 0) ∧ (∀ s t : State, step s = .next t → ZeroHolds t) ∧
    (∀ s : State, ZeroHolds (resetCpu s)) ∧ ZeroHolds State.reset

/-- For every instruction and state: a register other than its destination keeps its value (stores, beq, bne, j, jr,
syscall and break have none); sb, sh and sw change no byte outside the 1, 2 or 4 from the effective address on,
and no other instruction changes any byte; halted stays except in syscall; no page leaves the page set; the
scratch and the stop request never change. The spec marks R35 and R76 as its own inference ("derived").
(spec/10_state.md R35, R40, R41, R45, spec/20_memory.md R76) -/
def Obligations.AnInstructionChangesOnlyItsOwnParts : Prop :=
  ∀ (i : Instr) (s t : State), exec i s = .next t →
    (∀ r : RegName, destOf i ≠ some r → readReg t r = readReg s r) ∧
    (∀ (rs : RegName) (imm : BitVec 16) (width : Nat), storeOf i = some (rs, imm, width) →
      BytesKeptOutside s t (effectiveAddress s rs imm) width) ∧
    (storeOf i = none → BytesKept s t) ∧
    ((∀ code : BitVec 20, i ≠ .syscall code) → t.halted = s.halted) ∧
    (∀ p : PageIndex, p ∈ s.pages → p ∈ t.pages) ∧
    t.branchTarget = s.branchTarget ∧ t.stopRequest = s.stopRequest

/-- From an aligned pc, the mask after a step is 0 or the single bit of the kind the decoded instruction can raise:
INT_OVERFLOW for add, sub, addi; DATA_ALIGN for lh, lhu, lw, sh, sw; PC_ALIGN for jr; BREAK for break; SYSCALL
for syscall; none for the others. An invalid word's mask is INVALID_INST. The spec marks R144 as its own
inference ("derived"). (spec/40_step.md R144) -/
def Obligations.EachStepRaisesAtMostItsOwnKind : Prop :=
  ∀ s t : State, PcAligned s → step s = .next t →
    (∀ i : Instr, decode (wordAt s s.pc) = .instr i → t.mask = 0 ∨ t.mask = kindOf i) ∧
    ((∀ i : Instr, decode (wordAt s s.pc) ≠ .instr i) → t.mask = 1)

/-- From an aligned pc, a step whose mask is INVALID_INST, INT_OVERFLOW, DATA_ALIGN or BREAK ends with pc at the
next word, one whose mask is SYSCALL with pc unchanged, and one whose mask is PC_ALIGN with pc a multiple of 4.
The spec marks R402 and R464 as its own inference ("derived"). (spec/40_step.md R143, spec/60_exceptions.md
R402, spec/70_reset_and_hazards.md R464) -/
def Obligations.PcAfterAnException : Prop :=
  ∀ s t : State, PcAligned s → step s = .next t →
    (t.mask ∈ [1, 2, 8, 32] → t.pc = s.pc + 4) ∧ (t.mask = 128 → t.pc = s.pc) ∧ (t.mask = 4 → PcAligned t)

/-- If register 0 holds 0, pc is aligned, memory and page set are canonical with every nonzero byte in an allocated
page, the scratch is none, the mask is legal and SYSCALL in it means halted, then all of that holds after a
step, from every such state. The canonical form is the model's own (log entry 15). The spec marks R37 and R144
as its own inference ("derived"). (spec/10_state.md R31, R37, R41, R45, spec/40_step.md R144,
spec/60_exceptions.md R401, spec/20_memory.md R62, R63) -/
def Obligations.EveryStepKeepsTheInvariant : Prop :=
  ∀ s t : State, Inv s → step s = .next t → Inv t

/-- The state after reset meets the invariant that every step keeps. Its mask, NONE, is the model's choice (log
entry 1), and so is the canonical form (log entry 15). (spec/70_reset_and_hazards.md R454) -/
def Obligations.ResetMeetsTheInvariant : Prop :=
  Inv State.reset

/-- Each operation of the host's table (assemble, construction, load_image, the six primitives, dump, reset, step,
views, the stop request) keeps the invariant, from every state that meets it, with a hook installed or not. The
model's choices in it: after reset() and construction the mask is NONE (log entry 1), construction replaces the
session's memory or CPU (log entry 13), and memory and page set are kept in a canonical form (log entry 15).
(spec/60_exceptions.md R422, R425, spec/20_memory.md R62 to R73) -/
def Obligations.EveryHostOperationKeepsTheInvariant : Prop :=
  ∀ (hooked : Bool) (op : HostOp) (s : State), Inv s → Inv (applyHostOp hooked op s).state

/-- For every address, aligned or not and at the wrap, and every value: set_byte, set_half and set_word put the low
1, 2 or 4 bytes at the address and those after it modulo 2^32, the most significant first; the read of the same
width returns the value's low bits; every byte outside keeps its value; the pages of the bytes are allocated.
(R67, R68, R69) -/
def Obligations.StoredValuesReadBackBigEndian : Prop :=
  ∀ (s : State) (a v : Word),
    ((getByte a (setByte a v s)).1 = v.extractLsb' 0 8 ∧
      BytesKeptOutside s (setByte a v s) a 1 ∧ PagesGain s (setByte a v s) a 1) ∧
    (byteAt (setHalf a v s) a = v.extractLsb' 8 8 ∧ byteAt (setHalf a v s) (a + 1) = v.extractLsb' 0 8 ∧
      (getHalf a (setHalf a v s)).1 = v.extractLsb' 0 16 ∧
      BytesKeptOutside s (setHalf a v s) a 2 ∧ PagesGain s (setHalf a v s) a 2) ∧
    (byteAt (setWord a v s) a = v.extractLsb' 24 8 ∧ byteAt (setWord a v s) (a + 1) = v.extractLsb' 16 8 ∧
      byteAt (setWord a v s) (a + 2) = v.extractLsb' 8 8 ∧ byteAt (setWord a v s) (a + 3) = v.extractLsb' 0 8 ∧
      (getWord a (setWord a v s)).1 = v ∧
      BytesKeptOutside s (setWord a v s) a 4 ∧ PagesGain s (setWord a v s) a 4)

/-- For every address and length the reads return the bytes there, big-endian for halfword and word and one by one
modulo 2^32 for dump, allocate exactly the pages they touch (none for an empty dump), and change nothing else in
the state. (R64, R65, R66, R72) -/
def Obligations.ReadsAllocateAndChangeNothingElse : Prop :=
  ∀ (s : State) (a : Word) (n : Nat),
    ((getByte a s).1 = byteAt s a ∧ PagesGain s (getByte a s).2 a 1 ∧
      (getByte a s).2 = { s with pages := (getByte a s).2.pages }) ∧
    ((getHalf a s).1.toNat = (byteAt s a).toNat * 256 + (byteAt s (a + 1)).toNat ∧ PagesGain s (getHalf a s).2 a 2 ∧
      (getHalf a s).2 = { s with pages := (getHalf a s).2.pages }) ∧
    ((getWord a s).1.toNat = ((byteAt s a).toNat * 256 + (byteAt s (a + 1)).toNat) * 65536 +
        (byteAt s (a + 2)).toNat * 256 + (byteAt s (a + 3)).toNat ∧ PagesGain s (getWord a s).2 a 4 ∧
      (getWord a s).2 = { s with pages := (getWord a s).2.pages }) ∧
    ((dump a n s).1 = (List.range n).map (fun k => byteAt s (a + BitVec.ofNat 32 k)) ∧ PagesGain s (dump a n s).2 a n ∧
      (dump a n s).2 = { s with pages := (dump a n s).2.pages })

/-- After set_word(a, v) the halfwords at a and a + 2 and the four bytes are v's parts in big-endian order; after a
further set_byte(a + 3, b) the word at a is v with its low byte replaced. The spec marks R75 as its own
inference ("derived"). (spec/20_memory.md R75, R64 to R69) -/
def Obligations.MixedWidthAccessesSeeOneByteArray : Prop :=
  ∀ (s : State) (a v b : Word),
    halfAt (setWord a v s) a = v.extractLsb' 16 16 ∧ halfAt (setWord a v s) (a + 2) = v.extractLsb' 0 16 ∧
    byteAt (setWord a v s) a = v.extractLsb' 24 8 ∧ byteAt (setWord a v s) (a + 1) = v.extractLsb' 16 8 ∧
    byteAt (setWord a v s) (a + 2) = v.extractLsb' 8 8 ∧ byteAt (setWord a v s) (a + 3) = v.extractLsb' 0 8 ∧
    wordAt (setByte (a + 3) b (setWord a v s)) a = (v &&& 0xFFFFFF00) ||| (b &&& 0xFF)

/-- For an image whose segments are no longer than the address space: every text word reads back at its place; every
data byte reads back where no text word lies over it; every byte outside both ranges keeps its value; exactly
the pages of the two ranges are allocated; no CPU state changes. (R73) -/
def Obligations.LoadImagePutsDataThenText : Prop :=
  ∀ (s : State) (image : AssemblyImage),
    image.dataBytes.length ≤ 2 ^ 32 → 4 * image.textWords.length ≤ 2 ^ 32 →
    (∀ (j : Nat) (h : j < image.textWords.length),
      wordAt (loadImage image s) (image.textStart + BitVec.ofNat 32 (4 * j)) = image.textWords[j]) ∧
    (∀ (k : Nat) (h : k < image.dataBytes.length),
      4 * image.textWords.length ≤ (image.dataStart + BitVec.ofNat 32 k - image.textStart).toNat →
      byteAt (loadImage image s) (image.dataStart + BitVec.ofNat 32 k) = image.dataBytes[k]) ∧
    (∀ a : Word, image.dataBytes.length ≤ (a - image.dataStart).toNat →
      4 * image.textWords.length ≤ (a - image.textStart).toNat →
      byteAt (loadImage image s) a = byteAt s a) ∧
    (∀ p : PageIndex, p ∈ (loadImage image s).pages ↔
      (∃ k : Nat, k < image.dataBytes.length ∧ p = pageOf (image.dataStart + BitVec.ofNat 32 k)) ∨
      (∃ k : Nat, k < 4 * image.textWords.length ∧ p = pageOf (image.textStart + BitVec.ofNat 32 k)) ∨ p ∈ s.pages) ∧
    loadImage image s = { s with mem := (loadImage image s).mem, pages := (loadImage image s).pages }

/-- From any state, so after any sequence of host operations and steps, reset() clears the registers but for $gp and
$sp, sets pc to 0x00040000, cycle to 0, halted to false and the scratch to none, and changes no byte and no
page. That it leaves the stop request as it is is the model's choice (log entry 2, DESIGN CHOICE).
(spec/70_reset_and_hazards.md R450, R451, R453) -/
def Obligations.ResetRestoresTheCpuAndKeepsTheMemory : Prop :=
  ∀ s : State,
    (∀ r : RegName, readReg (resetCpu s) r = if r = 28 then 0x10008000 else if r = 29 then 0x7FFFFFFC else 0) ∧
    ZeroHolds (resetCpu s) ∧ (resetCpu s).pc = 0x00040000 ∧ (resetCpu s).cycle = 0 ∧ (resetCpu s).halted = false ∧
    (resetCpu s).branchTarget = none ∧ (resetCpu s).mem = s.mem ∧ (resetCpu s).pages = s.pages ∧
    (resetCpu s).stopRequest = s.stopRequest

/-- Right after construction every register is 0 but $gp = 0x10008000 and $sp = 0x7FFFFFFC, pc is 0x00040000, cycle
0, halted false, the scratch none, every byte of memory 0, the page set empty. The stop request is false as
well: that is the model's choice (log entry 2, DESIGN CHOICE), since the spec gives that value only for the
start of a driver run. (spec/70_reset_and_hazards.md R454, spec/10_state.md R34, R36, R45, R46) -/
def Obligations.ResetStateHasTheGivenValues : Prop :=
  (∀ r : RegName, readReg State.reset r = if r = 28 then 0x10008000 else if r = 29 then 0x7FFFFFFC else 0) ∧
    State.reset.pc = 0x00040000 ∧ State.reset.cycle = 0 ∧ State.reset.halted = false ∧
    State.reset.branchTarget = none ∧ (∀ a : Word, byteAt State.reset a = 0) ∧ State.reset.pages = [] ∧
    State.reset.stopRequest = false

/-- Let a stop be due after n steps from s when the mask after them is not NONE, halted is true, or the host has
requested the stop by the end of one of them. If a stop is due after n of the steps the run may take and after
no fewer (at least one), the run has stopped in exactly the state those n steps lead to, so it took no further
step. If a stop is due after none of them, the run is still running, in the state all of them lead to. That a
run is given the steps it may take, with the host's request for each, is the model's choice (log entry 11); the
stop request is false when it starts. (spec/60_exceptions.md R420, R421, R426, spec/70_reset_and_hazards.md
R454) -/
def Obligations.TheDriverStopsExactlyOnItsConditions : Prop :=
  ∀ (hooked : Bool) (stops : List Bool) (s : State),
    (∀ n : Nat, 1 ≤ n → n ≤ stops.length → StopDue stops s n →
      (∀ k : Nat, 1 ≤ k → k < n → ¬ StopDue stops s k) →
      (drive hooked stops s).status = .stopped ∧
      (drive hooked stops s).state = setStop (decide (true ∈ stops.take n)) (hostSteps n s)) ∧
    ((∀ k : Nat, 1 ≤ k → k ≤ stops.length → ¬ StopDue stops s k) →
      (drive hooked stops s).status = .running ∧
      (drive hooked stops s).state = setStop false (hostSteps stops.length s))

/-- With a hook installed, a host operation calls it exactly when it is a step after which the mask is not NONE or
halted is true, then once, with the mask and the view after the step; operations one after another call it in
their order. A driver run that stopped on a mask or on halted has called it exactly once, after its last step; a
run that stopped on the stop request alone, or has not stopped, has not. With no hook installed there is no
call, and the reply and the state of every operation and run are the same. That hook calls are collected in
order is the model's form of them (log entry 11). (spec/60_exceptions.md R423) -/
def Obligations.TheHookIsCalledOncePerQualifyingStep : Prop :=
  (∀ (op : HostOp) (s : State),
      (applyHostOp false op s).hooks = [] ∧ (applyHostOp true op s).reply = (applyHostOp false op s).reply ∧
      (applyHostOp true op s).state = (applyHostOp false op s).state ∧
      (applyHostOp true op s).hooks =
        if op = .step ∧ ((applyHostOp true op s).state.mask ≠ 0 ∨ (applyHostOp true op s).state.halted = true) then
          [{ mask := (applyHostOp true op s).state.mask, view := viewOf (applyHostOp true op s).state }]
        else []) ∧
    (∀ (ops : List HostOp) (op : HostOp) (s : State),
      (runHost false ops s).hooks = [] ∧ (runHost true ops s).state = (runHost false ops s).state ∧
      (runHost true (ops ++ [op]) s).hooks =
        (runHost true ops s).hooks ++ (applyHostOp true op (runHost true ops s).state).hooks) ∧
    (∀ (stops : List Bool) (s : State),
      (drive false stops s).hooks = [] ∧
      (drive true stops s).state = (drive false stops s).state ∧
      (drive true stops s).status = (drive false stops s).status ∧
      (drive true stops s).hooks =
        if (drive true stops s).status = .stopped ∧
            ((drive true stops s).state.mask ≠ 0 ∨ (drive true stops s).state.halted = true) then
          [{ mask := (drive true stops s).state.mask, view := viewOf (drive true stops s).state }]
        else [])

/-- A driver run that stopped with the mask SYSCALL is halted, its pc addresses a word that decodes to syscall, so
it has completed its program in the spec's sense. (spec/60_exceptions.md R426) -/
def Obligations.ACompletedRunEndsOnASyscall : Prop :=
  ∀ (hooked : Bool) (stops : List Bool) (s : State),
    (drive hooked stops s).status = .stopped → (drive hooked stops s).state.mask = 128 →
    Completed (drive hooked stops s) ∧
      ∃ code : BitVec 20, decode (wordAt (drive hooked stops s).state (drive hooked stops s).state.pc) =
        .instr (.syscall code)

/-- For every source text, assembling with a text start that is no multiple of 4 answers the error (0, BadConfig);
the default configuration is 0x00040000 and 0x10000000. (R302) -/
def Obligations.AMisalignedTextStartIsRejected : Prop :=
  (∀ (cfg : AsmConfig) (source : Text), cfg.textStart.toNat % 4 ≠ 0 →
      assembleText cfg source = .error { line := 0, kind := .badConfig }) ∧
    ({} : AsmConfig) = { textStart := 0x00040000, dataStart := 0x10000000 }

/-- For every source and configuration that assemble: the segment starts are the configuration's, text_size is a
multiple of 4, there are text_size / 4 text words and data_size data bytes, and neither segment passes the end
of the address space. (spec/48_assembler.md R301, R338, R354) -/
def Obligations.ImageSizesMatchTheirContents : Prop :=
  ∀ (cfg : AsmConfig) (source : Text) (image : AssemblyImage) (ws : List AsmWarning),
    assembleText cfg source = .ok (image, ws) →
    image.textStart = cfg.textStart ∧ image.dataStart = cfg.dataStart ∧ image.textSize % 4 = 0 ∧
    image.textWords.length = image.textSize / 4 ∧ image.dataBytes.length = image.dataSize ∧
    image.textStart.toNat + image.textSize < 2 ^ 32 ∧ image.dataStart.toNat + image.dataSize < 2 ^ 32

/-- For every source and configuration that assemble, and every instruction line of pass 1, the image's text word at
(address - text_start) / 4 is the word pass 1 encoded or, where the line waits for a label, the word its
relocation against the final symbol table gives, which succeeds. (spec/48_assembler.md R344, R349, R350 to R352,
R354) -/
def Obligations.EncodedWordsStandAtTheirAddresses : Prop :=
  ∀ (cfg : AsmConfig) (source : Text) (image : AssemblyImage) (ws : List AsmWarning) (p : Pass1)
      (ls : List ParsedLine), assembleText cfg source = .ok (image, ws) →
    pass1 (prePass source) (pass1Start cfg) = .ok (p, ls) →
    ∀ l ∈ ls,
      (∀ w : Word, l.payload = .encoded w → image.textWords[(l.addr - cfg.textStart.toNat) / 4]? = some w) ∧
      (∀ u : Unresolved, l.payload = .unresolved u →
        ∃ (w : Word) (warning : Option AsmWarningKind), relocate p.symbols u = .ok (w, warning) ∧
          image.textWords[(l.addr - cfg.textStart.toNat) / 4]? = some w)

/-- Whatever the mnemonic, its address and its operand tokens, an instruction the assembler encodes in pass 1 has 0
in every field it does not use, is not break, and its word decodes to exactly it. (spec/30_encoding.md R115,
spec/48_assembler.md R340, R341, R361) -/
def Obligations.TheAssemblerWritesZeroInUnusedFields : Prop :=
  ∀ (m : Mnemonic) (pc : Nat) (ts : List Token) (i : Instr) (warning : Option AsmWarningKind),
    assembleInstr m pc ts = .ok (.ready i warning) →
    i.wellFormed = true ∧ (∀ code : BitVec 20, i ≠ .breakpoint code) ∧ decode (encode i) = .instr i

/-- For a branch waiting for its label: an absent label is UndefinedSymbol; otherwise, with k the distance from pc +
4 to the target divided by 4 and rounded down, the word has k in its immediate when k lies in [-32768, 32767],
and the error is BranchRange when it does not. The target need not be aligned. (R351) -/
def Obligations.BranchRelocationIsTheFlooredWordDistance : Prop :=
  ∀ (symbols : List (Text × Nat)) (u : Unresolved), u.kind = .branch →
    (symbolAddr u.label symbols = none → relocate symbols u = .error .undefinedSymbol) ∧
    (∀ (target : Nat) (k : Int), symbolAddr u.label symbols = some target →
      4 * k ≤ (target : Int) - (u.addr + 4) → (target : Int) - (u.addr + 4) < 4 * k + 4 →
      (-32768 ≤ k ∧ k ≤ 32767 → relocate symbols u = .ok (packI u.opcode u.rs u.rt (BitVec.ofInt 16 k), none)) ∧
      (k < -32768 ∨ 32767 < k → relocate symbols u = .error .branchRange))

/-- For a jump at pc to target, both addresses: a target that is no multiple of 4 is JumpMisaligned; otherwise a
field is produced, with the JumpRegion warning exactly when the upper four address bits differ, and the CPU's
jump from pc with that field goes to the upper four bits of pc followed by the target's lower 28, so to the
target itself in its own region. (spec/48_assembler.md R348, R350, spec/45_control_transfer.md R222) -/
def Obligations.JumpRelocationReachesItsTargetInRegion : Prop :=
  ∀ (s : State) (target : Nat), target < 2 ^ 32 →
    (target % 4 ≠ 0 → relocJump s.pc.toNat target = .error .jumpMisaligned) ∧
    (target % 4 = 0 → ∃ (field : BitVec 26) (warning : Option AsmWarningKind),
      relocJump s.pc.toNat target = .ok (field, warning) ∧
      warning = (if target / 2 ^ 28 = s.pc.toNat / 2 ^ 28 then none else some .jumpRegion) ∧
      (jumpTo s field).toNat = s.pc.toNat / 2 ^ 28 * 2 ^ 28 + target % 2 ^ 28)

/-- For every address, the upper half the assembler gives lui, shifted left 16, plus the address's low half sign-
extended is the address modulo 2^32. (spec/48_assembler.md R352, R346) -/
def Obligations.LuiRelocationPairsWithASignedLowHalf : Prop :=
  ∀ a : Word, immUpper (relocLui a.toNat) + imms (a.extractLsb' 0 16) = a

/-- For a branch at an aligned pc to a word-aligned label, when the assembler produces a field the CPU's taken
branch with that field goes to the label minus 4, not to the label. (spec/45_control_transfer.md R231,
spec/70_reset_and_hazards.md R462) -/
def Obligations.AnAssembledTakenBranchLandsOneWordEarly : Prop :=
  ∀ (s : State) (target : Word) (field : BitVec 16), PcAligned s → target.toNat % 4 = 0 →
    relocBranch s.pc.toNat target.toNat = .ok field → branchTo s field = target - 4

/-- For every k from 0 to 31, when .align k succeeds the active segment's address becomes the least multiple of 2^k
not below it, the line's address is the old one and its size is the difference, and the other segment's address
and the symbols keep. (spec/48_assembler.md R336) -/
def Obligations.AlignReservesExactlyThePadding : Prop :=
  ∀ (n : Nat) (raw : Text) (k : Nat) (p p' : Pass1) (l : ParsedLine), integerValue raw = .ok (k : Int) →
    directiveLine n .align [.integer raw] p = .ok (p', l) →
    k ≤ 31 ∧ activeAddr p ≤ activeAddr p' ∧ activeAddr p' < activeAddr p + 2 ^ k ∧ activeAddr p' % 2 ^ k = 0 ∧
    l.addr = activeAddr p ∧ l.size = activeAddr p' - activeAddr p ∧ l.payload = .padding ∧
    p'.segment = p.segment ∧ p'.symbols = p.symbols ∧
    (p.segment = .text → p'.dataAddr = p.dataAddr) ∧ (p.segment = .data → p'.textAddr = p.textAddr)

/-- When binding a label succeeds, looking up any spelling of it that differs only in case answers the active
segment's address before the line, other names answer as before, and binding any such spelling again is
DuplicateLabel. (spec/48_assembler.md R323, R327) -/
def Obligations.LabelsAreOneSymbolInAnyCase : Prop :=
  ∀ (name name' other : Text) (p p' : Pass1), bindLabel name p = .ok p' → lower name' = lower name →
    symbolAddr (lower name') p'.symbols = some (activeAddr p) ∧
    bindLabel name' p' = .error .duplicateLabel ∧
    (lower other ≠ lower name → symbolAddr (lower other) p'.symbols = symbolAddr (lower other) p.symbols)

/-- Whatever the text, a successful match leaves strictly less of it; so with any fuel of at least the line's length
the tokeniser answers what it answers with exactly that length. (spec/48_assembler.md R311) -/
def Obligations.EveryMatchConsumesAndTheTokeniserFinishes : Prop :=
  (∀ (t rest : Text) (token : Option Token), nextToken t = .ok (token, rest) → rest.length < t.length) ∧
    (∀ (line : Text) (fuel : Nat), line.length ≤ fuel → tokeniseFrom fuel [] line = tokenise line)

end
end

