-- ==== Sys2Proof/Laws/Assembler.lean ====
section
/-! SUPPORT. What each shared operation of the assembler can do, said once: alignment, reservation, ranges, operand readers,
symbols, packing and padding. -/

namespace Sys2Proof.Machine

/-! ### Errors -/

/-- A computation that succeeds is a first part that succeeds and a rest that does. -/
theorem bind_eq_ok {ε α β : Type} {x : Except ε α} {f : α → Except ε β} {b : β} (h : (x >>= f) = .ok b) :
    ∃ a, x = .ok a ∧ f a = .ok b := by
  cases x with
  | error e => cases h
  | ok a => exact ⟨a, rfl, h⟩

/-- Naming the line of an error changes no success. -/
theorem atLine_eq_ok {α : Type} {n : Nat} {x : Except AsmErrorKind α} {a : α} (h : atLine n x = .ok a) : x = .ok a := by
  cases x with
  | error e => cases h
  | ok b => cases h; rfl

/-! ### Addresses -/

/-- The next multiple of `n` (spec/48_assembler.md R336): at least the address, less than `n` above it, a multiple. -/
theorem alignNat_spec {n : Nat} (hn : 0 < n) (addr : Nat) :
    addr ≤ alignNat n addr ∧ alignNat n addr < addr + n ∧ alignNat n addr % n = 0 := by
  unfold alignNat
  have h1 := Nat.div_add_mod (addr + n - 1) n
  have h2 := Nat.mod_lt (addr + n - 1) hn
  rw [Nat.mul_comm] at h1
  exact ⟨by omega, by omega, Nat.mul_mod_left _ _⟩

/-- A multiple is not advanced. -/
theorem alignNat_of_multiple {n addr : Nat} (hn : 0 < n) (h : addr % n = 0) : alignNat n addr = addr := by
  obtain ⟨h1, h2, h3⟩ := alignNat_spec hn addr
  obtain ⟨k, hk⟩ := Nat.dvd_of_mod_eq_zero h
  obtain ⟨j, hj⟩ := Nat.dvd_of_mod_eq_zero h3
  rw [hj] at h1 h2 ⊢
  rw [hk] at h1 h2 ⊢
  have hkj : k ≤ j := Nat.le_of_mul_le_mul_left h1 hn
  have hjk : j < k + 1 := Nat.lt_of_mul_lt_mul_left (by rw [Nat.mul_add, Nat.mul_one]; exact h2)
  rw [show j = k by omega]

@[simp] theorem alignNat_one (addr : Nat) : alignNat 1 addr = addr :=
  alignNat_of_multiple (by omega) (Nat.mod_one _)

/-- Setting the active address (R338): it is set, it fits, and nothing else changes. -/
theorem advanceTo_eq_ok {addr : Nat} {p p' : Pass1} (h : advanceTo addr p = .ok p') :
    addr < 2 ^ 32 ∧ activeAddr p' = addr ∧ p'.segment = p.segment ∧ p'.symbols = p.symbols ∧
      (p.segment = .text → p'.dataAddr = p.dataAddr) ∧ (p.segment = .data → p'.textAddr = p.textAddr) := by
  unfold advanceTo at h
  split at h
  · next hlt =>
    split at h <;> next hs => cases h; refine ⟨hlt, ?_, rfl, rfl, ?_, ?_⟩ <;> simp [activeAddr, hs]
  · cases h

/-- A reservation (R330 to R336): the line is at the aligned address, the active address stands after its bytes. -/
theorem reserve_eq_ok {n align size : Nat} {payload : Payload} {p p' : Pass1} {l : ParsedLine}
    (h : reserve n align size payload p = .ok (p', l)) :
    l = { line := n, segment := p.segment, addr := alignNat align (activeAddr p), size := size, payload := payload,
          warning := none } ∧
      advanceTo (alignNat align (activeAddr p) + size) p = .ok p' := by
  obtain ⟨q, hq, h⟩ := bind_eq_ok h
  cases h
  exact ⟨rfl, hq⟩

/-! ### Operands -/

/-- A value is accepted exactly when it lies in the range (R343). -/
theorem checkRange_eq_ok {lo hi v w : Int} : checkRange lo hi v = .ok w ↔ lo ≤ v ∧ v ≤ hi ∧ w = v := by
  unfold checkRange
  split
  · next h => simp only [Except.ok.injEq]; exact ⟨fun e => ⟨h.1, h.2, e.symm⟩, fun e => e.2.2.symm⟩
  · next h => simp only [reduceCtorEq, false_iff]; exact fun e => h ⟨e.1, e.2.1⟩

/-- Reading an integer operand: the first token is an Integer whose value lies in the range. -/
theorem takeInt_eq_ok {lo hi v : Int} {ts rest : List Token} (h : takeInt lo hi ts = .ok (v, rest)) :
    ∃ raw, ts = .integer raw :: rest ∧ integerValue raw = .ok v ∧ lo ≤ v ∧ v ≤ hi := by
  unfold takeInt at h
  split at h
  · next raw rest' =>
    obtain ⟨a, ha, h⟩ := bind_eq_ok h
    obtain ⟨b, hb, h⟩ := bind_eq_ok h
    cases h
    obtain ⟨h1, h2, rfl⟩ := checkRange_eq_ok.mp hb
    exact ⟨raw, rfl, ha, h1, h2⟩
  · cases h

/-- Nothing is left where nothing may be (R326). -/
theorem noMore_eq_ok {ts : List Token} {u : Unit} : noMore ts = .ok u ↔ ts = [] := by
  cases ts <;> simp [noMore]

/-! ### Symbols -/

/-- A table with one more symbol at its end: an earlier entry of the name wins. -/
theorem symbolAddr_append (name n : Text) (a : Nat) (symbols : List (Text × Nat)) :
    symbolAddr name (symbols ++ [(n, a)]) =
      match symbolAddr name symbols with
      | some b => some b
      | none => if n = name then some a else none := by
  induction symbols with
  | nil => rfl
  | cons e symbols ih =>
    obtain ⟨m, b⟩ := e
    simp only [List.cons_append, symbolAddr]
    split
    · rfl
    · exact ih

/-- Binding a label (R327): it was not bound, and it is put at the end with the active address. -/
theorem bindLabel_eq_ok {name : Text} {p p' : Pass1} (h : bindLabel name p = .ok p') :
    symbolAddr (lower name) p.symbols = none ∧
      p' = { p with symbols := p.symbols ++ [(lower name, activeAddr p)] } := by
  unfold bindLabel at h
  split at h
  · cases h
  · next hn => cases h; exact ⟨hn, rfl⟩

/-! ### Emission -/

@[simp] theorem length_padTo {α : Type} (n : Nat) (fill : α) (l : List α) : (padTo n fill l).length = max l.length n := by
  simp only [padTo, List.length_append, List.length_replicate]
  omega

/-- Padding keeps what is there. -/
theorem getElem?_padTo {α : Type} (n : Nat) (fill : α) (l : List α) {i : Nat} (h : i < l.length) :
    (padTo n fill l)[i]? = l[i]? := by
  rw [padTo, List.getElem?_append_left h]

@[simp] theorem length_packValue (w : Nat) (v : Int) : (packValue w v).length = w := by
  induction w with
  | zero => rfl
  | succ w ih => simp [packValue, ih]

/-- A value of a data directive takes the directive's width. -/
theorem length_emitValue {symbols : List (Text × Nat)} {width : Nat} {v : DataValue} {bs : List Byte}
    (h : emitValue symbols width v = .ok bs) : bs.length = width := by
  obtain ⟨n, _, h⟩ := bind_eq_ok h
  obtain ⟨m, _, h⟩ := bind_eq_ok h
  cases h
  exact length_packValue _ _

/-- The values of a data directive take the directive's width each. -/
theorem length_emitValues {symbols : List (Text × Nat)} {width : Nat} {vs : List DataValue} {bs : List Byte}
    (h : emitValues symbols width vs = .ok bs) : bs.length = width * vs.length := by
  induction vs generalizing bs with
  | nil => cases h; rfl
  | cons v vs ih =>
    obtain ⟨b1, h1, h⟩ := bind_eq_ok h
    obtain ⟨b2, h2, h⟩ := bind_eq_ok h
    cases h
    rw [List.length_append, length_emitValue h1, ih h2, List.length_cons, Nat.mul_add, Nat.mul_one, Nat.add_comm]

end Sys2Proof.Machine
end

