-- ==== Sys2Proof/Laws/Decode.lean ====
section
/-! SUPPORT. The fields of a word laid out in each format, and the layouts of a word's own fields. -/

namespace Sys2Proof

/-! ### Fields of a layout -/

@[simp] theorem opcodeOf_packR (rs rt rd : RegName) (sa : BitVec 5) (f : BitVec 6) : opcodeOf (packR rs rt rd sa f) = 0 := by
  ext i hi
  simp only [opcodeOf, packR, BitVec.getElem_extractLsb', BitVec.getLsbD_append]
  rw [if_neg (by omega), if_neg (by omega), if_neg (by omega), if_neg (by omega), if_neg (by omega)]
  simp

@[simp] theorem rsOf_packR (rs rt rd : RegName) (sa : BitVec 5) (f : BitVec 6) : rsOf (packR rs rt rd sa f) = rs := by
  ext i hi
  simp only [rsOf, packR, BitVec.getElem_extractLsb', BitVec.getLsbD_append]
  rw [if_neg (by omega), if_neg (by omega), if_neg (by omega), if_neg (by omega), if_pos (by omega)]
  simp [← BitVec.getLsbD_eq_getElem, Nat.sub_sub]

@[simp] theorem rtOf_packR (rs rt rd : RegName) (sa : BitVec 5) (f : BitVec 6) : rtOf (packR rs rt rd sa f) = rt := by
  ext i hi
  simp only [rtOf, packR, BitVec.getElem_extractLsb', BitVec.getLsbD_append]
  rw [if_neg (by omega), if_neg (by omega), if_neg (by omega), if_pos (by omega)]
  simp [← BitVec.getLsbD_eq_getElem, Nat.sub_sub]

@[simp] theorem rdOf_packR (rs rt rd : RegName) (sa : BitVec 5) (f : BitVec 6) : rdOf (packR rs rt rd sa f) = rd := by
  ext i hi
  simp only [rdOf, packR, BitVec.getElem_extractLsb', BitVec.getLsbD_append]
  rw [if_neg (by omega), if_neg (by omega), if_pos (by omega)]
  simp [← BitVec.getLsbD_eq_getElem, Nat.sub_sub]

@[simp] theorem shamtOf_packR (rs rt rd : RegName) (sa : BitVec 5) (f : BitVec 6) : shamtOf (packR rs rt rd sa f) = sa := by
  ext i hi
  simp only [shamtOf, packR, BitVec.getElem_extractLsb', BitVec.getLsbD_append]
  rw [if_neg (by omega), if_pos (by omega)]
  simp [← BitVec.getLsbD_eq_getElem]

@[simp] theorem functOf_packR (rs rt rd : RegName) (sa : BitVec 5) (f : BitVec 6) : functOf (packR rs rt rd sa f) = f := by
  ext i hi
  simp only [functOf, packR, BitVec.getElem_extractLsb', BitVec.getLsbD_append]
  rw [if_pos (by omega)]
  simp [← BitVec.getLsbD_eq_getElem]

@[simp] theorem opcodeOf_packCode (code : BitVec 20) (f : BitVec 6) : opcodeOf (packCode code f) = 0 := by
  ext i hi
  simp only [opcodeOf, packCode, BitVec.getElem_extractLsb', BitVec.getLsbD_append]
  rw [if_neg (by omega), if_neg (by omega)]
  simp

@[simp] theorem codeOf_packCode (code : BitVec 20) (f : BitVec 6) : codeOf (packCode code f) = code := by
  ext i hi
  simp only [codeOf, packCode, BitVec.getElem_extractLsb', BitVec.getLsbD_append]
  rw [if_neg (by omega), if_pos (by omega)]
  simp [← BitVec.getLsbD_eq_getElem]

@[simp] theorem functOf_packCode (code : BitVec 20) (f : BitVec 6) : functOf (packCode code f) = f := by
  ext i hi
  simp only [functOf, packCode, BitVec.getElem_extractLsb', BitVec.getLsbD_append]
  rw [if_pos (by omega)]
  simp [← BitVec.getLsbD_eq_getElem]

@[simp] theorem opcodeOf_packI (op : BitVec 6) (rs rt : RegName) (imm : BitVec 16) : opcodeOf (packI op rs rt imm) = op := by
  ext i hi
  simp only [opcodeOf, packI, BitVec.getElem_extractLsb', BitVec.getLsbD_append]
  rw [if_neg (by omega), if_neg (by omega), if_neg (by omega)]
  simp [← BitVec.getLsbD_eq_getElem, Nat.sub_sub]

@[simp] theorem rsOf_packI (op : BitVec 6) (rs rt : RegName) (imm : BitVec 16) : rsOf (packI op rs rt imm) = rs := by
  ext i hi
  simp only [rsOf, packI, BitVec.getElem_extractLsb', BitVec.getLsbD_append]
  rw [if_neg (by omega), if_neg (by omega), if_pos (by omega)]
  simp [← BitVec.getLsbD_eq_getElem, Nat.sub_sub]

@[simp] theorem rtOf_packI (op : BitVec 6) (rs rt : RegName) (imm : BitVec 16) : rtOf (packI op rs rt imm) = rt := by
  ext i hi
  simp only [rtOf, packI, BitVec.getElem_extractLsb', BitVec.getLsbD_append]
  rw [if_neg (by omega), if_pos (by omega)]
  simp [← BitVec.getLsbD_eq_getElem]

@[simp] theorem immOf_packI (op : BitVec 6) (rs rt : RegName) (imm : BitVec 16) : immOf (packI op rs rt imm) = imm := by
  ext i hi
  simp only [immOf, packI, BitVec.getElem_extractLsb', BitVec.getLsbD_append]
  rw [if_pos (by omega)]
  simp [← BitVec.getLsbD_eq_getElem]

@[simp] theorem opcodeOf_packJ (op : BitVec 6) (target : BitVec 26) : opcodeOf (packJ op target) = op := by
  ext i hi
  simp only [opcodeOf, packJ, BitVec.getElem_extractLsb', BitVec.getLsbD_append]
  rw [if_neg (by omega)]
  simp [← BitVec.getLsbD_eq_getElem]

@[simp] theorem targetOf_packJ (op : BitVec 6) (target : BitVec 26) : targetOf (packJ op target) = target := by
  ext i hi
  simp only [targetOf, packJ, BitVec.getElem_extractLsb', BitVec.getLsbD_append]
  rw [if_pos (by omega)]
  simp [← BitVec.getLsbD_eq_getElem]

/-! ### The layout of a word's fields -/

theorem and_getLsbD_eq (w : Word) {i j : Nat} (h : j = i) (k : Prop) [Decidable k] (hk : k) :
    (decide k && w.getLsbD j) = w.getLsbD i := by simp [h, hk]

theorem packR_fields (w : Word) (h : opcodeOf w = 0) : packR (rsOf w) (rtOf w) (rdOf w) (shamtOf w) (functOf w) = w := by
  rw [packR, ← h]
  apply BitVec.eq_of_getLsbD_eq
  intro i hi
  simp only [opcodeOf, rsOf, rtOf, rdOf, shamtOf, functOf, BitVec.getLsbD_append, BitVec.getLsbD_extractLsb']
  split_ifs <;> exact and_getLsbD_eq w (by omega) _ (by omega)

theorem packCode_fields (w : Word) (h : opcodeOf w = 0) : packCode (codeOf w) (functOf w) = w := by
  rw [packCode, ← h]
  apply BitVec.eq_of_getLsbD_eq
  intro i hi
  simp only [opcodeOf, codeOf, functOf, BitVec.getLsbD_append, BitVec.getLsbD_extractLsb']
  split_ifs <;> exact and_getLsbD_eq w (by omega) _ (by omega)

theorem packI_fields (w : Word) : packI (opcodeOf w) (rsOf w) (rtOf w) (immOf w) = w := by
  apply BitVec.eq_of_getLsbD_eq
  intro i hi
  simp only [packI, opcodeOf, rsOf, rtOf, immOf, BitVec.getLsbD_append, BitVec.getLsbD_extractLsb']
  split_ifs <;> exact and_getLsbD_eq w (by omega) _ (by omega)

theorem packJ_fields (w : Word) : packJ (opcodeOf w) (targetOf w) = w := by
  apply BitVec.eq_of_getLsbD_eq
  intro i hi
  simp only [packJ, opcodeOf, targetOf, BitVec.getLsbD_append, BitVec.getLsbD_extractLsb']
  split_ifs <;> exact and_getLsbD_eq w (by omega) _ (by omega)

end Sys2Proof
end

