-- ==== Sys2Proof/Laws/State.lean ====
section
/-! SUPPORT. What each named update of a state does to each field, so that no later proof unfolds a record update. -/

namespace Sys2Proof.Machine

/-! ### `raise` -/

@[simp] theorem raise_regs (e : ExceptionKind) (s : State) : (raise e s).regs = s.regs := rfl
@[simp] theorem raise_pc (e : ExceptionKind) (s : State) : (raise e s).pc = s.pc := rfl
@[simp] theorem raise_cycle (e : ExceptionKind) (s : State) : (raise e s).cycle = s.cycle := rfl
@[simp] theorem raise_halted (e : ExceptionKind) (s : State) : (raise e s).halted = s.halted := rfl
@[simp] theorem raise_branchTarget (e : ExceptionKind) (s : State) : (raise e s).branchTarget = s.branchTarget := rfl
@[simp] theorem raise_mem (e : ExceptionKind) (s : State) : (raise e s).mem = s.mem := rfl
@[simp] theorem raise_pages (e : ExceptionKind) (s : State) : (raise e s).pages = s.pages := rfl
@[simp] theorem raise_mask (e : ExceptionKind) (s : State) : (raise e s).mask = s.mask ||| e.bit := rfl
@[simp] theorem raise_stopRequest (e : ExceptionKind) (s : State) : (raise e s).stopRequest = s.stopRequest := rfl

/-! ### `setStop` -/

@[simp] theorem setStop_regs (b : Bool) (s : State) : (setStop b s).regs = s.regs := rfl
@[simp] theorem setStop_pc (b : Bool) (s : State) : (setStop b s).pc = s.pc := rfl
@[simp] theorem setStop_cycle (b : Bool) (s : State) : (setStop b s).cycle = s.cycle := rfl
@[simp] theorem setStop_halted (b : Bool) (s : State) : (setStop b s).halted = s.halted := rfl
@[simp] theorem setStop_branchTarget (b : Bool) (s : State) : (setStop b s).branchTarget = s.branchTarget := rfl
@[simp] theorem setStop_mem (b : Bool) (s : State) : (setStop b s).mem = s.mem := rfl
@[simp] theorem setStop_pages (b : Bool) (s : State) : (setStop b s).pages = s.pages := rfl
@[simp] theorem setStop_mask (b : Bool) (s : State) : (setStop b s).mask = s.mask := rfl
@[simp] theorem setStop_stopRequest (b : Bool) (s : State) : (setStop b s).stopRequest = b := rfl
@[simp] theorem setStop_setStop (a b : Bool) (s : State) : setStop a (setStop b s) = setStop a s := rfl

/-! ### `clearZero` -/

@[simp] theorem clearZero_regs (s : State) : (clearZero s).regs = s.regs.set 0 0 := rfl
@[simp] theorem clearZero_pc (s : State) : (clearZero s).pc = s.pc := rfl
@[simp] theorem clearZero_cycle (s : State) : (clearZero s).cycle = s.cycle := rfl
@[simp] theorem clearZero_halted (s : State) : (clearZero s).halted = s.halted := rfl
@[simp] theorem clearZero_branchTarget (s : State) : (clearZero s).branchTarget = s.branchTarget := rfl
@[simp] theorem clearZero_mem (s : State) : (clearZero s).mem = s.mem := rfl
@[simp] theorem clearZero_pages (s : State) : (clearZero s).pages = s.pages := rfl
@[simp] theorem clearZero_mask (s : State) : (clearZero s).mask = s.mask := rfl
@[simp] theorem clearZero_stopRequest (s : State) : (clearZero s).stopRequest = s.stopRequest := rfl

/-! ### `exitStep` -/

@[simp] theorem exitStep_regs (s : State) : (exitStep s).regs = s.regs.set 0 0 := rfl
@[simp] theorem exitStep_pc (s : State) : (exitStep s).pc = s.pc := rfl
@[simp] theorem exitStep_cycle (s : State) : (exitStep s).cycle = s.cycle + 1 := rfl
@[simp] theorem exitStep_halted (s : State) : (exitStep s).halted = s.halted := rfl
@[simp] theorem exitStep_branchTarget (s : State) : (exitStep s).branchTarget = s.branchTarget := rfl
@[simp] theorem exitStep_mem (s : State) : (exitStep s).mem = s.mem := rfl
@[simp] theorem exitStep_pages (s : State) : (exitStep s).pages = s.pages := rfl
@[simp] theorem exitStep_mask (s : State) : (exitStep s).mask = s.mask := rfl
@[simp] theorem exitStep_stopRequest (s : State) : (exitStep s).stopRequest = s.stopRequest := rfl

/-! ### `putByte` -/

@[simp] theorem putByte_regs (a : Word) (b : Byte) (s : State) : (putByte a b s).regs = s.regs := rfl
@[simp] theorem putByte_pc (a : Word) (b : Byte) (s : State) : (putByte a b s).pc = s.pc := rfl
@[simp] theorem putByte_cycle (a : Word) (b : Byte) (s : State) : (putByte a b s).cycle = s.cycle := rfl
@[simp] theorem putByte_halted (a : Word) (b : Byte) (s : State) : (putByte a b s).halted = s.halted := rfl
@[simp] theorem putByte_branchTarget (a : Word) (b : Byte) (s : State) : (putByte a b s).branchTarget = s.branchTarget := rfl
@[simp] theorem putByte_mem (a : Word) (b : Byte) (s : State) : (putByte a b s).mem = memWrite s.mem a.toNat b := rfl
@[simp] theorem putByte_pages (a : Word) (b : Byte) (s : State) : (putByte a b s).pages = insertPage (pageOf a) s.pages := rfl
@[simp] theorem putByte_mask (a : Word) (b : Byte) (s : State) : (putByte a b s).mask = s.mask := rfl
@[simp] theorem putByte_stopRequest (a : Word) (b : Byte) (s : State) : (putByte a b s).stopRequest = s.stopRequest := rfl

/-! ### `raiseIf` -/

@[simp] theorem raiseIf_regs (c : Bool) (e : ExceptionKind) (s : State) : (raiseIf c e s).regs = s.regs := by
  cases c <;> rfl
@[simp] theorem raiseIf_pc (c : Bool) (e : ExceptionKind) (s : State) : (raiseIf c e s).pc = s.pc := by
  cases c <;> rfl
@[simp] theorem raiseIf_cycle (c : Bool) (e : ExceptionKind) (s : State) : (raiseIf c e s).cycle = s.cycle := by
  cases c <;> rfl
@[simp] theorem raiseIf_halted (c : Bool) (e : ExceptionKind) (s : State) : (raiseIf c e s).halted = s.halted := by
  cases c <;> rfl
@[simp] theorem raiseIf_branchTarget (c : Bool) (e : ExceptionKind) (s : State) : (raiseIf c e s).branchTarget = s.branchTarget := by
  cases c <;> rfl
@[simp] theorem raiseIf_mem (c : Bool) (e : ExceptionKind) (s : State) : (raiseIf c e s).mem = s.mem := by
  cases c <;> rfl
@[simp] theorem raiseIf_pages (c : Bool) (e : ExceptionKind) (s : State) : (raiseIf c e s).pages = s.pages := by
  cases c <;> rfl
@[simp] theorem raiseIf_mask (c : Bool) (e : ExceptionKind) (s : State) :
    (raiseIf c e s).mask = s.mask ||| (if c then e.bit else 0) := by
  cases c <;> simp [raiseIf]
@[simp] theorem raiseIf_stopRequest (c : Bool) (e : ExceptionKind) (s : State) : (raiseIf c e s).stopRequest = s.stopRequest := by
  cases c <;> rfl

/-! ### `writeReg` -/

@[simp] theorem writeReg_pc (r : RegName) (v : Word) (s : State) : (writeReg r v s).pc = s.pc := by
  unfold writeReg; split <;> rfl
@[simp] theorem writeReg_cycle (r : RegName) (v : Word) (s : State) : (writeReg r v s).cycle = s.cycle := by
  unfold writeReg; split <;> rfl
@[simp] theorem writeReg_halted (r : RegName) (v : Word) (s : State) : (writeReg r v s).halted = s.halted := by
  unfold writeReg; split <;> rfl
@[simp] theorem writeReg_branchTarget (r : RegName) (v : Word) (s : State) : (writeReg r v s).branchTarget = s.branchTarget := by
  unfold writeReg; split <;> rfl
@[simp] theorem writeReg_mem (r : RegName) (v : Word) (s : State) : (writeReg r v s).mem = s.mem := by
  unfold writeReg; split <;> rfl
@[simp] theorem writeReg_pages (r : RegName) (v : Word) (s : State) : (writeReg r v s).pages = s.pages := by
  unfold writeReg; split <;> rfl
@[simp] theorem writeReg_mask (r : RegName) (v : Word) (s : State) : (writeReg r v s).mask = s.mask := by
  unfold writeReg; split <;> rfl
@[simp] theorem writeReg_stopRequest (r : RegName) (v : Word) (s : State) : (writeReg r v s).stopRequest = s.stopRequest := by
  unfold writeReg; split <;> rfl

/-! ### `touch` and the stores -/

@[simp] theorem touch_regs (a : Word) (n : Nat) (s : State) : (touch a n s).regs = s.regs := by
  induction n generalizing a s with
  | zero => rfl
  | succ n ih => simp [touch, ih]
@[simp] theorem touch_pc (a : Word) (n : Nat) (s : State) : (touch a n s).pc = s.pc := by
  induction n generalizing a s with
  | zero => rfl
  | succ n ih => simp [touch, ih]
@[simp] theorem touch_cycle (a : Word) (n : Nat) (s : State) : (touch a n s).cycle = s.cycle := by
  induction n generalizing a s with
  | zero => rfl
  | succ n ih => simp [touch, ih]
@[simp] theorem touch_halted (a : Word) (n : Nat) (s : State) : (touch a n s).halted = s.halted := by
  induction n generalizing a s with
  | zero => rfl
  | succ n ih => simp [touch, ih]
@[simp] theorem touch_branchTarget (a : Word) (n : Nat) (s : State) : (touch a n s).branchTarget = s.branchTarget := by
  induction n generalizing a s with
  | zero => rfl
  | succ n ih => simp [touch, ih]
@[simp] theorem touch_mem (a : Word) (n : Nat) (s : State) : (touch a n s).mem = s.mem := by
  induction n generalizing a s with
  | zero => rfl
  | succ n ih => simp [touch, ih]
@[simp] theorem touch_mask (a : Word) (n : Nat) (s : State) : (touch a n s).mask = s.mask := by
  induction n generalizing a s with
  | zero => rfl
  | succ n ih => simp [touch, ih]
@[simp] theorem touch_stopRequest (a : Word) (n : Nat) (s : State) : (touch a n s).stopRequest = s.stopRequest := by
  induction n generalizing a s with
  | zero => rfl
  | succ n ih => simp [touch, ih]
@[simp] theorem putBytes_regs (a : Word) (bs : List Byte) (s : State) : (putBytes a bs s).regs = s.regs := by
  induction bs generalizing a s with
  | nil => rfl
  | cons b bs ih => simp [putBytes, ih]
@[simp] theorem putBytes_pc (a : Word) (bs : List Byte) (s : State) : (putBytes a bs s).pc = s.pc := by
  induction bs generalizing a s with
  | nil => rfl
  | cons b bs ih => simp [putBytes, ih]
@[simp] theorem putBytes_cycle (a : Word) (bs : List Byte) (s : State) : (putBytes a bs s).cycle = s.cycle := by
  induction bs generalizing a s with
  | nil => rfl
  | cons b bs ih => simp [putBytes, ih]
@[simp] theorem putBytes_halted (a : Word) (bs : List Byte) (s : State) : (putBytes a bs s).halted = s.halted := by
  induction bs generalizing a s with
  | nil => rfl
  | cons b bs ih => simp [putBytes, ih]
@[simp] theorem putBytes_branchTarget (a : Word) (bs : List Byte) (s : State) : (putBytes a bs s).branchTarget = s.branchTarget := by
  induction bs generalizing a s with
  | nil => rfl
  | cons b bs ih => simp [putBytes, ih]
@[simp] theorem putBytes_mask (a : Word) (bs : List Byte) (s : State) : (putBytes a bs s).mask = s.mask := by
  induction bs generalizing a s with
  | nil => rfl
  | cons b bs ih => simp [putBytes, ih]
@[simp] theorem putBytes_stopRequest (a : Word) (bs : List Byte) (s : State) : (putBytes a bs s).stopRequest = s.stopRequest := by
  induction bs generalizing a s with
  | nil => rfl
  | cons b bs ih => simp [putBytes, ih]
@[simp] theorem setByte_regs (a v : Word) (s : State) : (setByte a v s).regs = s.regs := by
  simp [setByte]
@[simp] theorem setByte_pc (a v : Word) (s : State) : (setByte a v s).pc = s.pc := by
  simp [setByte]
@[simp] theorem setByte_cycle (a v : Word) (s : State) : (setByte a v s).cycle = s.cycle := by
  simp [setByte]
@[simp] theorem setByte_halted (a v : Word) (s : State) : (setByte a v s).halted = s.halted := by
  simp [setByte]
@[simp] theorem setByte_branchTarget (a v : Word) (s : State) : (setByte a v s).branchTarget = s.branchTarget := by
  simp [setByte]
@[simp] theorem setByte_mask (a v : Word) (s : State) : (setByte a v s).mask = s.mask := by
  simp [setByte]
@[simp] theorem setByte_stopRequest (a v : Word) (s : State) : (setByte a v s).stopRequest = s.stopRequest := by
  simp [setByte]
@[simp] theorem setHalf_regs (a v : Word) (s : State) : (setHalf a v s).regs = s.regs := by
  simp [setHalf]
@[simp] theorem setHalf_pc (a v : Word) (s : State) : (setHalf a v s).pc = s.pc := by
  simp [setHalf]
@[simp] theorem setHalf_cycle (a v : Word) (s : State) : (setHalf a v s).cycle = s.cycle := by
  simp [setHalf]
@[simp] theorem setHalf_halted (a v : Word) (s : State) : (setHalf a v s).halted = s.halted := by
  simp [setHalf]
@[simp] theorem setHalf_branchTarget (a v : Word) (s : State) : (setHalf a v s).branchTarget = s.branchTarget := by
  simp [setHalf]
@[simp] theorem setHalf_mask (a v : Word) (s : State) : (setHalf a v s).mask = s.mask := by
  simp [setHalf]
@[simp] theorem setHalf_stopRequest (a v : Word) (s : State) : (setHalf a v s).stopRequest = s.stopRequest := by
  simp [setHalf]
@[simp] theorem setWord_regs (a v : Word) (s : State) : (setWord a v s).regs = s.regs := by
  simp [setWord]
@[simp] theorem setWord_pc (a v : Word) (s : State) : (setWord a v s).pc = s.pc := by
  simp [setWord]
@[simp] theorem setWord_cycle (a v : Word) (s : State) : (setWord a v s).cycle = s.cycle := by
  simp [setWord]
@[simp] theorem setWord_halted (a v : Word) (s : State) : (setWord a v s).halted = s.halted := by
  simp [setWord]
@[simp] theorem setWord_branchTarget (a v : Word) (s : State) : (setWord a v s).branchTarget = s.branchTarget := by
  simp [setWord]
@[simp] theorem setWord_mask (a v : Word) (s : State) : (setWord a v s).mask = s.mask := by
  simp [setWord]
@[simp] theorem setWord_stopRequest (a v : Word) (s : State) : (setWord a v s).stopRequest = s.stopRequest := by
  simp [setWord]
@[simp] theorem putWords_regs (a : Word) (ws : List Word) (s : State) : (putWords a ws s).regs = s.regs := by
  induction ws generalizing a s with
  | nil => rfl
  | cons w ws ih => simp [putWords, ih]
@[simp] theorem putWords_pc (a : Word) (ws : List Word) (s : State) : (putWords a ws s).pc = s.pc := by
  induction ws generalizing a s with
  | nil => rfl
  | cons w ws ih => simp [putWords, ih]
@[simp] theorem putWords_cycle (a : Word) (ws : List Word) (s : State) : (putWords a ws s).cycle = s.cycle := by
  induction ws generalizing a s with
  | nil => rfl
  | cons w ws ih => simp [putWords, ih]
@[simp] theorem putWords_halted (a : Word) (ws : List Word) (s : State) : (putWords a ws s).halted = s.halted := by
  induction ws generalizing a s with
  | nil => rfl
  | cons w ws ih => simp [putWords, ih]
@[simp] theorem putWords_branchTarget (a : Word) (ws : List Word) (s : State) : (putWords a ws s).branchTarget = s.branchTarget := by
  induction ws generalizing a s with
  | nil => rfl
  | cons w ws ih => simp [putWords, ih]
@[simp] theorem putWords_mask (a : Word) (ws : List Word) (s : State) : (putWords a ws s).mask = s.mask := by
  induction ws generalizing a s with
  | nil => rfl
  | cons w ws ih => simp [putWords, ih]
@[simp] theorem putWords_stopRequest (a : Word) (ws : List Word) (s : State) : (putWords a ws s).stopRequest = s.stopRequest := by
  induction ws generalizing a s with
  | nil => rfl
  | cons w ws ih => simp [putWords, ih]

/-! ### `sequencer` and `retire` -/

@[simp] theorem sequencer_regs (t : Word) (s : State) : (sequencer t s).regs = s.regs := by
  unfold sequencer; split <;> rfl
theorem sequencer_pc (t : Word) (s : State) : (sequencer t s).pc = if t &&& 3 = 0 then t else roundUp t := by
  unfold sequencer; split <;> rfl
@[simp] theorem sequencer_cycle (t : Word) (s : State) : (sequencer t s).cycle = s.cycle := by
  unfold sequencer; split <;> rfl
@[simp] theorem sequencer_halted (t : Word) (s : State) : (sequencer t s).halted = s.halted := by
  unfold sequencer; split <;> rfl
@[simp] theorem sequencer_branchTarget (t : Word) (s : State) : (sequencer t s).branchTarget = s.branchTarget := by
  unfold sequencer; split <;> rfl
@[simp] theorem sequencer_mem (t : Word) (s : State) : (sequencer t s).mem = s.mem := by
  unfold sequencer; split <;> rfl
@[simp] theorem sequencer_pages (t : Word) (s : State) : (sequencer t s).pages = s.pages := by
  unfold sequencer; split <;> rfl
theorem sequencer_mask (t : Word) (s : State) :
    (sequencer t s).mask = if t &&& 3 = 0 then s.mask else s.mask ||| 4 := by
  unfold sequencer; split <;> rfl
@[simp] theorem sequencer_stopRequest (t : Word) (s : State) : (sequencer t s).stopRequest = s.stopRequest := by
  unfold sequencer; split <;> rfl

@[simp] theorem retire_regs (t : Word) (s : State) : (retire t s).regs = s.regs.set 0 0 := by
  simp [retire]
@[simp] theorem retire_pc (t : Word) (s : State) : (retire t s).pc = (sequencer t s).pc := by
  simp [retire]
@[simp] theorem retire_cycle (t : Word) (s : State) : (retire t s).cycle = s.cycle + 1 := by
  simp [retire]
@[simp] theorem retire_halted (t : Word) (s : State) : (retire t s).halted = s.halted := by
  simp [retire]
@[simp] theorem retire_branchTarget (t : Word) (s : State) : (retire t s).branchTarget = s.branchTarget := by
  simp [retire]
@[simp] theorem retire_mem (t : Word) (s : State) : (retire t s).mem = s.mem := by
  simp [retire]
@[simp] theorem retire_pages (t : Word) (s : State) : (retire t s).pages = s.pages := by
  simp [retire]
@[simp] theorem retire_mask (t : Word) (s : State) : (retire t s).mask = (sequencer t s).mask := by
  simp [retire]
@[simp] theorem retire_stopRequest (t : Word) (s : State) : (retire t s).stopRequest = s.stopRequest := by
  simp [retire]

/-! ### `enterStep` -/

@[simp] theorem enterStep_regs (s : State) : (enterStep s).regs = s.regs.set 0 0 := by
  simp [enterStep]
@[simp] theorem enterStep_pc (s : State) : (enterStep s).pc = s.pc := by
  simp [enterStep]
@[simp] theorem enterStep_cycle (s : State) : (enterStep s).cycle = s.cycle := by
  simp [enterStep]
@[simp] theorem enterStep_halted (s : State) : (enterStep s).halted = s.halted := by
  simp [enterStep]
@[simp] theorem enterStep_branchTarget (s : State) : (enterStep s).branchTarget = s.branchTarget := by
  simp [enterStep]
@[simp] theorem enterStep_mem (s : State) : (enterStep s).mem = s.mem := by
  simp [enterStep]
@[simp] theorem enterStep_mask (s : State) : (enterStep s).mask = 0 := by
  simp [enterStep]
@[simp] theorem enterStep_stopRequest (s : State) : (enterStep s).stopRequest = s.stopRequest := by
  simp [enterStep]

end Sys2Proof.Machine
end

