-- ==== Sys2Proof/Laws/Memory.lean ====
section
/-! SUPPORT. The laws of the memory: a read after a write, the canonical forms of the byte list and the page set, and
what the primitives do to bytes and pages. -/

namespace Sys2Proof.Machine

/-! ### The byte list -/

theorem memRead_filter (m : List Host.Cell) (a b : Nat) :
    memRead (m.filter (fun c => c.1 != a)) b = if b = a then 0 else memRead m b := by
  induction m with
  | nil => simp [memRead]
  | cons c m ih =>
    obtain ⟨k, v⟩ := c
    by_cases hk : k = a
    · subst hk
      rw [List.filter_cons_of_neg (by simp), ih]
      by_cases hb : b = k
      · simp [hb]
      · have : k ≠ b := fun h => hb h.symm
        simp [hb, memRead, this]
    · by_cases hb : k = b
      · subst hb
        simp [hk, memRead]
      · simp [hk, memRead, hb, ih]

theorem memRead_insertCell (a : Nat) (v : Byte) (m : List Host.Cell) (b : Nat)
    (fresh : ∀ c ∈ m, c.1 ≠ a) :
    memRead (insertCell a v m) b = if b = a then v else memRead m b := by
  induction m with
  | nil => by_cases h : a = b <;> simp [insertCell, memRead, h, eq_comm]
  | cons c m ih =>
    obtain ⟨k, u⟩ := c
    have hk : k ≠ a := fresh (k, u) (by simp)
    have ih := ih (fun c hc => fresh c (by simp [hc]))
    unfold insertCell
    split
    · by_cases h : a = b <;> simp [memRead, h, eq_comm]
    · by_cases h : k = b
      · subst h; simp [memRead, hk]
      · simp [memRead, h, ih]

/-- A read after a write: the byte written at its address, every other address as before. -/
theorem memRead_memWrite (m : List Host.Cell) (a : Nat) (v : Byte) (b : Nat) :
    memRead (memWrite m a v) b = if b = a then v else memRead m b := by
  unfold memWrite
  split
  · next h => simp [memRead_filter, h]
  · rw [memRead_insertCell]
    · simp only [memRead_filter]; split <;> rfl
    · intro c hc
      simpa using (List.mem_filter.mp hc).2

theorem memWfFrom_mono {lo lo' : Nat} (h : lo' ≤ lo) {m : List Host.Cell} (hm : memWfFrom lo m = true) :
    memWfFrom lo' m = true := by
  cases m with
  | nil => rfl
  | cons c m =>
    obtain ⟨k, v⟩ := c
    simp only [memWfFrom, Bool.and_eq_true, decide_eq_true_eq] at hm ⊢
    exact ⟨⟨⟨by omega, hm.1.1.2⟩, hm.1.2⟩, hm.2⟩

theorem memWfFrom_filter {lo : Nat} {m : List Host.Cell} (a : Nat) (hm : memWfFrom lo m = true) :
    memWfFrom lo (m.filter (fun c => c.1 != a)) = true := by
  induction m generalizing lo with
  | nil => rfl
  | cons c m ih =>
    obtain ⟨k, v⟩ := c
    simp only [memWfFrom, Bool.and_eq_true, decide_eq_true_eq] at hm
    obtain ⟨⟨⟨h1, h2⟩, h3⟩, h4⟩ := hm
    by_cases hk : k = a
    · simpa [hk] using memWfFrom_mono (by omega) (ih h4)
    · rw [List.filter_cons_of_pos (by simpa using hk)]
      simp only [memWfFrom, Bool.and_eq_true, decide_eq_true_eq]
      exact ⟨⟨⟨h1, h2⟩, h3⟩, ih h4⟩

theorem memWfFrom_insertCell {lo a : Nat} {v : Byte} {m : List Host.Cell} (hm : memWfFrom lo m = true)
    (hlo : lo ≤ a) (ha : a < 2 ^ 32) (hv : v ≠ 0) (fresh : ∀ c ∈ m, c.1 ≠ a) :
    memWfFrom lo (insertCell a v m) = true := by
  induction m generalizing lo with
  | nil => simp [insertCell, memWfFrom, hlo]; exact ⟨by omega, by simpa using hv⟩
  | cons c m ih =>
    obtain ⟨k, u⟩ := c
    have hk : k ≠ a := fresh (k, u) (by simp)
    simp only [memWfFrom, Bool.and_eq_true, decide_eq_true_eq] at hm
    obtain ⟨⟨⟨h1, h2⟩, h3⟩, h4⟩ := hm
    unfold insertCell
    split
    · next h =>
      simp only [memWfFrom, Bool.and_eq_true, decide_eq_true_eq]
      exact ⟨⟨⟨hlo, ha⟩, by simpa using hv⟩, ⟨⟨by omega, h2⟩, h3⟩, h4⟩
    · simp only [memWfFrom, Bool.and_eq_true, decide_eq_true_eq]
      exact ⟨⟨⟨h1, h2⟩, h3⟩, ih h4 (by omega) (fun c hc => fresh c (by simp [hc]))⟩

/-- Writing a byte keeps the canonical form. -/
theorem memWrite_wf {m : List Host.Cell} {a : Nat} {v : Byte} (ha : a < 2 ^ 32) (hm : Memory.wf m = true) :
    Memory.wf (memWrite m a v) = true := by
  unfold memWrite
  split
  · exact memWfFrom_filter a hm
  · next hv =>
    refine memWfFrom_insertCell (memWfFrom_filter a hm) (Nat.zero_le a) ha hv ?_
    intro c hc
    simpa using (List.mem_filter.mp hc).2

/-! ### The page set -/

@[simp] theorem mem_insertPage (p q : PageIndex) (ps : List PageIndex) :
    q ∈ insertPage p ps ↔ q = p ∨ q ∈ ps := by
  induction ps with
  | nil => simp [insertPage]
  | cons r ps ih =>
    unfold insertPage
    split
    · simp
    · split
      · next h => subst h; simp
      · simp only [List.mem_cons, ih]; tauto

theorem pagesWfFrom_insertPage {lo : Nat} {p : PageIndex} {ps : List PageIndex} (hlo : lo ≤ p.toNat)
    (hps : pagesWfFrom lo ps = true) : pagesWfFrom lo (insertPage p ps) = true := by
  induction ps generalizing lo with
  | nil => simp [insertPage, pagesWfFrom, hlo]
  | cons q ps ih =>
    simp only [pagesWfFrom, Bool.and_eq_true, decide_eq_true_eq] at hps
    unfold insertPage
    split
    · next h =>
      have : p.toNat < q.toNat := BitVec.lt_def.mp h
      simp only [pagesWfFrom, Bool.and_eq_true, decide_eq_true_eq]
      exact ⟨hlo, by omega, hps.2⟩
    · next h =>
      split
      · simpa only [pagesWfFrom, Bool.and_eq_true, decide_eq_true_eq] using hps
      · next h' =>
        have hn : p.toNat ≠ q.toNat := fun e => h' (BitVec.eq_of_toNat_eq e)
        have hl : ¬ p.toNat < q.toNat := fun e => h (BitVec.lt_def.mpr e)
        simp only [pagesWfFrom, Bool.and_eq_true, decide_eq_true_eq]
        exact ⟨hps.1, ih (by omega) hps.2⟩

/-- Allocating a page keeps the canonical form. -/
theorem insertPage_wf {p : PageIndex} {ps : List PageIndex} (h : Pages.wf ps = true) :
    Pages.wf (insertPage p ps) = true := pagesWfFrom_insertPage (Nat.zero_le _) h

theorem add_ofNat_succ (a : Word) (k : Nat) : a + 1 + BitVec.ofNat 32 k = a + BitVec.ofNat 32 (k + 1) := by
  have h1 : (1 : Word).toNat = 1 := rfl
  apply BitVec.eq_of_toNat_eq
  simp only [BitVec.toNat_add, BitVec.toNat_ofNat, h1]
  omega

/-- What a read of `n` bytes allocates. -/
theorem mem_touch_pages (a : Word) (n : Nat) (s : State) (p : PageIndex) :
    p ∈ (touch a n s).pages ↔ (∃ k : Nat, k < n ∧ p = pageOf (a + BitVec.ofNat 32 k)) ∨ p ∈ s.pages := by
  induction n generalizing a s with
  | zero => simp [touch]
  | succ n ih =>
    simp only [touch, ih, mem_insertPage, add_ofNat_succ]
    constructor
    · rintro (⟨k, hk, rfl⟩ | rfl | h)
      · exact .inl ⟨k + 1, by omega, rfl⟩
      · exact .inl ⟨0, by omega, by simp⟩
      · exact .inr h
    · rintro (⟨k, hk, rfl⟩ | h)
      · cases k with
        | zero => exact .inr (.inl (by simp))
        | succ k => exact .inl ⟨k, by omega, rfl⟩
      · exact .inr (.inr h)

/-- Reading keeps the page set's canonical form. -/
theorem touch_pages_wf (a : Word) (n : Nat) (s : State) (h : Pages.wf s.pages = true) :
    Pages.wf (touch a n s).pages = true := by
  induction n generalizing a s with
  | zero => exact h
  | succ n ih => exact ih (a + 1) _ (insertPage_wf h)

/-! ### Bytes after the primitives -/

theorem toNat_inj_iff (a b : Word) : a.toNat = b.toNat ↔ a = b :=
  ⟨BitVec.eq_of_toNat_eq, fun h => by rw [h]⟩

/-- Bytes depend on the memory alone. -/
theorem byteAt_congr {s t : State} (h : t.mem = s.mem) (a : Word) : byteAt t a = byteAt s a := by
  simp [byteAt, h]

@[simp] theorem byteAt_touch (b : Word) (n : Nat) (s : State) (a : Word) : byteAt (touch b n s) a = byteAt s a :=
  byteAt_congr (by simp) a

/-- A byte after one byte is stored. -/
theorem byteAt_putByte (a b : Word) (v : Byte) (s : State) :
    byteAt (putByte a v s) b = if b = a then v else byteAt s b := by
  simp only [byteAt, putByte_mem, memRead_memWrite, toNat_inj_iff]

/-- Every byte outside the stored ones is as before. -/
theorem byteAt_putBytes_outside (a : Word) (bs : List Byte) (s : State) (b : Word)
    (h : bs.length ≤ (b - a).toNat) : byteAt (putBytes a bs s) b = byteAt s b := by
  induction bs generalizing a s with
  | nil => rfl
  | cons v bs ih =>
    simp only [List.length_cons] at h
    have hne : b ≠ a := by
      rintro rfl
      simp at h
    have hlt := (b - a).isLt
    have hstep : (b - (a + 1)).toNat = (b - a).toNat - 1 := by
      rw [show b - (a + 1) = (b - a) - 1 by ring, BitVec.toNat_sub]
      have h1 : (1 : Word).toNat = 1 := rfl
      rw [h1]
      omega
    rw [putBytes, ih (a + 1) _ (by omega), byteAt_putByte, if_neg hne]

/-- A stored byte, where the stored bytes do not wrap onto themselves. -/
theorem byteAt_putBytes_inside (a : Word) (bs : List Byte) (s : State) (k : Nat) (hk : k < bs.length)
    (hlen : bs.length ≤ 2 ^ 32) : byteAt (putBytes a bs s) (a + BitVec.ofNat 32 k) = bs[k] := by
  induction bs generalizing a s k with
  | nil => simp at hk
  | cons v bs ih =>
    simp only [List.length_cons] at hk hlen
    cases k with
    | zero =>
      rw [putBytes, byteAt_putBytes_outside]
      · simp [byteAt_putByte]
      · rw [show a + BitVec.ofNat 32 0 - (a + 1) = -1 by simp]
        have : (-1 : Word).toNat = 2 ^ 32 - 1 := rfl
        omega
    | succ k =>
      rw [putBytes, ← add_ofNat_succ, ih (a + 1) _ k (by omega) (by omega)]
      simp

/-- What storing bytes allocates: what reading them would. -/
theorem mem_putBytes_pages (a : Word) (bs : List Byte) (s : State) (p : PageIndex) :
    p ∈ (putBytes a bs s).pages ↔
      (∃ k : Nat, k < bs.length ∧ p = pageOf (a + BitVec.ofNat 32 k)) ∨ p ∈ s.pages := by
  induction bs generalizing a s with
  | nil => simp [putBytes]
  | cons v bs ih =>
    simp only [putBytes, ih, putByte_pages, mem_insertPage, add_ofNat_succ, List.length_cons]
    constructor
    · rintro (⟨k, hk, rfl⟩ | rfl | h)
      · exact .inl ⟨k + 1, by omega, rfl⟩
      · exact .inl ⟨0, by omega, by simp⟩
      · exact .inr h
    · rintro (⟨k, hk, rfl⟩ | h)
      · cases k with
        | zero => exact .inr (.inl (by simp))
        | succ k => exact .inl ⟨k, by omega, rfl⟩
      · exact .inr (.inr h)

/-! ### The store keeps its form -/

/-- Storing a byte keeps both canonical forms and the link between them. -/
theorem putByte_storeOk (a : Word) (v : Byte) {s : State} (h : StoreOk s) : StoreOk (putByte a v s) := by
  refine ⟨memWrite_wf a.isLt h.1, insertPage_wf h.2.1, fun b hb => ?_⟩
  rw [byteAt_putByte] at hb
  rw [putByte_pages, mem_insertPage]
  split at hb
  · next e => exact .inl (by rw [e])
  · exact .inr (h.2.2 b hb)

theorem putBytes_storeOk (a : Word) (bs : List Byte) {s : State} (h : StoreOk s) : StoreOk (putBytes a bs s) := by
  induction bs generalizing a s with
  | nil => exact h
  | cons v bs ih => exact ih (a + 1) (putByte_storeOk a v h)

theorem putWords_storeOk (a : Word) (ws : List Word) {s : State} (h : StoreOk s) : StoreOk (putWords a ws s) := by
  induction ws generalizing a s with
  | nil => exact h
  | cons w ws ih => exact ih (a + 4) (putBytes_storeOk a _ h)

theorem touch_storeOk (a : Word) (n : Nat) {s : State} (h : StoreOk s) : StoreOk (touch a n s) := by
  refine ⟨by simpa using h.1, touch_pages_wf a n s h.2.1, fun b hb => ?_⟩
  rw [byteAt_touch] at hb
  exact (mem_touch_pages a n s _).mpr (.inr (h.2.2 b hb))

/-- The form depends on the bytes and the pages alone. -/
theorem storeOk_congr {s t : State} (hm : t.mem = s.mem) (hp : t.pages = s.pages) (h : StoreOk s) : StoreOk t := by
  refine ⟨by rw [hm]; exact h.1, by rw [hp]; exact h.2.1, fun a ha => ?_⟩
  rw [hp]
  exact h.2.2 a (by rwa [byteAt_congr hm] at ha)

end Sys2Proof.Machine
end

