-- ==== Sys2Proof/Laws/Ops.lean ====
section
/-! SUPPORT. What each shared operation can do, said once: registers, the PC sequencer, the ends of an instruction, loads and
stores, the entry of a step. -/

namespace Sys2Proof.Machine

/-! ### Registers -/

@[simp] theorem readReg_zero (s : State) : readReg s 0#5 = 0#32 := by simp [readReg]

/-- A register's value depends on the register file alone. -/
theorem readReg_congr {s t : State} (h : t.regs = s.regs) (r : RegName) : readReg t r = readReg s r := by
  simp only [readReg, h]

/-- Clearing register 0 changes no register's value. -/
theorem readReg_of_cleared {s t : State} (h : t.regs = s.regs.set 0 0) (r : RegName) : readReg t r = readReg s r := by
  simp only [readReg]
  split
  · rfl
  · next hr =>
    have hn : (0 : Nat) ≠ r.toNat := fun e => hr (BitVec.eq_of_toNat_eq (by simpa using e.symm))
    simp only [h, Vector.getElem_set_ne _ _ hn]

/-- A register after a write (spec/00_scope.md R11). -/
theorem readReg_writeReg (d : RegName) (v : Word) (s : State) (r : RegName) :
    readReg (writeReg d v s) r = if r = d then (if d = 0 then 0 else v) else readReg s r := by
  by_cases hr : r = d
  · subst hr
    rw [if_pos rfl]
    by_cases hd : r = 0
    · subst hd; rw [if_pos rfl]; exact readReg_zero _
    · rw [readReg, writeReg, if_neg hd, if_neg hd, if_neg hd]
      exact Vector.getElem_set_self _
  · rw [if_neg hr]
    by_cases hd : d = 0
    · rw [writeReg, if_pos hd]
    · have hn : d.toNat ≠ r.toNat := fun e => hr (BitVec.eq_of_toNat_eq e).symm
      simp only [readReg, writeReg, if_neg hd]
      split
      · rfl
      · rw [Vector.getElem_set_ne _ _ hn]

/-! ### The PC sequencer -/

theorem and_three_eq_zero_iff (t : Word) : t &&& 3 = 0 ↔ t.toNat % 4 = 0 := by
  constructor
  · intro h
    have h := congrArg BitVec.toNat h
    simp only [BitVec.toNat_and] at h
    have h3 : (3 : Word).toNat = 2 ^ 2 - 1 := rfl
    rw [h3, Nat.and_two_pow_sub_one_eq_mod] at h
    simpa using h
  · intro h
    apply BitVec.eq_of_toNat_eq
    have h3 : (3 : Word).toNat = 2 ^ 2 - 1 := rfl
    rw [BitVec.toNat_and, h3, Nat.and_two_pow_sub_one_eq_mod]
    simpa using h

/-- The sequencer on an aligned `next_pc`. -/
theorem sequencer_aligned {t : Word} (s : State) (h : t.toNat % 4 = 0) : sequencer t s = { s with pc := t } := by
  rw [sequencer, if_pos ((and_three_eq_zero_iff t).mpr h)]

/-- The sequencer on a misaligned `next_pc`. -/
theorem sequencer_misaligned {t : Word} (s : State) (h : t.toNat % 4 ≠ 0) :
    sequencer t s = { raise .pcAlign s with pc := roundUp t } := by
  unfold sequencer
  rw [if_neg (fun e => h ((and_three_eq_zero_iff t).mp e))]

theorem roundUp_aligned (t : Word) : (roundUp t).toNat % 4 = 0 := by
  rw [← and_three_eq_zero_iff]
  unfold roundUp
  rw [BitVec.and_assoc]
  have : (0xFFFFFFFC : Word) &&& 3 = 0#32 := rfl
  rw [this, BitVec.and_zero]
  rfl

/-- The sequencer leaves `pc` aligned, whatever it is given. -/
theorem sequencer_pc_aligned (t : Word) (s : State) : (sequencer t s).pc.toNat % 4 = 0 := by
  by_cases h : t.toNat % 4 = 0
  · rw [sequencer_aligned s h]; exact h
  · rw [sequencer_misaligned s h]; exact roundUp_aligned t

theorem retire_pc_aligned (t : Word) (s : State) : (retire t s).pc.toNat % 4 = 0 := by
  rw [retire_pc]; exact sequencer_pc_aligned t s

theorem retire_pc_of_aligned {t : Word} (s : State) (h : t.toNat % 4 = 0) : (retire t s).pc = t := by
  rw [retire_pc, sequencer_aligned s h]

theorem retire_mask_of_aligned {t : Word} (s : State) (h : t.toNat % 4 = 0) : (retire t s).mask = s.mask := by
  rw [retire_mask, sequencer_aligned s h]

/-- The following word is aligned where `pc` is. -/
theorem seqPc_aligned {s : State} (h : PcAligned s) : (seqPc s).toNat % 4 = 0 := by
  unfold PcAligned at h
  have h4 : (4 : Word).toNat = 4 := rfl
  rw [seqPc, BitVec.toNat_add, h4]
  omega

@[simp] theorem readReg_retire (t : Word) (s : State) (r : RegName) : readReg (retire t s) r = readReg s r :=
  readReg_of_cleared (by simp) r

@[simp] theorem readReg_touch (a : Word) (n : Nat) (s : State) (r : RegName) : readReg (touch a n s) r = readReg s r :=
  readReg_congr (by simp) r

@[simp] theorem readReg_putBytes (a : Word) (bs : List Byte) (s : State) (r : RegName) :
    readReg (putBytes a bs s) r = readReg s r := readReg_congr (by simp) r

@[simp] theorem byteAt_retire (t : Word) (s : State) (a : Word) : byteAt (retire t s) a = byteAt s a :=
  byteAt_congr (by simp) a

@[simp] theorem byteAt_enterStep (s : State) (a : Word) : byteAt (enterStep s) a = byteAt s a :=
  byteAt_congr (by simp) a

@[simp] theorem readReg_enterStep (s : State) (r : RegName) : readReg (enterStep s) r = readReg s r :=
  readReg_of_cleared (by simp) r

/-- The fetch sees the word at `pc` (spec/40_step.md R130). -/
@[simp] theorem fetchWord_enterStep (s : State) : fetchWord (enterStep s) = wordAt s s.pc := by
  simp [fetchWord, wordAt]

/-- What the entry of a step allocates. -/
theorem enterStep_pages (s : State) : PagesGain s (enterStep s) s.pc 4 := by
  intro p
  rw [enterStep, mem_touch_pages]
  simp

/-! ### The ends of an instruction -/

/-- Everything `writeBack` does, for a state that keeps the rest of `s`: the register written, the next word, the mask. -/
theorem writeBack_regs (d : RegName) (v : Word) (s : State) : RegWritten s (writeBack d v s) d v := by
  intro r
  rw [writeBack, readReg_retire, readReg_writeReg]

theorem writeBack_goesOn (d : RegName) (v : Word) {s : State} (h : PcAligned s) : GoesOn s (writeBack d v s) 0 := by
  have ha := seqPc_aligned h
  refine ⟨fun a => ?_, fun p => ?_, ⟨?_, ?_, ?_, ?_⟩, ?_, ?_⟩
  · exact byteAt_congr (by simp [writeBack]) a
  · simp [writeBack]
  · simp [writeBack]
  · simp [writeBack]
  · simp [writeBack]
  · simp [writeBack]
  · rw [writeBack, retire_pc_of_aligned _ ha]; rfl
  · rw [writeBack, retire_mask_of_aligned _ ha]; simp

/-- The same after a conditional raise. -/
theorem writeBack_raiseIf (d : RegName) (v : Word) (c : Bool) (e : ExceptionKind) {s : State} (h : PcAligned s) :
    RegWritten s (writeBack d v (raiseIf c e s)) d v ∧
      GoesOn s (writeBack d v (raiseIf c e s)) (if c then e.bit else 0) := by
  cases c
  · exact ⟨writeBack_regs d v s, writeBack_goesOn d v h⟩
  · have hr : PcAligned (raise e s) := h
    obtain ⟨h1, h2, h3, h4, h5⟩ := writeBack_goesOn d v hr
    refine ⟨writeBack_regs d v (raise e s), h1, h2, h3, h4, ?_⟩
    show (writeBack d v (raise e s)).mask = s.mask ||| e.bit
    rw [h5]
    simp

/-- Everything `raiseOnly` does. -/
theorem raiseOnly_spec (e : ExceptionKind) {s : State} (h : PcAligned s) :
    RegsKept s (raiseOnly e s) ∧ GoesOn s (raiseOnly e s) e.bit := by
  have ha : (seqPc s).toNat % 4 = 0 := seqPc_aligned h
  refine ⟨fun r => ?_, fun a => ?_, fun p => ?_, ⟨?_, ?_, ?_, ?_⟩, ?_, ?_⟩
  · rw [raiseOnly, readReg_retire]; exact readReg_congr rfl r
  · exact byteAt_congr (by simp [raiseOnly]) a
  · simp [raiseOnly]
  · simp [raiseOnly]
  · simp [raiseOnly]
  · simp [raiseOnly]
  · simp [raiseOnly]
  · rw [raiseOnly, retire_pc_of_aligned _ ha]; rfl
  · rw [raiseOnly, retire_mask_of_aligned _ ha]; rfl

/-- A load either only raises DATA_ALIGN or writes back what it read, its page allocated. -/
theorem load_cases (width : Nat) (value : State → Word → Word) (rs rt : RegName) (imm : BitVec 16) (s : State) :
    (alignedTo width (effectiveAddress s rs imm) = true ∧ load width value rs rt imm s =
      writeBack rt (value s (effectiveAddress s rs imm)) (touch (effectiveAddress s rs imm) width s)) ∨
    (alignedTo width (effectiveAddress s rs imm) = false ∧ load width value rs rt imm s = raiseOnly .dataAlign s) := by
  cases h : alignedTo width (effectiveAddress s rs imm)
  · exact .inr ⟨rfl, by simp [load, h]⟩
  · exact .inl ⟨rfl, by simp [load, h]⟩

/-- A store either only raises DATA_ALIGN or puts the value of `rt` at the effective address. -/
theorem store_cases (width : Nat) (put : Word → Word → State → State) (rs rt : RegName) (imm : BitVec 16) (s : State) :
    (alignedTo width (effectiveAddress s rs imm) = true ∧ store width put rs rt imm s =
      retire (seqPc s) (put (effectiveAddress s rs imm) (readReg s rt) s)) ∨
    (alignedTo width (effectiveAddress s rs imm) = false ∧ store width put rs rt imm s = raiseOnly .dataAlign s) := by
  cases h : alignedTo width (effectiveAddress s rs imm)
  · exact .inr ⟨rfl, by simp [store, h]⟩
  · exact .inl ⟨rfl, by simp [store, h]⟩

end Sys2Proof.Machine
end

