-- ==== Sys2Proof/Laws/Step.lean ====
section
/-! SUPPORT. What an aligned load or store does, what the rounding of the PC sequencer computes, what any instruction can end
in, and what any step can be: said once, so that a claim over all steps splits cases here. -/

namespace Sys2Proof.Machine

/-! ### Operands -/

/-- The sign-extended immediate has the immediate's signed value. -/
theorem imms_toInt (imm : BitVec 16) : (imms imm).toInt = imm.toInt :=
  BitVec.toInt_signExtend_of_le (by omega)

/-- Adding the sign-extended immediate is adding its signed value modulo 2^32. -/
theorem add_imms (a : Word) (imm : BitVec 16) : a + imms imm = BitVec.ofInt 32 (a.toInt + imm.toInt) := by
  apply BitVec.eq_of_toInt_eq
  rw [BitVec.toInt_ofInt, BitVec.toInt_add, imms_toInt]

/-- A word masked to a multiple of 4. -/
theorem and_mask_toNat (u : Word) : (u &&& 0xFFFFFFFC).toNat = u.toNat / 4 * 4 := by
  have hm : (0xFFFFFFFC : Word) = BitVec.allOnes 30 ++ (0 : BitVec 2) := by decide
  have e : u &&& 0xFFFFFFFC = u.extractLsb' 2 30 ++ (0 : BitVec 2) := by
    apply BitVec.eq_of_getLsbD_eq
    intro i hi
    rw [hm]
    simp only [BitVec.getLsbD_and, BitVec.getLsbD_append, BitVec.getLsbD_extractLsb', BitVec.getLsbD_allOnes]
    split_ifs with h
    · simp
    · simp [(by omega : i - 2 < 30), (by omega : 2 + (i - 2) = i)]
  rw [e, BitVec.toNat_append]
  have := u.isLt
  simp [Nat.shiftRight_eq_div_pow, Nat.shiftLeft_eq]
  omega

/-- The rounding of spec/40_step.md R137 as arithmetic. -/
theorem roundUp_toNat (t : Word) : (roundUp t).toNat = (t + 3).toNat / 4 * 4 := and_mask_toNat (t + 3)

/-! ### Words of bytes -/

/-- A halfword as a number (spec/20_memory.md R65). -/
theorem halfAt_toNat (s : State) (a : Word) : (halfAt s a).toNat = (byteAt s a).toNat * 256 + (byteAt s (a + 1)).toNat := by
  unfold halfAt
  rw [BitVec.toNat_append, Nat.shiftLeft_eq, ← Nat.mul_comm (2 ^ 8),
    ← Nat.two_pow_add_eq_or_of_lt (byteAt s (a + 1)).isLt]

/-- A word is its two halfwords. -/
theorem wordAt_halves (s : State) (a : Word) : wordAt s a = halfAt s a ++ halfAt s (a + 2) := by
  have e : a + 2 + 1 = a + 3 := by rw [BitVec.add_assoc]; rfl
  simp only [wordAt, halfAt, e]
  exact BitVec.append_assoc ..

/-- A word as a number of halfwords. -/
theorem wordAt_toNat (s : State) (a : Word) :
    (wordAt s a).toNat = (halfAt s a).toNat * 65536 + (halfAt s (a + 2)).toNat := by
  rw [wordAt_halves, BitVec.toNat_append, Nat.shiftLeft_eq, ← Nat.mul_comm (2 ^ 16),
    ← Nat.two_pow_add_eq_or_of_lt (halfAt s (a + 2)).isLt]

/-- A word's four bytes put together again. -/
theorem append_bytes (v : Word) :
    v.extractLsb' 24 8 ++ v.extractLsb' 16 8 ++ v.extractLsb' 8 8 ++ v.extractLsb' 0 8 = v := by
  apply BitVec.eq_of_getLsbD_eq
  intro i hi
  simp only [BitVec.getLsbD_append, BitVec.getLsbD_extractLsb']
  split_ifs <;> exact and_getLsbD_eq v (by omega) _ (by omega)

/-! ### Aligned accesses -/

/-- Everything an aligned load does. -/
theorem load_aligned (width : Nat) (value : State → Word → Word) (rs rt : RegName) (imm : BitVec 16) {s : State}
    (hp : PcAligned s) (h : (effectiveAddress s rs imm).toNat % width = 0) :
    RegWritten s (load width value rs rt imm s) rt (value s (effectiveAddress s rs imm)) ∧
      BytesKept s (load width value rs rt imm s) ∧
      Accessed s (load width value rs rt imm s) (effectiveAddress s rs imm) width := by
  have hp' : PcAligned (touch (effectiveAddress s rs imm) width s) := by simpa [PcAligned] using hp
  have hb : alignedTo width (effectiveAddress s rs imm) = true := by simp [alignedTo, h]
  rcases load_cases width value rs rt imm s with ⟨_, e⟩ | ⟨h', _⟩
  · rw [e]
    obtain ⟨h2, h3, h4, h5, h6⟩ := writeBack_goesOn rt (value s (effectiveAddress s rs imm)) hp'
    refine ⟨fun r => ?_, fun a => by rw [h2, byteAt_touch], fun p => by rw [h3, mem_touch_pages], ?_, by simpa using h5, by simpa using h6⟩
    · rw [writeBack_regs, readReg_touch]
    · simpa [CountsOne] using h4
  · rw [hb] at h'; cases h'

/-- Everything an aligned store of the bytes `bytes` does. -/
theorem store_aligned (width : Nat) (put : Word → Word → State → State) (bytes : Word → List Byte) (rs rt : RegName)
    (imm : BitVec 16) {s : State} (hput : ∀ a v s, put a v s = putBytes a (bytes v) s)
    (hlen : ∀ v, (bytes v).length = width) (hw : width ≤ 2 ^ 32) (hp : PcAligned s)
    (h : (effectiveAddress s rs imm).toNat % width = 0) :
    RegsKept s (store width put rs rt imm s) ∧
      (∀ k (hk : k < width), byteAt (store width put rs rt imm s) (effectiveAddress s rs imm + BitVec.ofNat 32 k) =
        (bytes (readReg s rt))[k]'(by rw [hlen]; exact hk)) ∧
      BytesKeptOutside s (store width put rs rt imm s) (effectiveAddress s rs imm) width ∧
      Accessed s (store width put rs rt imm s) (effectiveAddress s rs imm) width := by
  have hb : alignedTo width (effectiveAddress s rs imm) = true := by simp [alignedTo, h]
  rcases store_cases width put rs rt imm s with ⟨_, e⟩ | ⟨h', _⟩
  · rw [e, hput]
    have hq := seqPc_aligned hp
    refine ⟨fun r => ?_, fun k hk => ?_, fun a hout => ?_, fun p => ?_, ⟨by simp, by simp, by simp, by simp⟩, ?_, ?_⟩
    · rw [readReg_retire, readReg_putBytes]
    · rw [byteAt_retire, byteAt_putBytes_inside _ _ _ _ (by rw [hlen]; exact hk) (by rw [hlen]; exact hw)]
    · rw [byteAt_retire, byteAt_putBytes_outside _ _ _ _ (by rw [hlen]; exact hout)]
    · rw [retire_pages, mem_putBytes_pages, hlen]
    · rw [retire_pc_of_aligned _ hq]; rfl
    · rw [retire_mask_of_aligned _ hq]; simp
  · rw [hb] at h'; cases h'

/-- A misaligned load is `raiseOnly`. -/
theorem load_misaligned (width : Nat) (value : State → Word → Word) (rs rt : RegName) (imm : BitVec 16) (s : State)
    (h : (effectiveAddress s rs imm).toNat % width ≠ 0) : load width value rs rt imm s = raiseOnly .dataAlign s := by
  simp [load, alignedTo, h]

/-- A misaligned store is `raiseOnly`. -/
theorem store_misaligned (width : Nat) (put : Word → Word → State → State) (rs rt : RegName) (imm : BitVec 16) (s : State)
    (h : (effectiveAddress s rs imm).toNat % width ≠ 0) : store width put rs rt imm s = raiseOnly .dataAlign s := by
  simp [store, alignedTo, h]

/-- Everything a transfer of control to an aligned address does. -/
theorem retire_transferred {t : Word} (s : State) (h : t.toNat % 4 = 0) :
    RegsKept s (retire t s) ∧ Transferred s (retire t s) t 0 :=
  ⟨fun r => by simp, fun a => by simp, fun p => by simp, ⟨by simp, by simp, by simp, by simp⟩,
    retire_pc_of_aligned _ h, by rw [retire_mask_of_aligned _ h]; simp⟩

/-! ### Any instruction, any step -/

/-- An instruction ends in `retire` of a state whose counters are the old ones, or is `syscall`. -/
theorem exec_cases {i : Instr} {s t : State} (h : exec i s = .next t) :
    (∃ (u : State) (n : Word), t = retire n u ∧ u.cycle = s.cycle ∧ u.halted = s.halted ∧
      u.branchTarget = s.branchTarget ∧ u.stopRequest = s.stopRequest ∧ ∀ c, i ≠ .syscall c) ∨
    ∃ c, i = .syscall c ∧ t = exitStep (raise .syscall { s with halted := true }) := by
  have hload : ∀ (w : Nat) (value : State → Word → Word) (rs rt : RegName) (imm : BitVec 16),
      ∃ (u : State) (n : Word), load w value rs rt imm s = retire n u ∧ u.cycle = s.cycle ∧ u.halted = s.halted ∧
        u.branchTarget = s.branchTarget ∧ u.stopRequest = s.stopRequest := by
    intro w value rs rt imm
    rcases load_cases w value rs rt imm s with ⟨_, e⟩ | ⟨_, e⟩ <;> rw [e] <;>
      exact ⟨_, _, rfl, by simp, by simp, by simp, by simp⟩
  have hstore : ∀ (w : Nat) (bytes : Word → List Byte) (rs rt : RegName) (imm : BitVec 16),
      ∃ (u : State) (n : Word), store w (fun a v => putBytes a (bytes v)) rs rt imm s = retire n u ∧ u.cycle = s.cycle ∧
        u.halted = s.halted ∧ u.branchTarget = s.branchTarget ∧ u.stopRequest = s.stopRequest := by
    intro w bytes rs rt imm
    rcases store_cases w (fun a v => putBytes a (bytes v)) rs rt imm s with ⟨_, e⟩ | ⟨_, e⟩ <;> rw [e] <;>
      exact ⟨_, _, rfl, by simp, by simp, by simp, by simp⟩
  cases i with
  | syscall c => cases h; exact .inr ⟨c, rfl, rfl⟩
  | lb | lbu | lh | lhu | lw =>
    cases h; left
    obtain ⟨u, n, e, h1, h2, h3, h4⟩ := hload _ _ _ _ _
    exact ⟨u, n, e, h1, h2, h3, h4, by simp⟩
  | sb | sh | sw =>
    cases h; left
    obtain ⟨u, n, e, h1, h2, h3, h4⟩ := hstore _ _ _ _ _
    exact ⟨u, n, e, h1, h2, h3, h4, by simp⟩
  | _ => cases h; exact .inl ⟨_, _, rfl, by simp, by simp, by simp, by simp, by simp⟩

/-- A step runs the instruction decoded at `pc`, or the word there is none and the step only raises INVALID_INST. -/
theorem step_cases {s t : State} (h : step s = .next t) :
    (∃ i, decode (wordAt s s.pc) = .instr i ∧ exec i (enterStep s) = .next t) ∨
    ((∀ i, decode (wordAt s s.pc) ≠ .instr i) ∧ t = raiseOnly .invalidInst (enterStep s)) := by
  unfold step at h
  rw [fetchWord_enterStep] at h
  cases hd : decode (wordAt s s.pc) with
  | instr i => rw [hd] at h; exact .inl ⟨i, rfl, h⟩
  | invalidOpcode => rw [hd] at h; cases h; exact .inr ⟨by simp, rfl⟩
  | invalidFunct => rw [hd] at h; cases h; exact .inr ⟨by simp, rfl⟩

end Sys2Proof.Machine
end

