-- ==== Sys2Proof/Laws/Driver.lean ====
section
/-! SUPPORT. What the host's operations and the driver's loop can do, said once. -/

namespace Sys2Proof.Machine

/-- A host step that the CPU answers is that answer. -/
theorem hostStep_eq {s t : State} (h : step s = .next t) : hostStep s = t := by
  simp [hostStep, h]

/-- The driver stops exactly on its three conditions (spec/60_exceptions.md R420). -/
theorem driverStops_iff (s : State) : driverStops s = true ↔ s.mask ≠ 0 ∨ s.halted = true ∨ s.stopRequest = true := by
  simp [driverStops, or_assoc]

/-- The hook is due exactly on its two conditions (spec/60_exceptions.md R423). -/
theorem hookDue_iff (s : State) : hookDue s = true ↔ s.mask ≠ 0 ∨ s.halted = true := by
  simp [hookDue]

/-- With no hook installed a step makes no call. -/
@[simp] theorem hookCalls_false (t : State) : hookCalls false t = [] := rfl

/-- With a hook installed a step makes one call if it is due, else none. -/
theorem hookCalls_true (t : State) :
    hookCalls true t = if t.mask ≠ 0 ∨ t.halted = true then [{ mask := t.mask, view := viewOf t }] else [] := by
  simp only [hookCalls, Bool.true_and, hookDue_iff]

/-- A step after which no hook is due makes no call. -/
theorem hookCalls_of_not_due (hooked : Bool) {t : State} (h : hookDue t = false) : hookCalls hooked t = [] := by
  simp [hookCalls, h]

/-! ### No step reads or writes the stop request -/

theorem retire_setStop (t : Word) (b : Bool) (s : State) : retire t (setStop b s) = setStop b (retire t s) := by
  unfold retire sequencer; split <;> rfl

theorem writeReg_setStop (r : RegName) (v : Word) (b : Bool) (s : State) :
    writeReg r v (setStop b s) = setStop b (writeReg r v s) := by
  unfold writeReg; split <;> rfl

theorem writeBack_setStop (r : RegName) (v : Word) (b : Bool) (s : State) :
    writeBack r v (setStop b s) = setStop b (writeBack r v s) := by
  unfold writeBack; rw [writeReg_setStop, retire_setStop]; rfl

theorem raiseOnly_setStop (e : ExceptionKind) (b : Bool) (s : State) :
    raiseOnly e (setStop b s) = setStop b (raiseOnly e s) := retire_setStop _ b (raise e s)

theorem raiseIf_setStop (c : Bool) (e : ExceptionKind) (b : Bool) (s : State) :
    raiseIf c e (setStop b s) = setStop b (raiseIf c e s) := by
  cases c <;> rfl

theorem touch_setStop (a : Word) (n : Nat) (b : Bool) (s : State) : touch a n (setStop b s) = setStop b (touch a n s) := by
  induction n generalizing a s with
  | zero => rfl
  | succ n ih => exact ih (a + 1) { s with pages := insertPage (pageOf a) s.pages }

theorem putBytes_setStop (a : Word) (bs : List Byte) (b : Bool) (s : State) :
    putBytes a bs (setStop b s) = setStop b (putBytes a bs s) := by
  induction bs generalizing a s with
  | nil => rfl
  | cons x bs ih => exact ih (a + 1) (putByte a x s)

theorem load_setStop (width : Nat) {value : State → Word → Word} (rs rt : RegName) (imm : BitVec 16) (b : Bool) (s : State)
    (hv : ∀ t a, value (setStop b t) a = value t a) :
    load width value rs rt imm (setStop b s) = setStop b (load width value rs rt imm s) := by
  have e : effectiveAddress (setStop b s) rs imm = effectiveAddress s rs imm := rfl
  simp only [load, e, hv, touch_setStop, writeBack_setStop, raiseOnly_setStop]
  split <;> rfl

theorem store_setStop (width : Nat) (bytes : Word → List Byte) (rs rt : RegName) (imm : BitVec 16) (b : Bool) (s : State) :
    store width (fun a v => putBytes a (bytes v)) rs rt imm (setStop b s) =
      setStop b (store width (fun a v => putBytes a (bytes v)) rs rt imm s) := by
  have e : effectiveAddress (setStop b s) rs imm = effectiveAddress s rs imm := rfl
  have e1 : seqPc (setStop b s) = seqPc s := rfl
  have e2 : readReg (setStop b s) rt = readReg s rt := rfl
  simp only [store, e, e1, e2, putBytes_setStop, retire_setStop, raiseOnly_setStop]
  split <;> rfl

/-- An instruction neither reads nor writes the stop request. -/
theorem exec_setStop {i : Instr} {s t : State} (b : Bool) (h : exec i s = .next t) :
    exec i (setStop b s) = .next (setStop b t) := by
  cases i with
  | add | sub | addi =>
    
    cases h
    exact congrArg _ ((congrArg (writeBack _ _) (raiseIf_setStop _ .intOverflow b s)).trans (writeBack_setStop _ _ b _))
  | syscall => cases h; rfl
  | breakpoint => cases h; exact congrArg _ (raiseOnly_setStop _ b s)
  | lb | lbu | lh | lhu | lw => cases h; exact congrArg _ (load_setStop _ _ _ _ b s fun _ _ => rfl)
  | sb | sh | sw => cases h; exact congrArg _ (store_setStop _ _ _ _ _ b s)
  | beq | bne | j | jr => cases h; exact congrArg _ (retire_setStop _ b s)
  | jal => 
    cases h
    exact congrArg _ ((congrArg (retire _) (writeReg_setStop 31 (seqPc s) b s)).trans (retire_setStop _ b _))
  | _ => cases h; exact congrArg _ (writeBack_setStop _ _ b s)

/-- A host step neither reads nor writes the stop request (log entry 2). -/
@[simp] theorem hostStep_setStop (b : Bool) (s : State) : hostStep (setStop b s) = setStop b (hostStep s) := by
  have he : enterStep (setStop b s) = setStop b (enterStep s) := touch_setStop s.pc 4 b (clearZero { s with mask := 0 })
  have hf : fetchWord (setStop b (enterStep s)) = fetchWord (enterStep s) := rfl
  unfold hostStep step
  rw [he, hf]
  cases decode (fetchWord (enterStep s)) with
  | instr i =>
    cases h : exec i (enterStep s) with
    | next t => simp only [h, exec_setStop b h]
    | fault f => exact nomatch f
    | refused r => cases i <;> cases h
  | invalidOpcode => exact raiseOnly_setStop _ b _
  | invalidFunct => exact raiseOnly_setStop _ b _
/-! ### Host operations one after another -/

@[simp] theorem runHost_nil (hooked : Bool) (s : State) : runHost hooked [] s = { state := s, hooks := [] } := rfl

@[simp] theorem runHost_cons_state (hooked : Bool) (op : HostOp) (ops : List HostOp) (s : State) :
    (runHost hooked (op :: ops) s).state = (runHost hooked ops (applyHostOp hooked op s).state).state := rfl

@[simp] theorem runHost_cons_hooks (hooked : Bool) (op : HostOp) (ops : List HostOp) (s : State) :
    (runHost hooked (op :: ops) s).hooks =
      (applyHostOp hooked op s).hooks ++ (runHost hooked ops (applyHostOp hooked op s).state).hooks := rfl

/-! ### The driver's loop -/

/-- One turn of the driver's loop that stops. -/
theorem driverLoop_stop {hooked stop : Bool} {stops : List Bool} {s : State}
    (h : driverStops (setStop ((hostStep s).stopRequest || stop) (hostStep s)) = true) :
    driverLoop hooked (stop :: stops) s =
      { status := .stopped
        state := setStop ((hostStep s).stopRequest || stop) (hostStep s)
        hooks := hookCalls hooked (hostStep s) } := by
  simp [driverLoop, h]

/-- One turn of the driver's loop that goes on: no hook was due. -/
theorem driverLoop_go {hooked stop : Bool} {stops : List Bool} {s : State}
    (h : driverStops (setStop ((hostStep s).stopRequest || stop) (hostStep s)) = false) :
    driverLoop hooked (stop :: stops) s =
      driverLoop hooked stops (setStop ((hostStep s).stopRequest || stop) (hostStep s)) := by
  have hd : hookDue (hostStep s) = false := by
    simp only [driverStops, Bool.or_eq_false_iff] at h
    simpa [hookDue] using h.1
  simp [driverLoop, h, hookCalls_of_not_due hooked hd]

end Sys2Proof.Machine
end

