-- ==== Sys2Proof/Laws/PerInstr.lean ====
section
/-! SUPPORT. Statements made of every instruction as syntax. `TableRow`: the instruction's word meets the mask and the match
of its row in spec/opcode_table.json (spec/30_encoding.md R112). -/

namespace Sys2Proof.Laws

theorem packR_row (rs rt rd : RegName) (sa : BitVec 5) (f : BitVec 6) :
    packR rs rt rd sa f &&& 0xFC00003F = f.setWidth 32 := by
  apply BitVec.eq_of_getLsbD_eq
  intro i hi
  rw [packR, BitVec.getLsbD_and]
  simp only [BitVec.getLsbD_append, BitVec.getLsbD_setWidth]
  interval_cases i <;> simp

theorem packCode_row (code : BitVec 20) (f : BitVec 6) : packCode code f &&& 0xFC00003F = f.setWidth 32 := by
  apply BitVec.eq_of_getLsbD_eq
  intro i hi
  rw [packCode, BitVec.getLsbD_and]
  simp only [BitVec.getLsbD_append, BitVec.getLsbD_setWidth]
  interval_cases i <;> simp

theorem packI_row (op : BitVec 6) (rs rt : RegName) (imm : BitVec 16) :
    packI op rs rt imm &&& 0xFC000000 = op ++ (0 : BitVec 26) := by
  apply BitVec.eq_of_getLsbD_eq
  intro i hi
  rw [packI, BitVec.getLsbD_and]
  simp only [BitVec.getLsbD_append]
  interval_cases i <;> simp

theorem packJ_row (op : BitVec 6) (target : BitVec 26) : packJ op target &&& 0xFC000000 = op ++ (0 : BitVec 26) := by
  apply BitVec.eq_of_getLsbD_eq
  intro i hi
  rw [packJ, BitVec.getLsbD_and]
  simp only [BitVec.getLsbD_append]
  interval_cases i <;> simp

/-- The match of the instruction's row. -/
def rowMatch : Instr → Word
  | .sll _ _ _ _ => 0x00000000
  | .srl _ _ _ _ => 0x00000002
  | .sra _ _ _ _ => 0x00000003
  | .sllv _ _ _ _ => 0x00000004
  | .srlv _ _ _ _ => 0x00000006
  | .srav _ _ _ _ => 0x00000007
  | .jr _ _ _ _ => 0x00000008
  | .syscall _ => 0x0000000C
  | .breakpoint _ => 0x0000000D
  | .add _ _ _ _ => 0x00000020
  | .addu _ _ _ _ => 0x00000021
  | .sub _ _ _ _ => 0x00000022
  | .subu _ _ _ _ => 0x00000023
  | .and _ _ _ _ => 0x00000024
  | .or _ _ _ _ => 0x00000025
  | .xor _ _ _ _ => 0x00000026
  | .nor _ _ _ _ => 0x00000027
  | .slt _ _ _ _ => 0x0000002A
  | .sltu _ _ _ _ => 0x0000002B
  | .j _ => 0x08000000
  | .jal _ => 0x0C000000
  | .beq _ _ _ => 0x10000000
  | .bne _ _ _ => 0x14000000
  | .addi _ _ _ => 0x20000000
  | .addiu _ _ _ => 0x24000000
  | .slti _ _ _ => 0x28000000
  | .sltiu _ _ _ => 0x2C000000
  | .andi _ _ _ => 0x30000000
  | .ori _ _ _ => 0x34000000
  | .xori _ _ _ => 0x38000000
  | .lui _ _ _ => 0x3C000000
  | .lb _ _ _ => 0x80000000
  | .lh _ _ _ => 0x84000000
  | .lw _ _ _ => 0x8C000000
  | .lbu _ _ _ => 0x90000000
  | .lhu _ _ _ => 0x94000000
  | .sb _ _ _ => 0xA0000000
  | .sh _ _ _ => 0xA4000000
  | .sw _ _ _ => 0xAC000000

/-- The mask of the instruction's row. -/
def rowMask : Instr → Word
  | .sll _ _ _ _ => 0xFC00003F
  | .srl _ _ _ _ => 0xFC00003F
  | .sra _ _ _ _ => 0xFC00003F
  | .sllv _ _ _ _ => 0xFC00003F
  | .srlv _ _ _ _ => 0xFC00003F
  | .srav _ _ _ _ => 0xFC00003F
  | .jr _ _ _ _ => 0xFC00003F
  | .syscall _ => 0xFC00003F
  | .breakpoint _ => 0xFC00003F
  | .add _ _ _ _ => 0xFC00003F
  | .addu _ _ _ _ => 0xFC00003F
  | .sub _ _ _ _ => 0xFC00003F
  | .subu _ _ _ _ => 0xFC00003F
  | .and _ _ _ _ => 0xFC00003F
  | .or _ _ _ _ => 0xFC00003F
  | .xor _ _ _ _ => 0xFC00003F
  | .nor _ _ _ _ => 0xFC00003F
  | .slt _ _ _ _ => 0xFC00003F
  | .sltu _ _ _ _ => 0xFC00003F
  | .j _ => 0xFC000000
  | .jal _ => 0xFC000000
  | .beq _ _ _ => 0xFC000000
  | .bne _ _ _ => 0xFC000000
  | .addi _ _ _ => 0xFC000000
  | .addiu _ _ _ => 0xFC000000
  | .slti _ _ _ => 0xFC000000
  | .sltiu _ _ _ => 0xFC000000
  | .andi _ _ _ => 0xFC000000
  | .ori _ _ _ => 0xFC000000
  | .xori _ _ _ => 0xFC000000
  | .lui _ _ _ => 0xFC000000
  | .lb _ _ _ => 0xFC000000
  | .lh _ _ _ => 0xFC000000
  | .lw _ _ _ => 0xFC000000
  | .lbu _ _ _ => 0xFC000000
  | .lhu _ _ _ => 0xFC000000
  | .sb _ _ _ => 0xFC000000
  | .sh _ _ _ => 0xFC000000
  | .sw _ _ _ => 0xFC000000

/-- The instruction's word meets its row of the opcode table. -/
def TableRow.Statement (i : Instr) : Prop := encode i &&& rowMask i = rowMatch i

theorem TableRow.sll (rs rt rd : RegName) (sa : BitVec 5) : TableRow.Statement (.sll rs rt rd sa) := packR_row rs rt rd sa _
theorem TableRow.srl (rs rt rd : RegName) (sa : BitVec 5) : TableRow.Statement (.srl rs rt rd sa) := packR_row rs rt rd sa _
theorem TableRow.sra (rs rt rd : RegName) (sa : BitVec 5) : TableRow.Statement (.sra rs rt rd sa) := packR_row rs rt rd sa _
theorem TableRow.sllv (rs rt rd : RegName) (sa : BitVec 5) : TableRow.Statement (.sllv rs rt rd sa) := packR_row rs rt rd sa _
theorem TableRow.srlv (rs rt rd : RegName) (sa : BitVec 5) : TableRow.Statement (.srlv rs rt rd sa) := packR_row rs rt rd sa _
theorem TableRow.srav (rs rt rd : RegName) (sa : BitVec 5) : TableRow.Statement (.srav rs rt rd sa) := packR_row rs rt rd sa _
theorem TableRow.jr (rs rt rd : RegName) (sa : BitVec 5) : TableRow.Statement (.jr rs rt rd sa) := packR_row rs rt rd sa _
theorem TableRow.syscall (code : BitVec 20) : TableRow.Statement (.syscall code) := packCode_row code _
theorem TableRow.breakpoint (code : BitVec 20) : TableRow.Statement (.breakpoint code) := packCode_row code _
theorem TableRow.add (rs rt rd : RegName) (sa : BitVec 5) : TableRow.Statement (.add rs rt rd sa) := packR_row rs rt rd sa _
theorem TableRow.addu (rs rt rd : RegName) (sa : BitVec 5) : TableRow.Statement (.addu rs rt rd sa) := packR_row rs rt rd sa _
theorem TableRow.sub (rs rt rd : RegName) (sa : BitVec 5) : TableRow.Statement (.sub rs rt rd sa) := packR_row rs rt rd sa _
theorem TableRow.subu (rs rt rd : RegName) (sa : BitVec 5) : TableRow.Statement (.subu rs rt rd sa) := packR_row rs rt rd sa _
theorem TableRow.and (rs rt rd : RegName) (sa : BitVec 5) : TableRow.Statement (.and rs rt rd sa) := packR_row rs rt rd sa _
theorem TableRow.or (rs rt rd : RegName) (sa : BitVec 5) : TableRow.Statement (.or rs rt rd sa) := packR_row rs rt rd sa _
theorem TableRow.xor (rs rt rd : RegName) (sa : BitVec 5) : TableRow.Statement (.xor rs rt rd sa) := packR_row rs rt rd sa _
theorem TableRow.nor (rs rt rd : RegName) (sa : BitVec 5) : TableRow.Statement (.nor rs rt rd sa) := packR_row rs rt rd sa _
theorem TableRow.slt (rs rt rd : RegName) (sa : BitVec 5) : TableRow.Statement (.slt rs rt rd sa) := packR_row rs rt rd sa _
theorem TableRow.sltu (rs rt rd : RegName) (sa : BitVec 5) : TableRow.Statement (.sltu rs rt rd sa) := packR_row rs rt rd sa _
theorem TableRow.j (target : BitVec 26) : TableRow.Statement (.j target) := packJ_row _ target
theorem TableRow.jal (target : BitVec 26) : TableRow.Statement (.jal target) := packJ_row _ target
theorem TableRow.beq (rs rt : RegName) (imm : BitVec 16) : TableRow.Statement (.beq rs rt imm) := packI_row _ rs rt imm
theorem TableRow.bne (rs rt : RegName) (imm : BitVec 16) : TableRow.Statement (.bne rs rt imm) := packI_row _ rs rt imm
theorem TableRow.addi (rs rt : RegName) (imm : BitVec 16) : TableRow.Statement (.addi rs rt imm) := packI_row _ rs rt imm
theorem TableRow.addiu (rs rt : RegName) (imm : BitVec 16) : TableRow.Statement (.addiu rs rt imm) := packI_row _ rs rt imm
theorem TableRow.slti (rs rt : RegName) (imm : BitVec 16) : TableRow.Statement (.slti rs rt imm) := packI_row _ rs rt imm
theorem TableRow.sltiu (rs rt : RegName) (imm : BitVec 16) : TableRow.Statement (.sltiu rs rt imm) := packI_row _ rs rt imm
theorem TableRow.andi (rs rt : RegName) (imm : BitVec 16) : TableRow.Statement (.andi rs rt imm) := packI_row _ rs rt imm
theorem TableRow.ori (rs rt : RegName) (imm : BitVec 16) : TableRow.Statement (.ori rs rt imm) := packI_row _ rs rt imm
theorem TableRow.xori (rs rt : RegName) (imm : BitVec 16) : TableRow.Statement (.xori rs rt imm) := packI_row _ rs rt imm
theorem TableRow.lui (rs rt : RegName) (imm : BitVec 16) : TableRow.Statement (.lui rs rt imm) := packI_row _ rs rt imm
theorem TableRow.lb (rs rt : RegName) (imm : BitVec 16) : TableRow.Statement (.lb rs rt imm) := packI_row _ rs rt imm
theorem TableRow.lh (rs rt : RegName) (imm : BitVec 16) : TableRow.Statement (.lh rs rt imm) := packI_row _ rs rt imm
theorem TableRow.lw (rs rt : RegName) (imm : BitVec 16) : TableRow.Statement (.lw rs rt imm) := packI_row _ rs rt imm
theorem TableRow.lbu (rs rt : RegName) (imm : BitVec 16) : TableRow.Statement (.lbu rs rt imm) := packI_row _ rs rt imm
theorem TableRow.lhu (rs rt : RegName) (imm : BitVec 16) : TableRow.Statement (.lhu rs rt imm) := packI_row _ rs rt imm
theorem TableRow.sb (rs rt : RegName) (imm : BitVec 16) : TableRow.Statement (.sb rs rt imm) := packI_row _ rs rt imm
theorem TableRow.sh (rs rt : RegName) (imm : BitVec 16) : TableRow.Statement (.sh rs rt imm) := packI_row _ rs rt imm
theorem TableRow.sw (rs rt : RegName) (imm : BitVec 16) : TableRow.Statement (.sw rs rt imm) := packI_row _ rs rt imm

end Sys2Proof.Laws
end

