-- ==== Sys2Proof/Tests/Slice0.lean ====
section
/-! SUPPORT. The model's own tests. Every expected value is taken from the spec: its encoding tables (spec/30_encoding.md), its
vectors (spec/95_test_vectors.md, by the row's name) or a rule named beside the test. The last part holds one witness for the
hypotheses of each statement that has some. -/

namespace Sys2Proof.Tests

open Sys2Proof Sys2Proof.Machine

/-! ### Helpers -/

/-- The reset state with `pc`, registers and words of memory given. -/
def start (pc : Word) (regs : List (RegName × Word)) (mem : List (Word × Word)) : State :=
  mem.foldl (fun s p => setWord p.1 p.2 s)
    (regs.foldl (fun s p => writeReg p.1 p.2 s) { State.reset with pc := pc })

/-- One step at 0x00040000 of the word `w`, registers and words of memory given: the state after it. -/
def run (w : Word) (regs : List (RegName × Word)) (mem : List (Word × Word)) : State :=
  hostStep (start 0x00040000 regs (mem ++ [(0x00040000, w)]))

/-- One step at `pc` of the word `w`. -/
def runAt (pc w : Word) (regs : List (RegName × Word)) : State := hostStep (start pc regs [(pc, w)])

/-- Register `r`, the mask and `pc` after one step at 0x00040000. -/
def seen (w : Word) (regs : List (RegName × Word)) (r : RegName) : Word × BitVec 8 × Word :=
  (readReg (run w regs []) r, (run w regs []).mask, (run w regs []).pc)

/-- The pages after one step at 0x00040000. -/
def pagesOf (w : Word) (regs : List (RegName × Word)) : List PageIndex := (run w regs []).pages

/-! ### Well-formedness: an ill-formed term for each check -/

theorem test_illFormed_sll_rs : Instr.wellFormed (.sll 1 2 3 4) = false := by decide
theorem test_illFormed_srl_rs : Instr.wellFormed (.srl 1 2 3 4) = false := by decide
theorem test_illFormed_sra_rs : Instr.wellFormed (.sra 1 2 3 4) = false := by decide
theorem test_illFormed_sllv_shamt : Instr.wellFormed (.sllv 1 2 3 1) = false := by decide
theorem test_illFormed_srlv_shamt : Instr.wellFormed (.srlv 1 2 3 1) = false := by decide
theorem test_illFormed_srav_shamt : Instr.wellFormed (.srav 1 2 3 1) = false := by decide
theorem test_illFormed_jr_rt : Instr.wellFormed (.jr 31 1 0 0) = false := by decide
theorem test_illFormed_jr_rd : Instr.wellFormed (.jr 31 0 1 0) = false := by decide
theorem test_illFormed_jr_shamt : Instr.wellFormed (.jr 31 0 0 1) = false := by decide
theorem test_illFormed_syscall_code : Instr.wellFormed (.syscall 1) = false := by decide
theorem test_illFormed_break_code : Instr.wellFormed (.breakpoint 1) = false := by decide
theorem test_illFormed_add_shamt : Instr.wellFormed (.add 8 9 10 1) = false := by decide
theorem test_illFormed_addu_shamt : Instr.wellFormed (.addu 8 9 10 1) = false := by decide
theorem test_illFormed_sub_shamt : Instr.wellFormed (.sub 8 9 10 1) = false := by decide
theorem test_illFormed_subu_shamt : Instr.wellFormed (.subu 8 9 10 1) = false := by decide
theorem test_illFormed_and_shamt : Instr.wellFormed (.and 8 9 10 1) = false := by decide
theorem test_illFormed_or_shamt : Instr.wellFormed (.or 8 9 10 1) = false := by decide
theorem test_illFormed_xor_shamt : Instr.wellFormed (.xor 8 9 10 1) = false := by decide
theorem test_illFormed_nor_shamt : Instr.wellFormed (.nor 8 9 10 1) = false := by decide
theorem test_illFormed_slt_shamt : Instr.wellFormed (.slt 8 9 10 1) = false := by decide
theorem test_illFormed_sltu_shamt : Instr.wellFormed (.sltu 8 9 10 1) = false := by decide
theorem test_illFormed_lui_rs : Instr.wellFormed (.lui 1 2 3) = false := by decide
theorem test_wellFormed_add : Instr.wellFormed (.add 8 9 10 0) = true := by decide
theorem test_wellFormed_jr : Instr.wellFormed (.jr 31 0 0 0) = true := by decide

/-! ### Decoding: a word of each constructor, field by field from the formats of R102 to R104 and the table of R111 -/

theorem test_decode_sll : decode 0b000000_00000_00110_11011_10101_000000 = .instr (.sll 0 6 27 21) := by decide
theorem test_decode_srl : decode 0b000000_00000_00110_11011_10101_000010 = .instr (.srl 0 6 27 21) := by decide
theorem test_decode_sra : decode 0b000000_00000_00110_11011_10101_000011 = .instr (.sra 0 6 27 21) := by decide
theorem test_decode_sllv : decode 0b000000_10001_00110_11011_00000_000100 = .instr (.sllv 17 6 27 0) := by decide
theorem test_decode_srlv : decode 0b000000_10001_00110_11011_00000_000110 = .instr (.srlv 17 6 27 0) := by decide
theorem test_decode_srav : decode 0b000000_10001_00110_11011_00000_000111 = .instr (.srav 17 6 27 0) := by decide
theorem test_decode_jr : decode 0b000000_10001_00000_00000_00000_001000 = .instr (.jr 17 0 0 0) := by decide
theorem test_decode_syscall : decode 0b000000_10101011110011011110_001100 = .instr (.syscall 0xABCDE) := by decide
theorem test_decode_breakpoint : decode 0b000000_10101011110011011110_001101 = .instr (.breakpoint 0xABCDE) := by decide
theorem test_decode_add : decode 0b000000_10001_00110_11011_00000_100000 = .instr (.add 17 6 27 0) := by decide
theorem test_decode_addu : decode 0b000000_10001_00110_11011_00000_100001 = .instr (.addu 17 6 27 0) := by decide
theorem test_decode_sub : decode 0b000000_10001_00110_11011_00000_100010 = .instr (.sub 17 6 27 0) := by decide
theorem test_decode_subu : decode 0b000000_10001_00110_11011_00000_100011 = .instr (.subu 17 6 27 0) := by decide
theorem test_decode_and : decode 0b000000_10001_00110_11011_00000_100100 = .instr (.and 17 6 27 0) := by decide
theorem test_decode_or : decode 0b000000_10001_00110_11011_00000_100101 = .instr (.or 17 6 27 0) := by decide
theorem test_decode_xor : decode 0b000000_10001_00110_11011_00000_100110 = .instr (.xor 17 6 27 0) := by decide
theorem test_decode_nor : decode 0b000000_10001_00110_11011_00000_100111 = .instr (.nor 17 6 27 0) := by decide
theorem test_decode_slt : decode 0b000000_10001_00110_11011_00000_101010 = .instr (.slt 17 6 27 0) := by decide
theorem test_decode_sltu : decode 0b000000_10001_00110_11011_00000_101011 = .instr (.sltu 17 6 27 0) := by decide
theorem test_decode_j : decode 0b000010_10001101000101011001111000 = .instr (.j 0x2345678) := by decide
theorem test_decode_jal : decode 0b000011_10001101000101011001111000 = .instr (.jal 0x2345678) := by decide
theorem test_decode_beq : decode 0b000100_10001_00110_1001101010111100 = .instr (.beq 17 6 0x9ABC) := by decide
theorem test_decode_bne : decode 0b000101_10001_00110_1001101010111100 = .instr (.bne 17 6 0x9ABC) := by decide
theorem test_decode_addi : decode 0b001000_10001_00110_1001101010111100 = .instr (.addi 17 6 0x9ABC) := by decide
theorem test_decode_addiu : decode 0b001001_10001_00110_1001101010111100 = .instr (.addiu 17 6 0x9ABC) := by decide
theorem test_decode_slti : decode 0b001010_10001_00110_1001101010111100 = .instr (.slti 17 6 0x9ABC) := by decide
theorem test_decode_sltiu : decode 0b001011_10001_00110_1001101010111100 = .instr (.sltiu 17 6 0x9ABC) := by decide
theorem test_decode_andi : decode 0b001100_10001_00110_1001101010111100 = .instr (.andi 17 6 0x9ABC) := by decide
theorem test_decode_ori : decode 0b001101_10001_00110_1001101010111100 = .instr (.ori 17 6 0x9ABC) := by decide
theorem test_decode_xori : decode 0b001110_10001_00110_1001101010111100 = .instr (.xori 17 6 0x9ABC) := by decide
theorem test_decode_lui : decode 0b001111_00000_00110_1001101010111100 = .instr (.lui 0 6 0x9ABC) := by decide
theorem test_decode_lb : decode 0b100000_10001_00110_1001101010111100 = .instr (.lb 17 6 0x9ABC) := by decide
theorem test_decode_lh : decode 0b100001_10001_00110_1001101010111100 = .instr (.lh 17 6 0x9ABC) := by decide
theorem test_decode_lw : decode 0b100011_10001_00110_1001101010111100 = .instr (.lw 17 6 0x9ABC) := by decide
theorem test_decode_lbu : decode 0b100100_10001_00110_1001101010111100 = .instr (.lbu 17 6 0x9ABC) := by decide
theorem test_decode_lhu : decode 0b100101_10001_00110_1001101010111100 = .instr (.lhu 17 6 0x9ABC) := by decide
theorem test_decode_sb : decode 0b101000_10001_00110_1001101010111100 = .instr (.sb 17 6 0x9ABC) := by decide
theorem test_decode_sh : decode 0b101001_10001_00110_1001101010111100 = .instr (.sh 17 6 0x9ABC) := by decide
theorem test_decode_sw : decode 0b101011_10001_00110_1001101010111100 = .instr (.sw 17 6 0x9ABC) := by decide

/-! Invalid words (R113; rows SY5 to SY9). -/

theorem test_decode_invalid_jalr : decode 0x00000009 = .invalidFunct 0x09 := by decide
theorem test_decode_invalid_mult : decode 0x01090018 = .invalidFunct 0x18 := by decide
theorem test_decode_invalid_regimm : decode 0x04000000 = .invalidOpcode 0x01 := by decide
theorem test_decode_invalid_ones : decode 0xFFFFFFFF = .invalidOpcode 0x3F := by decide
theorem test_decodeBytes_truncated : decodeBytes [0x00, 0x00, 0x00] = .truncated [0x00, 0x00, 0x00] := by decide
theorem test_decodeBytes_bigEndian : decodeBytes [0x01, 0x09, 0x50, 0x20, 0xFF] = .word (.instr (.add 8 9 10 0)) [0xFF] := by
  decide

/-! Encoding (rows AS4, AS5, AS24, scenario 5). -/

theorem test_encode_addu : encode (.addu 9 0 8 0) = 0x01204021 := by decide
theorem test_encode_sllv : encode (.sllv 10 9 8 0) = 0x01494004 := by decide
theorem test_encode_sw : encode (.sw 29 8 0xFFFC) = 0xAFA8FFFC := by decide
theorem test_encode_j : encode (.j 0x0010002) = 0x08010002 := by decide
theorem test_tableWord_add : decodeTableWord 32 0x01095020 = some (.add 8 9 10 0) := by decide
theorem test_tableWord_invalid : decodeTableWord 32 0x00000009 = none := by decide

/-! ### Register-register arithmetic and logic (spec/95_test_vectors.md 2.1): `$t2`, mask, `pc` -/

/-- Row RR1_add. -/
theorem test_RR1_add : seen 0x01095020 [(8, 0x7FFFFFFF), (9, 1)] 10 = (0x80000000, 2, 0x00040004) := by decide
/-- Row RR3_add. -/
theorem test_RR3_add : seen 0x01095020 [(8, 0xFFFFFFFF), (9, 1)] 10 = (0, 0, 0x00040004) := by decide
/-- Row RR5_addu. -/
theorem test_RR5_addu : seen 0x01095021 [(8, 0x7FFFFFFF), (9, 1)] 10 = (0x80000000, 0, 0x00040004) := by decide
/-- Row RR8_sub. -/
theorem test_RR8_sub : seen 0x01095022 [(8, 0), (9, 0x80000000)] 10 = (0x80000000, 2, 0x00040004) := by decide
/-- Row RR9_sub. -/
theorem test_RR9_sub : seen 0x01095022 [(8, 5), (9, 7)] 10 = (0xFFFFFFFE, 0, 0x00040004) := by decide
/-- Row RR11_subu. -/
theorem test_RR11_subu : seen 0x01095023 [(8, 0), (9, 1)] 10 = (0xFFFFFFFF, 0, 0x00040004) := by decide
/-- Row RR13_and. -/
theorem test_RR13_and : seen 0x01095024 [(8, 0xF0F0F0F0), (9, 0xFF00FF00)] 10 = (0xF000F000, 0, 0x00040004) := by decide
/-- Row RR14_or. -/
theorem test_RR14_or : seen 0x01095025 [(8, 0xF0F0F0F0), (9, 0x0F0F0F0F)] 10 = (0xFFFFFFFF, 0, 0x00040004) := by decide
/-- Row RR15_xor. -/
theorem test_RR15_xor : seen 0x01095026 [(8, 0xFFFF0000), (9, 0xFF00FF00)] 10 = (0x00FFFF00, 0, 0x00040004) := by decide
/-- Row RR17_nor. -/
theorem test_RR17_nor : seen 0x01095027 [(8, 0xF0F0F0F0), (9, 0x0F0F0000)] 10 = (0x00000F0F, 0, 0x00040004) := by decide
/-- Row RR18_slt. -/
theorem test_RR18_slt : seen 0x0109502A [(8, 0xFFFFFFFF), (9, 1)] 10 = (1, 0, 0x00040004) := by decide
/-- Row RR19_slt. -/
theorem test_RR19_slt : seen 0x0109502A [(8, 1), (9, 0xFFFFFFFF)] 10 = (0, 0, 0x00040004) := by decide
/-- Row RR21_sltu. -/
theorem test_RR21_sltu : seen 0x0109502B [(8, 0xFFFFFFFF), (9, 1)] 10 = (0, 0, 0x00040004) := by decide
/-- Row RR22_sltu. -/
theorem test_RR22_sltu : seen 0x0109502B [(8, 1), (9, 0xFFFFFFFF)] 10 = (1, 0, 0x00040004) := by decide
/-- Row RR24: register 0 as destination. -/
theorem test_RR24_add_zero : seen 0x01090020 [(8, 0x7FFFFFFF), (9, 1)] 0 = (0, 2, 0x00040004) := by decide
/-- Row RR25: a source that is the destination. -/
theorem test_RR25_add_same : seen 0x01084020 [(8, 0x40000000)] 8 = (0x80000000, 2, 0x00040004) := by decide

/-! ### Shifts (2.2): `$t2`, mask, `pc` -/

/-- Row SH1_sll. -/
theorem test_SH1_sll : seen 0x00095100 [(8, 0), (9, 0x12345678)] 10 = (0x23456780, 0, 0x00040004) := by decide
/-- Row SH2_sll. -/
theorem test_SH2_sll : seen 0x000957C0 [(8, 0), (9, 3)] 10 = (0x80000000, 0, 0x00040004) := by decide
/-- Row SH4_srl. -/
theorem test_SH4_srl : seen 0x00095102 [(8, 0), (9, 0x80000000)] 10 = (0x08000000, 0, 0x00040004) := by decide
/-- Row SH5_srl. -/
theorem test_SH5_srl : seen 0x000957C2 [(8, 0), (9, 0xFFFFFFFF)] 10 = (1, 0, 0x00040004) := by decide
/-- Row SH6_sra. -/
theorem test_SH6_sra : seen 0x00095103 [(8, 0), (9, 0x80000000)] 10 = (0xF8000000, 0, 0x00040004) := by decide
/-- Row SH8_sra. -/
theorem test_SH8_sra : seen 0x00095103 [(8, 0), (9, 0x70000000)] 10 = (0x07000000, 0, 0x00040004) := by decide
/-- Row SH10_sllv. -/
theorem test_SH10_sllv : seen 0x01095004 [(8, 0x24), (9, 1)] 10 = (0x10, 0, 0x00040004) := by decide
/-- Row SH11_srlv. -/
theorem test_SH11_srlv : seen 0x01095006 [(8, 0xFFFFFFFF), (9, 0x80000000)] 10 = (1, 0, 0x00040004) := by decide
/-- Row SH12_srav. -/
theorem test_SH12_srav : seen 0x01095007 [(8, 0x21), (9, 0x80000000)] 10 = (0xC0000000, 0, 0x00040004) := by decide
/-- Row SH14_sll_rs. -/
theorem test_SH14_sll_rs : seen 0x00A95100 [(8, 0), (9, 1)] 10 = (0x10, 0, 0x00040004) := by decide

/-! ### Immediates (2.3): `$t1`, mask, `pc` -/

/-- Row IM1_addi. -/
theorem test_IM1_addi : seen 0x21090001 [(8, 0x7FFFFFFF)] 9 = (0x80000000, 2, 0x00040004) := by decide
/-- Row IM3_addi. -/
theorem test_IM3_addi : seen 0x2109FFFD [(8, 5)] 9 = (2, 0, 0x00040004) := by decide
/-- Row IM4_addiu. -/
theorem test_IM4_addiu : seen 0x2509FFFF [(8, 0)] 9 = (0xFFFFFFFF, 0, 0x00040004) := by decide
/-- Row IM5_addiu. -/
theorem test_IM5_addiu : seen 0x25090001 [(8, 0x7FFFFFFF)] 9 = (0x80000000, 0, 0x00040004) := by decide
/-- Row IM6_slti. -/
theorem test_IM6_slti : seen 0x2909FFFF [(8, 0xFFFFFFFE)] 9 = (1, 0, 0x00040004) := by decide
/-- Row IM7_slti. -/
theorem test_IM7_slti : seen 0x29098000 [(8, 0)] 9 = (0, 0, 0x00040004) := by decide
/-- Row IM9_sltiu. -/
theorem test_IM9_sltiu : seen 0x2D09FFFF [(8, 0xFFFFFFFE)] 9 = (1, 0, 0x00040004) := by decide
/-- Row IM12_sltiu. -/
theorem test_IM12_sltiu : seen 0x2D098000 [(8, 0x8000)] 9 = (1, 0, 0x00040004) := by decide
/-- Row IM14_andi. -/
theorem test_IM14_andi : seen 0x31098000 [(8, 0xFFFFFFFF)] 9 = (0x8000, 0, 0x00040004) := by decide
/-- Row IM15_ori. -/
theorem test_IM15_ori : seen 0x35098000 [(8, 0x12340000)] 9 = (0x12348000, 0, 0x00040004) := by decide
/-- Row IM17_xori. -/
theorem test_IM17_xori : seen 0x3909FFFF [(8, 0x12345678)] 9 = (0x1234A987, 0, 0x00040004) := by decide
/-- Row IM18_lui. -/
theorem test_IM18_lui : seen 0x3C091234 [(8, 0)] 9 = (0x12340000, 0, 0x00040004) := by decide
/-- Row IM19_lui_rs. -/
theorem test_IM19_lui_rs : seen 0x3D098000 [(8, 0xFFFFFFFF)] 9 = (0x80000000, 0, 0x00040004) := by decide

/-! ### Loads and stores (2.4). Memory holds `80 7F FE 01` at 0x10000000 for the loads. -/

/-- `$t1` and the mask after one step, with the loads' memory and `$t1 = 0x0000DEAD`. -/
def loaded (w base : Word) : Word × BitVec 8 :=
  let t := run w [(8, base), (9, 0x0000DEAD)] [(0x10000000, 0x807FFE01)]
  (readReg t 9, t.mask)

/-- The six bytes from `a` on, the pages and the mask after one step, with `$t1 = 0x12345678` and an empty memory. -/
def stored (w base a : Word) : List Byte × List PageIndex × BitVec 8 :=
  let t := run w [(8, base), (9, 0x12345678)] []
  (bytesAt t a 6, t.pages, t.mask)

/-- Row LS1_lb. -/
theorem test_LS1_lb : loaded 0x81090000 0x10000000 = (0xFFFFFF80, 0) := by decide
/-- Row LS2_lb. -/
theorem test_LS2_lb : loaded 0x81090001 0x10000000 = (0x0000007F, 0) := by decide
/-- Row LS3_lbu. -/
theorem test_LS3_lbu : loaded 0x91090000 0x10000000 = (0x00000080, 0) := by decide
/-- Row LS6_lh. -/
theorem test_LS6_lh : loaded 0x85090002 0x10000000 = (0xFFFFFE01, 0) := by decide
/-- Row LS7_lh. -/
theorem test_LS7_lh : loaded 0x85090001 0x10000000 = (0x0000DEAD, 8) := by decide
/-- Row LS8_lhu. -/
theorem test_LS8_lhu : loaded 0x95090000 0x10000000 = (0x0000807F, 0) := by decide
/-- Row LS9_lhu. -/
theorem test_LS9_lhu : loaded 0x95090003 0x10000000 = (0x0000DEAD, 8) := by decide
/-- Row LS11_lw. -/
theorem test_LS11_lw : loaded 0x8D090000 0x10000001 = (0x0000DEAD, 8) := by decide
/-- Row LS12_lw. -/
theorem test_LS12_lw : loaded 0x8D09FFFC 0x10000004 = (0x807FFE01, 0) := by decide
/-- Row LS13: a load allocates its page. -/
theorem test_LS13_lw_pages : pagesOf 0x8D090000 [(8, 0x2000FFFC)] = [0x0004, 0x2000] := by decide
/-- Row LS14: the base is the destination. -/
theorem test_LS14_lw_base : readReg (run 0x8D080004 [(8, 0x10000000)] [(0x10000004, 0xAA000055)]) 8 = 0xAA000055 := by decide

/-- Row LS16_sb. -/
theorem test_LS16_sb : stored 0xA1090001 0x10000000 0x10000000 =
    ([0x00, 0x78, 0x00, 0x00, 0x00, 0x00], [0x0004, 0x1000], 0) := by decide
/-- Row LS17_sh. -/
theorem test_LS17_sh : stored 0xA5090002 0x10000000 0x10000001 =
    ([0x00, 0x56, 0x78, 0x00, 0x00, 0x00], [0x0004, 0x1000], 0) := by decide
/-- Row LS18_sh. -/
theorem test_LS18_sh : stored 0xA5090003 0x10000000 0x10000002 =
    ([0x00, 0x00, 0x00, 0x00, 0x00, 0x00], [0x0004], 8) := by decide
/-- Row LS19_sw. -/
theorem test_LS19_sw : stored 0xAD090000 0x10000000 0x0FFFFFFF =
    ([0x00, 0x12, 0x34, 0x56, 0x78, 0x00], [0x0004, 0x1000], 0) := by decide
/-- Row LS20_sw. -/
theorem test_LS20_sw : stored 0xAD090000 0x10000002 0x10000001 =
    ([0x00, 0x00, 0x00, 0x00, 0x00, 0x00], [0x0004], 8) := by decide
/-- Row LS22_sb. -/
theorem test_LS22_sb : stored 0xA1090000 0xFFFFFFFF 0xFFFFFFFF =
    ([0x78, 0x00, 0x00, 0x00, 0x00, 0x00], [0x0004, 0xFFFF], 0) := by decide

/-! ### Control transfer (2.5): `pc` and the mask -/

/-- `pc` and the mask after one step at `pc`. -/
def went (pc w : Word) (regs : List (RegName × Word)) : Word × BitVec 8 := ((runAt pc w regs).pc, (runAt pc w regs).mask)

/-- Row CT1_beq. -/
theorem test_CT1_beq : went 0x00040000 0x11490002 [(9, 7), (10, 7)] = (0x00040008, 0) := by decide
/-- Row CT2_beq. -/
theorem test_CT2_beq : went 0x00040000 0x11490002 [(9, 7), (10, 8)] = (0x00040004, 0) := by decide
/-- Row CT4_beq_reach. -/
theorem test_CT4_beq_reach : went 0x00040000 0x10008000 [] = (0x00020000, 0) := by decide
/-- Row CT6_beq_wrap. -/
theorem test_CT6_beq_wrap : went 0x00000000 0x1000FFFF [] = (0xFFFFFFFC, 0) := by decide
/-- Row CT7_bne. -/
theorem test_CT7_bne : went 0x00040020 0x1549FFFD [(9, 2), (10, 10)] = (0x00040014, 0) := by decide
/-- Row CT8_bne. -/
theorem test_CT8_bne : went 0x00040020 0x1549FFFD [(9, 10), (10, 10)] = (0x00040024, 0) := by decide
/-- Row CT9_j. -/
theorem test_CT9_j : went 0x00040000 0x08010002 [] = (0x00040008, 0) := by decide
/-- Row CT10_j_region. -/
theorem test_CT10_j_region : went 0x1FFFFFFC 0x0BFFFFFF [] = (0x1FFFFFFC, 0) := by decide
/-- Row CT12_jal_wrap. -/
theorem test_CT12_jal_wrap : went 0xFFFFFFFC 0x0C000000 [] = (0xF0000000, 0) := by decide
/-- Row CT14_jr. -/
theorem test_CT14_jr : went 0x00040000 0x03E00008 [(31, 0x00040005)] = (0x00040008, 4) := by decide
/-- Row CT16_jr_wrap. -/
theorem test_CT16_jr_wrap : went 0x00040000 0x01000008 [(8, 0xFFFFFFFD)] = (0x00000000, 4) := by decide
/-- Row CT18_jr_unused. -/
theorem test_CT18_jr_unused : went 0x00040000 0x03E950C8 [(31, 0x00040010)] = (0x00040010, 0) := by decide
/-- Row CT11: the link. -/
theorem test_CT11_jal : seen 0x0C010004 [] 31 = (0x00040004, 0, 0x00040010) := by decide

/-! ### System instructions and invalid words (2.6): mask, `pc`, `cycle`, `halted` -/

/-- Mask, `pc`, `cycle` and `halted` after one step at 0x00040000. -/
def system (w : Word) : BitVec 8 × Word × Nat × Bool :=
  ((run w [] []).mask, (run w [] []).pc, (run w [] []).cycle, (run w [] []).halted)

/-- Row SY1_syscall. -/
theorem test_SY1_syscall : system 0x0000000C = (128, 0x00040000, 1, true) := by decide
/-- Row SY2_syscall_code. -/
theorem test_SY2_syscall_code : system 0x03FFFFCC = (128, 0x00040000, 1, true) := by decide
/-- Row SY3_break. -/
theorem test_SY3_break : system 0x0000000D = (32, 0x00040004, 1, false) := by decide
/-- Row SY4_break_code. -/
theorem test_SY4_break_code : system 0x0000FFCD = (32, 0x00040004, 1, false) := by decide
/-- Row SY5_invalid. -/
theorem test_SY5_invalid : system 0x00000009 = (1, 0x00040004, 1, false) := by decide
/-- Row SY7_invalid. -/
theorem test_SY7_invalid : system 0xFFFFFFFF = (1, 0x00040004, 1, false) := by decide
/-- Row SY10_nop. -/
theorem test_SY10_nop : system 0x00000000 = (0, 0x00040004, 1, false) := by decide

/-! ### The step, reset, the state after reset (2.7) -/

/-- Row ST1: the first step from reset executes a zero word. -/
theorem test_ST1_pages : (hostStep State.reset).pages = [0x0004] := by decide
theorem test_ST1_pc : ((hostStep State.reset).pc, (hostStep State.reset).cycle, (hostStep State.reset).mask) = (0x00040004, 1, 0) := by
  decide
/-- Row ST2: `pc` wraps. -/
theorem test_ST2 : ((hostStep (start 0xFFFFFFFC [] [])).pc, (hostStep (start 0xFFFFFFFC [] [])).pages) = (0x00000000, [0xFFFF]) := by
  decide
/-- The memory of the reset state is in its canonical form. -/
theorem test_reset_memory_wf : Memory.wf State.reset.mem = true ∧ Pages.wf State.reset.pages = true := by decide
/-- `withFetchWord` places what the next step runs (row RR3's word on registers of 0). -/
theorem test_withFetchWord : hostStep (State.reset.withFetchWord 32 0x0000000D) = run 0x0000000D [] [] := by decide
theorem test_withFetchWord_byte : byteAt (State.reset.withFetchWord 32 0x01095020) 0x00040002 = 0x50 := by decide

/-! ### The memory primitives (2.8) -/

/-- Row MM1: a word across a page edge. -/
theorem test_MM1 : (bytesAt (setWord 0x1000FFFE 0x11223344 State.reset) 0x1000FFFE 4,
    (setWord 0x1000FFFE 0x11223344 State.reset).pages) = ([0x11, 0x22, 0x33, 0x44], [0x1000, 0x1001]) := by decide
/-- Row MM3: a word across the end of the address space. -/
theorem test_MM3 : (bytesAt (setWord 0xFFFFFFFE 0xAABBCCDD State.reset) 0xFFFFFFFE 4,
    (setWord 0xFFFFFFFE 0xAABBCCDD State.reset).pages) = ([0xAA, 0xBB, 0xCC, 0xDD], [0x0000, 0xFFFF]) := by decide
/-- Row MM4: an unaligned halfword. -/
theorem test_MM4 : (getHalf 0x21 (setWord 0x20 0x11223344 State.reset)).1 = 0x2233 := by decide
/-- Row MM5: high bits are dropped. -/
theorem test_MM5 : ((getHalf 0x30 (setHalf 0x30 0x1ABCD State.reset)).1, (getByte 0x32 (setByte 0x32 0x1FF State.reset)).1) =
    (0xABCD, 0xFF) := by decide
/-- Row MM6: a read allocates its page. -/
theorem test_MM6 : ((getByte 0x50000000 State.reset).1, (getByte 0x50000000 State.reset).2.pages) = (0, [0x5000]) := by decide
/-- Row MM7: an empty dump allocates nothing. -/
theorem test_MM7 : dump 0x60000000 0 State.reset = ([], State.reset) := by decide
/-- Writing 0 unlists a byte, so that equal memories are equal data (R63). -/
theorem test_store_zero_unlists : (setByte 5 0 (setByte 5 7 State.reset)).mem = [] := by decide

/-! ### The assembler (1.7, 1.8, 2.9) -/

/-- What the tests look at: words, bytes, source map and warnings, or the error's line and kind. -/
def built (cfg : AsmConfig) (source : String) :
    List Word × List Byte × List (Nat × Nat) × List AsmWarning × Option AsmError :=
  match assemble source cfg with
  | .ok (image, warnings) => (image.textWords, image.dataBytes, image.sourceMap, warnings, none)
  | .error e => ([], [], [], [], some e)

/-- The words of a source under the default configuration. -/
def words (source : String) : List Word := (built {} source).1
/-- The error of a source under the default configuration. -/
def errorOf (source : String) : Option AsmError := (built {} source).2.2.2.2

/-- Row scenario5. -/
theorem test_scenario5 : words ".text\nj label\nnop\nlabel: syscall" = [0x08010002, 0x00000000, 0x0000000C] := by decide
/-- Row scenario6. -/
theorem test_scenario6 : words ".data\nv: .word 0\n.text\nlui $t0, v" = [0x3C081000] := by decide
/-- Row AS4_move. -/
theorem test_AS4_move : words ".text\nmove $t0, $t1" = [0x01204021] := by decide
/-- Row AS5_sllv. -/
theorem test_AS5_sllv : words ".text\nsllv $t0, $t1, $t2" = [0x01494004] := by decide
/-- Row AS8_jal. -/
theorem test_AS8_jal : words ".text\njal f\nf: jr $ra" = [0x0C010001, 0x03E00008] := by decide
/-- Row AS9_beq. -/
theorem test_AS9_beq : words ".text\nbeq $t0, $t1, L\nnop\nL: syscall" = [0x11280001, 0x00000000, 0x0000000C] := by decide
/-- Row AS10_self. -/
theorem test_AS10_self : words ".text\nL: beq $0, $0, L" = [0x1000FFFF] := by decide
/-- Row AS19_case. -/
theorem test_AS19_case : words ".TEXT\nADD $T0, $T1, $T2\nLoop: J loop" = [0x012A4020, 0x08010001] := by decide
/-- Row AS21_031. -/
theorem test_AS21_031 : words ".text\nadd $031, $t0, $t1" = [0x0109F820] := by decide
/-- Row AS23_noOffset. -/
theorem test_AS23_noOffset : words ".text\nlw $t0, ($t1)" = [0x8D280000] := by decide
/-- Row AS25_char. -/
theorem test_AS25_char : words ".text\naddiu $t0, $0, 'a'" = [0x24080061] := by decide
/-- Row AS11: data, padding and the source map. -/
theorem test_AS11_align : built {} ".data\n.byte 1\n.align 2\ny: .byte 2" =
    ([], [0x01, 0x00, 0x00, 0x00, 0x02], [(0x10000000, 2), (0x10000001, 3), (0x10000004, 4)], [], none) := by decide
/-- Row AS12: padding in the text image is a zero word. -/
theorem test_AS12_textAlign : words ".text\nnop\n.align 3\nz: syscall" = [0x00000000, 0x00000000, 0x0000000C] := by decide
/-- Row AS15. -/
theorem test_AS15_values : (built {} ".data\n.half 0x1234, -1\n.byte 255, -128, 'A'").2.1 = [0x12, 0x34, 0xFF, 0xFF, 0xFF, 0x80, 0x41] := by decide
/-- Row AS16. -/
theorem test_AS16_strings : (built {} ".data\ns: .ascii \"Hi\\n\"\nt: .asciiz \"A\"").2.1 = [0x48, 0x69, 0x0A, 0x41, 0x00] := by decide
/-- Row AS17. -/
theorem test_AS17_labels : (built {} ".data\np: .word p, q\nq: .word 0").2.1 =
    [0x10, 0x00, 0x00, 0x00, 0x10, 0x00, 0x00, 0x08, 0x00, 0x00, 0x00, 0x00] := by decide
/-- Row AS28. -/
theorem test_AS28_unknownDirective : built {} ".globl main\n.text\nmain: syscall" =
    ([0x0000000C], [], [(0x00040000, 3)], [{ line := 1, kind := .unknownDirective }], none) := by decide
/-- Row AS29. -/
theorem test_AS29_jumpRegion : built {} ".text\nj 0x10000000" =
    ([0x08000000], [], [(0x00040000, 2)], [{ line := 2, kind := .jumpRegion }], none) := by decide
/-- Row MM9: overlapping segments, the later line wins. -/
theorem test_MM9_overlap : built { textStart := 0x10000000 } ".data\n.word 0x11111111\n.text\nnop" =
    ([0x00000000], [0x11, 0x11, 0x11, 0x11], [(0x10000000, 4)], [], none) := by decide
/-- Row AE1_li. -/
theorem test_AE1_li : errorOf ".text\nli $t0, 5" = some { line := 2, kind := .unsupportedPseudo } := by decide
/-- Row AE3_break. -/
theorem test_AE3_break : errorOf ".text\nbreak" = some { line := 2, kind := .unknownInstruction } := by decide
/-- Row AE5_register. -/
theorem test_AE5_register : errorOf ".text\nadd $32, $t0, $t1" = some { line := 2, kind := .badRegister } := by decide
/-- Row AE7_signed. -/
theorem test_AE7_signed : errorOf ".text\naddi $t0, $t0, 0xFFFF" = some { line := 2, kind := .outOfRange } := by decide
/-- Row AE8_unsigned. -/
theorem test_AE8_unsigned : errorOf ".text\nori $t0, $t0, -1" = some { line := 2, kind := .outOfRange } := by decide
/-- Row AE11_comment. -/
theorem test_AE11_comment : errorOf ".data\n.ascii \"a#b\"" = some { line := 2, kind := .syntaxError } := by decide
/-- Row AE13_duplicate. -/
theorem test_AE13_duplicate : errorOf ".text\nL: nop\nL: nop" = some { line := 3, kind := .duplicateLabel } := by decide
/-- Row AE14_undefined. -/
theorem test_AE14_undefined : errorOf ".text\nj nowhere" = some { line := 2, kind := .undefinedSymbol } := by decide
/-- Row AE16_misaligned. -/
theorem test_AE16_misaligned : errorOf ".text\nj 0x40002" = some { line := 2, kind := .jumpMisaligned } := by decide
/-- Row AE17_segment. -/
theorem test_AE17_segment : errorOf ".data\nnop" = some { line := 2, kind := .instructionOutsideText } := by decide
/-- Row AE18_data. -/
theorem test_AE18_data : errorOf ".text\n.word 1" = some { line := 2, kind := .dataOutsideData } := by decide
/-- Row AE20_range. -/
theorem test_AE20_range : errorOf ".data\n.word 0x100000000" = some { line := 2, kind := .outOfRange } := by decide
/-- Row AE23_few. -/
theorem test_AE23_few : errorOf ".text\nadd $t0, $t1" = some { line := 2, kind := .wrongOperands } := by decide
/-- Row AE24_many. -/
theorem test_AE24_many : errorOf ".text\nadd $t0, $t1, $t2, $t3" = some { line := 2, kind := .trailingTokens } := by decide
/-- Row AE26_escape. -/
theorem test_AE26_escape : errorOf ".data\n.ascii \"\\q\"" = some { line := 2, kind := .unknownEscape } := by decide
/-- Row AE27_minus. -/
theorem test_AE27_minus : errorOf ".text\nlw $t0, -($t1)" = some { line := 2, kind := .badInteger } := by decide
/-- Row AE28_token. -/
theorem test_AE28_token : errorOf ".text\n5" = some { line := 2, kind := .unexpectedToken } := by decide
/-- Row AE30. -/
theorem test_AE30_overflow : (built { textStart := 0xFFFFFFFC } ".text\nnop").2.2.2.2 = some { line := 2, kind := .segmentOverflow } := by decide
/-- Rows AB30 to AB33: the branch range (R351), at both ends of it. -/
theorem test_AB31_range : (relocBranch 0 (4 + 4 * 32767)).toOption = some 0x7FFF ∧ (relocBranch 0 (4 + 4 * 32768)).toOption = none ∧
    (relocBranch (4 * 32767) 0).toOption = some 0x8000 ∧ (relocBranch (4 * 32768) 0).toOption = none := by decide

/-! ### The driver (spec/60_exceptions.md R420 to R423) -/

/-- Program 4 of 3: words and what its first driver run comes to. The driver stops on INT_OVERFLOW with one hook call. -/
def overflowing : State :=
  start 0x0004000C [(8, 0x7FFFFFFF)] [(0x0004000C, 0x21090001), (0x00040010, 0x0000000C)]

theorem test_driver_overflow : ((drive true [false, false] overflowing).status, (drive true [false, false] overflowing).state.cycle,
    (drive true [false, false] overflowing).hooks.map (fun c => c.mask)) = (.stopped, 1, [2]) := by decide
/-- A stop request raised during a clean step stops the driver with no hook call. -/
theorem test_driver_stopRequest : ((drive true [true, false] State.reset).status, (drive true [true, false] State.reset).state.cycle,
    (drive true [true, false] State.reset).hooks) = (.stopped, 1, []) := by decide
/-- A step the host issues itself calls an installed hook exactly once when it raises or halts (R423), and not otherwise. -/
theorem test_hostStep_hook : ((applyHostOp true .step (start 0x00040000 [] [(0x00040000, 0x0000000C)])).hooks.map (fun c => (c.mask, c.view.halted)),
    (applyHostOp true .step State.reset).hooks, (applyHostOp false .step (start 0x00040000 [] [(0x00040000, 0x0000000C)])).hooks) =
      ([(128, true)], [], []) := by decide
/-- A halted machine stepped by the host calls it after each step (R139, R423). -/
theorem test_runHost_hook : ((runHost true [.step, .view, .step] (start 0x00040000 [] [(0x00040000, 0x0000000C)])).hooks.map (fun c => c.view.cycle)) =
    [1, 2] := by decide
/-- Row ST3's words: two steps, the second halts. -/
theorem test_driver_completes : ((drive false [false, false] (start 0x00040000 [] [(0x00040000, 0x24080005), (0x00040004, 0x0000000C)])).state.halted,
    (drive false [false, false] (start 0x00040000 [] [(0x00040000, 0x24080005), (0x00040004, 0x0000000C)])).state.mask) = (true, 128) := by
  decide

/-! ### Witnesses: concrete states and operands that meet the hypotheses of a statement, one for each clause -/

/-- Registers for the witnesses: `$t0` = `a`, `$t1` = `b`, `pc` at 0x00040000. -/
def two (a b : Word) : State := start 0x00040000 [(8, a), (9, b)] []

theorem aligned_two (a b : Word) : PcAligned (two a b) := by
  simp [PcAligned, two, start]

theorem witness_EncodeOfDecodeIsTheWord : decode 0x010950E0 = .instr (.add 8 9 10 3) := by decide

theorem witness_UnusedBitsChangeNothing : decode 0x01095020 = .instr (.add 8 9 10 0) ∧
    (0x01095020 ^^^ 0x010957E0) &&& usedBits (.add 8 9 10 0) = 0 := by decide

theorem witness_UnusedBitsChangeNothing_jr : decode 0x03E00008 = .instr (.jr 31 0 0 0) ∧
    (0x03E00008 ^^^ 0x03FFFFC8) &&& usedBits (.jr 31 0 0 0) = 0 := by decide

theorem witness_StepRunsTheDecodedInstruction :
    decode (wordAt (start 0x00040000 [] [(0x00040000, 0x01095020)]) (start 0x00040000 [] [(0x00040000, 0x01095020)]).pc) =
      .instr (.add 8 9 10 0) := by decide

theorem witness_InvalidWordOnlyRaises : PcAligned (start 0x00040000 [] [(0x00040000, 0x00000009)]) ∧
    ∀ i : Instr, decode (wordAt (start 0x00040000 [] [(0x00040000, 0x00000009)])
      (start 0x00040000 [] [(0x00040000, 0x00000009)]).pc) ≠ .instr i := by
  have h : decode (wordAt (start 0x00040000 [] [(0x00040000, 0x00000009)])
      (start 0x00040000 [] [(0x00040000, 0x00000009)]).pc) = .invalidFunct 0x09 := by decide
  exact ⟨by unfold PcAligned; decide, fun i => by rw [h]; simp⟩

/-- `add`, overflowing. -/
theorem witness_AddWritesTheWrappedSumAndFlagsOverflow : PcAligned (two 0x7FFFFFFF 1) ∧
    LeavesSigned ((readReg (two 0x7FFFFFFF 1) 8).toInt + (readReg (two 0x7FFFFFFF 1) 9).toInt) :=
  ⟨aligned_two _ _, by unfold LeavesSigned; decide⟩

/-- `add`, at the end of the range and not overflowing. -/
theorem witness_AddWritesTheWrappedSumAndFlagsOverflow_fits : PcAligned (two 0x7FFFFFFE 1) ∧
    ¬ LeavesSigned ((readReg (two 0x7FFFFFFE 1) 8).toInt + (readReg (two 0x7FFFFFFE 1) 9).toInt) :=
  ⟨aligned_two _ _, by unfold LeavesSigned; decide⟩

theorem witness_SubWritesTheWrappedDifferenceAndFlagsOverflow : PcAligned (two 0x80000000 1) ∧
    LeavesSigned ((readReg (two 0x80000000 1) 8).toInt - (readReg (two 0x80000000 1) 9).toInt) :=
  ⟨aligned_two _ _, by unfold LeavesSigned; decide⟩

theorem witness_SubWritesTheWrappedDifferenceAndFlagsOverflow_fits : PcAligned (two 0x80000001 1) ∧
    ¬ LeavesSigned ((readReg (two 0x80000001 1) 8).toInt - (readReg (two 0x80000001 1) 9).toInt) :=
  ⟨aligned_two _ _, by unfold LeavesSigned; decide⟩

/-- The statements on register, shift and byte instructions ask only for an aligned `pc`. -/
theorem witness_AdduAndSubuWrapWithoutFlagging : PcAligned (two 0xFFFFFFFF 2) := aligned_two _ _
theorem witness_LogicalRegisterInstructionsAreBitwise : PcAligned (two 0xF0F0F0F0 0x0FF00FF0) := aligned_two _ _
theorem witness_SetOnLessThanComparesSignedAndUnsigned : PcAligned (two 0xFFFFFFFF 1) := aligned_two _ _
theorem witness_ConstantShiftsMoveBits : PcAligned (two 0 0x80000001) := aligned_two _ _
theorem witness_VariableShiftsUseTheLowFiveBits : PcAligned (two 36 0x80000001) := aligned_two _ _
theorem witness_SetOnLessThanImmediateComparesSignedAndUnsigned : PcAligned (two 0xFFFFFFFE 0) := aligned_two _ _
theorem witness_LogicalImmediateInstructionsZeroExtend : PcAligned (two 0x12345678 0) := aligned_two _ _
theorem witness_LoadByteExtendsTheByte : PcAligned (two 0x10000001 0) := aligned_two _ _
theorem witness_BranchesCompareAndAddToTheirOwnAddress : PcAligned (two 7 7) := aligned_two _ _
theorem witness_BreakOnlyRaises : PcAligned (two 0 0) := aligned_two _ _

/-- `addi`, overflowing at the largest value. -/
theorem witness_AddiAndAddiuAddTheSignedImmediate : PcAligned (two 0x7FFFFFFF 0) ∧
    LeavesSigned ((readReg (two 0x7FFFFFFF 0) 8).toInt + (1 : BitVec 16).toInt) :=
  ⟨aligned_two _ _, by unfold LeavesSigned; decide⟩

theorem witness_AddiAndAddiuAddTheSignedImmediate_fits : PcAligned (two 0x7FFFFFFF 0) ∧
    ¬ LeavesSigned ((readReg (two 0x7FFFFFFF 0) 8).toInt + (0xFFFF : BitVec 16).toInt) :=
  ⟨aligned_two _ _, by unfold LeavesSigned; decide⟩

/-- A halfword at an odd address. -/
theorem witness_AccessAddressAndAlignmentAreCheckedFirst_half : PcAligned (two 0x10000000 0) ∧
    (effectiveAddress (two 0x10000000 0) 8 3).toNat % 2 ≠ 0 := ⟨aligned_two _ _, by decide⟩

/-- A word at an even address that is no multiple of 4. -/
theorem witness_AccessAddressAndAlignmentAreCheckedFirst_word : PcAligned (two 0x1000FFFE 0) ∧
    (effectiveAddress (two 0x1000FFFE 0) 8 0).toNat % 4 ≠ 0 := ⟨aligned_two _ _, by decide⟩

/-- A byte access of each kind answers a next state. -/
theorem witness_AccessAddressAndAlignmentAreCheckedFirst_byte :
    (∃ t, exec (.lb 8 9 0) (two 0x10000001 0) = .next t) ∧ (∃ t, exec (.lbu 8 9 0) (two 0x10000001 0) = .next t) ∧
      ∃ t, exec (.sb 8 9 0) (two 0x10000001 0) = .next t := ⟨⟨_, rfl⟩, ⟨_, rfl⟩, ⟨_, rfl⟩⟩

theorem witness_LoadHalfwordExtendsTheHalfword : PcAligned (two 0x10000000 0) ∧
    (effectiveAddress (two 0x10000000 0) 8 0xFFFE).toNat % 2 = 0 := ⟨aligned_two _ _, by decide⟩

theorem witness_LoadWordReadsTheBigEndianWord : PcAligned (two 0x10000004 0) ∧
    (effectiveAddress (two 0x10000004 0) 8 0xFFFC).toNat % 4 = 0 := ⟨aligned_two _ _, by decide⟩

/-- The last byte, halfword and word of the address space. -/
theorem witness_StoresWriteTheLowBytesBigEndian : PcAligned (two 0xFFFFFFFC 0x12345678) ∧
    (effectiveAddress (two 0xFFFFFFFC 0x12345678) 8 2).toNat % 2 = 0 ∧
    (effectiveAddress (two 0xFFFFFFFC 0x12345678) 8 0).toNat % 4 = 0 := ⟨aligned_two _ _, by decide, by decide⟩

theorem witness_AStoreIsSeenByTheNextFetch : PcAligned (two 0x00040000 0x0000000C) ∧
    effectiveAddress (two 0x00040000 0x0000000C) 8 4 = (two 0x00040000 0x0000000C).pc + 4 := ⟨aligned_two _ _, by decide⟩

theorem witness_JrRoundsAMisalignedTargetUp : (readReg (two 0xFFFFFFFC 0) 8).toNat % 4 = 0 ∧
    (readReg (two 0xFFFFFFFD 0) 8).toNat % 4 ≠ 0 := by decide

/-- A step: the statements over all steps. -/
theorem witness_EveryStepCountsOneCycle : ∃ t, step (two 0 0) = .next t := ⟨hostStep (two 0 0), by rfl⟩
theorem witness_StepDoesNotReadHalted : ∃ t, step (start 0x00040000 [] [(0x00040000, 0x0000000C)]) = .next t :=
  ⟨hostStep (start 0x00040000 [] [(0x00040000, 0x0000000C)]), by rfl⟩
theorem witness_OnlySyscallHalts : ∃ t, step (start 0x00040000 [] [(0x00040000, 0x0000000C)]) = .next t ∧ t.halted = true :=
  ⟨hostStep (start 0x00040000 [] [(0x00040000, 0x0000000C)]), by rfl, by decide⟩
theorem witness_RegisterZeroIsAlwaysZero : ∃ t, step (two 0 0) = .next t := ⟨hostStep (two 0 0), by rfl⟩

theorem witness_AnInstructionChangesOnlyItsOwnParts : (∃ t, exec (.add 8 9 10 0) (two 1 2) = .next t) ∧
    destOf (.add 8 9 10 0) ≠ some 9 ∧ storeOf (.add 8 9 10 0) = none := ⟨⟨_, rfl⟩, by decide, by decide⟩
/-- A store, of which some bytes lie outside, and an instruction that is no syscall. -/
theorem witness_AnInstructionChangesOnlyItsOwnParts_store : (∃ t, exec (.sh 8 9 2) (two 0x10000000 5) = .next t) ∧
    storeOf (.sh 8 9 2) = some (8, 2, 2) ∧ 2 ≤ ((0x10000004 : Word) - effectiveAddress (two 0x10000000 5) 8 2).toNat ∧
    ∀ code : BitVec 20, Instr.sh 8 9 2 ≠ .syscall code := ⟨⟨_, rfl⟩, by decide, by decide, fun _ => by simp⟩
theorem witness_AnInstructionChangesOnlyItsOwnParts_page :
    (0x1000 : PageIndex) ∈ (start 0x00040000 [] [(0x10000000, 1)]).pages := by decide

theorem witness_EachStepRaisesAtMostItsOwnKind : PcAligned (start 0x00040000 [] [(0x00040000, 0x0000000D)]) ∧
    ∃ t, step (start 0x00040000 [] [(0x00040000, 0x0000000D)]) = .next t ∧
      decode (wordAt (start 0x00040000 [] [(0x00040000, 0x0000000D)])
        (start 0x00040000 [] [(0x00040000, 0x0000000D)]).pc) = .instr (.breakpoint 0) :=
  ⟨by unfold PcAligned; decide, hostStep (start 0x00040000 [] [(0x00040000, 0x0000000D)]), by rfl, by decide⟩

/-- Its second clause: the invalid word of `witness_InvalidWordOnlyRaises`, stepped. -/
theorem witness_EachStepRaisesAtMostItsOwnKind_invalid :
    ∃ t, step (start 0x00040000 [] [(0x00040000, 0x00000009)]) = .next t :=
  ⟨hostStep (start 0x00040000 [] [(0x00040000, 0x00000009)]), by rfl⟩

/-- An overflowing `addi`, a `syscall` and a misaligned `jr`: a step for each clause. -/
theorem witness_PcAfterAnException : PcAligned (two 0 0) ∧
    (∃ t, step (start 0x00040000 [(8, 0x7FFFFFFF)] [(0x00040000, 0x21090001)]) = .next t ∧ t.mask = 2) ∧
    (∃ t, step (start 0x00040000 [] [(0x00040000, 0x0000000C)]) = .next t ∧ t.mask = 128) ∧
    ∃ t, step (start 0x00040000 [(8, 0xFFFFFFFD)] [(0x00040000, 0x01000008)]) = .next t ∧ t.mask = 4 :=
  ⟨aligned_two _ _,
    ⟨hostStep (start 0x00040000 [(8, 0x7FFFFFFF)] [(0x00040000, 0x21090001)]), by rfl, by decide⟩,
    ⟨hostStep (start 0x00040000 [] [(0x00040000, 0x0000000C)]), by rfl, by decide⟩,
    ⟨hostStep (start 0x00040000 [(8, 0xFFFFFFFD)] [(0x00040000, 0x01000008)]), by rfl, by decide⟩⟩

/-- A machine about to run a `syscall`, with a word of data beside it. -/
def halting : State := start 0x00040000 [] [(0x00040000, 0x0000000C), (0x10000000, 0x807FFE01)]

theorem inv_halting : Inv halting where
  zero := by unfold ZeroHolds; decide
  aligned := by unfold PcAligned; decide
  store := by
    have h : StoreOk (start 0x00040000 [] []) :=
      ⟨by decide, by decide, fun a ha => absurd (show byteAt (start 0x00040000 [] []) a = 0 from rfl) ha⟩
    exact putBytes_storeOk _ _ (putBytes_storeOk _ _ h)
  scratch := by decide
  mask := by unfold MaskLegal; decide
  halts := by decide

theorem witness_EveryStepKeepsTheInvariant : Inv halting ∧ ∃ t, step halting = .next t :=
  ⟨inv_halting, hostStep halting, by rfl⟩
theorem witness_EveryHostOperationKeepsTheInvariant : Inv halting := inv_halting

/-- An image of both segments, the text over the second half of the data. -/
def overlapping : AssemblyImage where
  textStart := 0x10000004
  textSize := 4
  textWords := [0x0000000C]
  dataStart := 0x10000000
  dataSize := 8
  dataBytes := [1, 2, 3, 4, 5, 6, 7, 8]
  symbols := []
  sourceMap := []

theorem witness_LoadImagePutsDataThenText : overlapping.dataBytes.length ≤ 2 ^ 32 ∧
    4 * overlapping.textWords.length ≤ 2 ^ 32 := by decide
/-- A data byte with no text word over it, and a byte outside both ranges. -/
theorem witness_LoadImagePutsDataThenText_bytes :
    4 * overlapping.textWords.length ≤ (overlapping.dataStart + BitVec.ofNat 32 3 - overlapping.textStart).toNat ∧
    overlapping.dataBytes.length ≤ (0x10000008 - overlapping.dataStart).toNat ∧
    4 * overlapping.textWords.length ≤ ((0x10000008 : Word) - overlapping.textStart).toNat := by decide

/-- A no-op and a `syscall`: a stop is due after two steps and not after one. -/
def second : State := start 0x00040000 [] [(0x00040004, 0x0000000C)]

theorem witness_TheDriverStopsExactlyOnItsConditions : 2 ≤ [false, false, false].length ∧
    StopDue [false, false, false] second 2 ∧ ∀ k, 1 ≤ k → k < 2 → ¬ StopDue [false, false, false] second k := by
  refine ⟨by decide, .inl (by decide), fun k h1 h2 => ?_⟩
  obtain rfl : k = 1 := by omega
  unfold StopDue
  decide

/-- A stop request by the end of the first step. -/
theorem witness_TheDriverStopsExactlyOnItsConditions_request : StopDue [true] second 1 ∧
    ∀ k, 1 ≤ k → k < 1 → ¬ StopDue [true] second k := ⟨.inr (.inr (by decide)), fun k h1 h2 => by omega⟩

/-- One step, after which no stop is due. -/
theorem witness_TheDriverStopsExactlyOnItsConditions_running :
    ∀ k, 1 ≤ k → k ≤ [false].length → ¬ StopDue [false] second k := by
  intro k h1 h2
  obtain rfl : k = 1 := by simp at h2; omega
  unfold StopDue
  decide

theorem witness_ACompletedRunEndsOnASyscall : (drive true [false] halting).status = .stopped ∧
    (drive true [false] halting).state.mask = 128 := by decide

theorem witness_AMisalignedTextStartIsRejected : (0x00040002 : Word).toNat % 4 ≠ 0 := by decide

/-- A source that assembles, with one line encoded in pass 1. -/
theorem witness_ImageSizesMatchTheirContents : (assembleText {} "nop\nsyscall".toList).isOk = true := by decide

/-- One line encoded in pass 1, and one that waits for its label. -/
theorem witness_EncodedWordsStandAtTheirAddresses : (assembleText {} "l: nop\nj l".toList).isOk = true ∧
    (pass1 (prePass "l: nop\nj l".toList) (pass1Start {})).toOption.map (fun r => r.2.map (fun l => l.payload)) =
      some [.encoded 0x00000000, .unresolved
        { kind := .jump, opcode := 0x02, rs := 0, rt := 0, label := ['l'], addr := 0x00040004 }] := by decide

theorem witness_TheAssemblerWritesZeroInUnusedFields :
    (assembleInstr .add 0x00040000 [.regOpr ['$', '8'], .regOpr ['$', '9'], .regOpr ['$', '1', '0']]).toOption =
      some (.ready (.add 9 10 8 0) none) := by decide

/-- A branch at 0x00040000: its label bound at the upper end of the range, one word below the lower end, and not bound. -/
def waiting : Unresolved := { kind := .branch, opcode := 0x04, rs := 0, rt := 0, label := ['l'], addr := 0x00040000 }

theorem witness_BranchRelocationIsTheFlooredWordDistance : waiting.kind = .branch ∧
    symbolAddr waiting.label [] = none ∧
    symbolAddr waiting.label [(['l'], 0x00060003)] = some 0x00060003 ∧
    (4 * 32767 : Int) ≤ (0x00060003 : Nat) - (waiting.addr + 4) ∧
    ((0x00060003 : Nat) : Int) - (waiting.addr + 4) < 4 * 32767 + 4 ∧
    (4 * (-32769) : Int) ≤ (0x00020000 : Nat) - (waiting.addr + 4) ∧
    ((0x00020000 : Nat) : Int) - (waiting.addr + 4) < 4 * (-32769) + 4 := by decide

theorem witness_JumpRelocationReachesItsTargetInRegion : (0x10000000 : Nat) < 2 ^ 32 ∧ (0x10000000 : Nat) % 4 = 0 ∧
    (0x40002 : Nat) % 4 ≠ 0 := by decide

theorem witness_AnAssembledTakenBranchLandsOneWordEarly : PcAligned (two 0 0) ∧ (0x0003FFFC : Word).toNat % 4 = 0 ∧
    (relocBranch (two 0 0).pc.toNat (0x0003FFFC : Word).toNat).toOption = some 0xFFFE :=
  ⟨aligned_two _ _, by decide, by decide⟩

/-- `.align 2` after one byte of data. -/
theorem witness_AlignReservesExactlyThePadding : (integerValue ['2']).toOption = some 2 ∧
    (directiveLine 3 .align [.integer ['2']]
      { segment := .data, textAddr := 0x00040000, dataAddr := 0x10000001, symbols := [] }).toOption.map
        (fun r => (activeAddr r.1, r.2.size)) = some (0x10000004, 3) := by decide

theorem witness_LabelsAreOneSymbolInAnyCase : (bindLabel ['L', 'o'] (pass1Start {})).toOption.map (fun p => p.symbols) =
    some [(['l', 'o'], 0x00040000)] ∧ lower ['L', 'O'] = lower ['L', 'o'] ∧ lower ['x'] ≠ lower ['L', 'o'] := by decide

theorem witness_EveryMatchConsumesAndTheTokeniserFinishes :
    (nextToken ['$', 't', '0', ',']).toOption = some (some (.regOpr ['$', 't', '0']), [',']) ∧
    (['$', 't', '0', ','] : Text).length ≤ 4 := by decide


end Sys2Proof.Tests
end

section
/-! What one executed instruction can end in, as one of six shapes, and what each shape changes: registers, bytes, pages,
`halted` and the mask. The statements about the state (spec/10_state.md) are read off from it. -/

namespace Sys2Proof.Machine

/-! ### Operands and targets -/

/-- A byte access is never misaligned (spec/44_load_store.md R200). -/
@[simp] theorem alignedTo_one (a : Word) : alignedTo 1 a = true := by simp [alignedTo, Nat.mod_one]

/-- A taken branch keeps `pc` aligned (spec/30_encoding.md R108). -/
theorem branchTo_aligned {s : State} (imm : BitVec 16) (h : PcAligned s) : (branchTo s imm).toNat % 4 = 0 := by
  unfold PcAligned at h
  rw [branchTo, BitVec.toNat_add, BitVec.toNat_shiftLeft, Nat.shiftLeft_eq]
  omega

/-- A jump goes to a multiple of 4, wherever it stands (spec/30_encoding.md R107). -/
theorem jumpTo_aligned (s : State) (target : BitVec 26) : (jumpTo s target).toNat % 4 = 0 := by
  have hregion : (s.pc.toNat &&& 0xF0000000) % 2 ^ 2 = 0 := by rw [Nat.and_mod_two_pow]; simp
  have hoffset : (target.setWidth 32 <<< 2).toNat % 2 ^ 2 = 0 := by
    rw [BitVec.toNat_shiftLeft, Nat.shiftLeft_eq]
    omega
  show _ % 2 ^ 2 = 0
  rw [jumpTo, BitVec.toNat_or, BitVec.toNat_and, Nat.or_mod_two_pow, hoffset]
  simpa using hregion

/-! ### The shapes an instruction can end in -/

/-- What an instruction makes of a state, by what it writes: a register, a register read from memory, bytes, nothing but a
bit of the mask, nothing but `pc`, or `halted`. Each shape is tied to the fields of the instruction it comes from. -/
inductive ExecShape (i : Instr) (s : State) : State → Prop where
  /-- Arithmetic, logic, shifts, and `jal`: one register, INT_OVERFLOW where `c` holds. -/
  | writes (d : RegName) (v n : Word) (c : Bool) (hd : destOf i = some d) (hs : storeOf i = none)
      (hc : c = true → kindOf i = 2) (hn : PcAligned s → n.toNat % 4 = 0) :
      ExecShape i s (retire n (writeReg d v (raiseIf c .intOverflow s)))
  /-- An aligned load. -/
  | loads (d : RegName) (v a : Word) (width : Nat) (hd : destOf i = some d) (hs : storeOf i = none) :
      ExecShape i s (writeBack d v (touch a width s))
  /-- An aligned store. -/
  | stores (rs : RegName) (imm : BitVec 16) (bs : List Byte) (hs : storeOf i = some (rs, imm, bs.length)) :
      ExecShape i s (retire (seqPc s) (putBytes (effectiveAddress s rs imm) bs s))
  /-- `break`, and a misaligned load or store. -/
  | raises (e : ExceptionKind) (he : kindOf i = e.bit) : ExecShape i s (raiseOnly e s)
  /-- A branch, `j` or `jr`. -/
  | transfers (n : Word) (hs : storeOf i = none) (hn : PcAligned s → n.toNat % 4 = 0 ∨ kindOf i = 4) :
      ExecShape i s (retire n s)
  /-- `syscall`. -/
  | halts (hk : kindOf i = 128) (hs : storeOf i = none) :
      ExecShape i s (exitStep (raise .syscall { s with halted := true }))

/-- An instruction that writes a register and goes on with the next word. -/
theorem writeBack_shape {i : Instr} {s : State} (d : RegName) (v : Word) (hd : destOf i = some d)
    (hs : storeOf i = none) : ExecShape i s (writeBack d v s) :=
  .writes d v (seqPc s) false hd hs (fun h => nomatch h) seqPc_aligned

/-- The same with an overflow flagged. -/
theorem writeBack_raiseIf_shape {i : Instr} {s : State} (d : RegName) (v : Word) (c : Bool) (hd : destOf i = some d)
    (hs : storeOf i = none) (hk : kindOf i = 2) : ExecShape i s (writeBack d v (raiseIf c .intOverflow s)) := by
  rw [writeBack, seqPc, raiseIf_pc]
  exact .writes d v (seqPc s) c hd hs (fun _ => hk) seqPc_aligned

/-- A load, where only the wide ones can be misaligned. -/
theorem load_shape {i : Instr} {s : State} (width : Nat) (value : State → Word → Word) (rs rt : RegName)
    (imm : BitVec 16) (hd : destOf i = some rt) (hs : storeOf i = none) (hk : width = 1 ∨ kindOf i = 8) :
    ExecShape i s (load width value rs rt imm s) := by
  rcases load_cases width value rs rt imm s with ⟨-, e⟩ | ⟨hmis, e⟩ <;> rw [e]
  · exact .loads rt _ _ width hd hs
  · rcases hk with rfl | hk
    · simp at hmis
    · exact .raises .dataAlign hk

/-- A store of the bytes `bytes`, where only the wide ones can be misaligned. -/
theorem store_shape {i : Instr} {s : State} (width : Nat) (put : Word → Word → State → State)
    (bytes : Word → List Byte) (rs rt : RegName) (imm : BitVec 16) (hput : ∀ a v s, put a v s = putBytes a (bytes v) s)
    (hs : ∀ v, storeOf i = some (rs, imm, (bytes v).length)) (hk : width = 1 ∨ kindOf i = 8) :
    ExecShape i s (store width put rs rt imm s) := by
  rcases store_cases width put rs rt imm s with ⟨-, e⟩ | ⟨hmis, e⟩ <;> rw [e]
  · rw [hput]
    exact .stores rs imm _ (hs _)
  · rcases hk with rfl | hk
    · simp at hmis
    · exact .raises .dataAlign hk

/-- A conditional branch. -/
theorem branch_shape {i : Instr} {s : State} (c : Prop) [Decidable c] (imm : BitVec 16) (hs : storeOf i = none) :
    ExecShape i s (retire (if c then branchTo s imm else seqPc s) s) := by
  refine .transfers _ hs (fun h => .inl ?_)
  split
  · exact branchTo_aligned imm h
  · exact seqPc_aligned h

/-- Every instruction ends in one of the shapes. -/
theorem exec_shape {i : Instr} {s t : State} (h : exec i s = .next t) : ExecShape i s t := by
  cases i with
  | add | sub | addi => cases h; exact writeBack_raiseIf_shape _ _ _ rfl rfl rfl
  | lb | lbu => cases h; exact load_shape _ _ _ _ _ rfl rfl (.inl rfl)
  | lh | lhu | lw => cases h; exact load_shape _ _ _ _ _ rfl rfl (.inr rfl)
  | sb =>
    cases h
    exact store_shape _ _ (fun v => [v.extractLsb' 0 8]) _ _ _ (fun _ _ _ => rfl) (fun _ => rfl) (.inl rfl)
  | sh =>
    cases h
    exact store_shape _ _ (fun v => [v.extractLsb' 8 8, v.extractLsb' 0 8]) _ _ _ (fun _ _ _ => rfl) (fun _ => rfl)
      (.inr rfl)
  | sw => cases h; exact store_shape _ _ bytesOfWord _ _ _ (fun _ _ _ => rfl) (fun _ => rfl) (.inr rfl)
  | beq | bne => cases h; exact branch_shape _ _ rfl
  | j target => cases h; exact .transfers _ rfl (fun _ => .inl (jumpTo_aligned s target))
  | jal target => cases h; exact .writes 31 _ _ false rfl rfl (fun h => nomatch h) (fun _ => jumpTo_aligned s target)
  | jr => cases h; exact .transfers _ rfl (fun _ => .inr rfl)
  | breakpoint => cases h; exact .raises .breakpoint rfl
  | syscall => cases h; exact .halts rfl rfl
  | _ => cases h; exact writeBack_shape _ _ rfl rfl

/-! ### What an instruction changes -/

/-- A register that is not the destination keeps its value (spec/10_state.md R35). -/
theorem exec_readReg {i : Instr} {s t : State} (h : exec i s = .next t) {r : RegName} (hr : destOf i ≠ some r) :
    readReg t r = readReg s r := by
  have hne : ∀ {d : RegName}, destOf i = some d → r ≠ d := fun hd e => hr (e ▸ hd)
  cases exec_shape h with
  | writes d v n c hd =>
    rw [readReg_retire, readReg_writeReg, if_neg (hne hd)]
    exact readReg_congr (by simp) r
  | loads d v a width hd => rw [writeBack_regs, if_neg (hne hd), readReg_touch]
  | stores => rw [readReg_retire, readReg_putBytes]
  | raises e => rw [raiseOnly, readReg_retire]; exact readReg_congr (by simp) r
  | transfers => rw [readReg_retire]
  | halts => exact readReg_of_cleared (by simp) r

/-- An instruction that is no store keeps the memory as it is (spec/20_memory.md R76). -/
theorem exec_mem {i : Instr} {s t : State} (h : exec i s = .next t) (hi : storeOf i = none) : t.mem = s.mem := by
  cases exec_shape h with
  | stores rs imm bs hs => rw [hs] at hi; cases hi
  | writes | loads | raises | transfers | halts => simp [writeBack, raiseOnly]

/-- A store changes no byte outside those it stores (spec/20_memory.md R76). -/
theorem exec_bytesKeptOutside {i : Instr} {s t : State} (h : exec i s = .next t) {rs : RegName} {imm : BitVec 16}
    {width : Nat} (hi : storeOf i = some (rs, imm, width)) :
    BytesKeptOutside s t (effectiveAddress s rs imm) width := by
  intro a ha
  cases exec_shape h with
  | stores rs' imm' bs hs =>
    rw [hs] at hi
    cases hi
    rw [byteAt_retire, byteAt_putBytes_outside _ _ _ _ ha]
  | raises e => exact byteAt_congr (by simp [raiseOnly]) a
  | writes _ _ _ _ _ hs | loads _ _ _ _ _ hs | transfers _ hs | halts _ hs => rw [hs] at hi; cases hi

/-- No page leaves the page set (spec/10_state.md R45). -/
theorem exec_pages {i : Instr} {s t : State} (h : exec i s = .next t) {p : PageIndex} (hp : p ∈ s.pages) :
    p ∈ t.pages := by
  cases exec_shape h with
  | loads d v a width => simpa [writeBack, mem_touch_pages] using Or.inr hp
  | stores rs imm bs => simpa [mem_putBytes_pages] using Or.inr hp
  | writes | raises | transfers | halts => simpa [raiseOnly] using hp

/-- The form of the memory and the page set is kept (spec/20_memory.md R62, R63). -/
theorem exec_storeOk {i : Instr} {s t : State} (h : exec i s = .next t) (hs : StoreOk s) : StoreOk t := by
  cases exec_shape h with
  | loads d v a width => exact storeOk_congr (by simp [writeBack]) (by simp [writeBack]) (touch_storeOk a width hs)
  | stores rs imm bs => exact storeOk_congr (retire_mem _ _) (retire_pages _ _) (putBytes_storeOk _ bs hs)
  | writes | raises | transfers | halts => exact storeOk_congr (by simp [raiseOnly]) (by simp [raiseOnly]) hs

/-- From an aligned `pc` an instruction adds to the mask nothing, or the bit it can raise (spec/40_step.md R144). -/
theorem exec_mask {i : Instr} {s t : State} (h : exec i s = .next t) (hp : PcAligned s) :
    t.mask = s.mask ∨ t.mask = s.mask ||| kindOf i := by
  cases exec_shape h with
  | writes d v n c hd hs hc hn =>
    rw [retire_mask_of_aligned _ (hn hp), writeReg_mask, raiseIf_mask]
    cases c with
    | false => exact .inl (by simp)
    | true => exact .inr (by rw [hc rfl]; rfl)
  | loads =>
    rw [writeBack, retire_mask_of_aligned _ (seqPc_aligned (by simpa [PcAligned] using hp))]
    exact .inl (by simp)
  | stores => rw [retire_mask_of_aligned _ (seqPc_aligned hp)]; exact .inl (by simp)
  | raises e he =>
    obtain ⟨-, -, -, -, -, hmask⟩ := raiseOnly_spec e hp
    exact .inr (by rw [hmask, he])
  | transfers n hs hn =>
    rw [retire_mask, sequencer_mask]
    split
    · exact .inl rfl
    · next hmis =>
      rcases hn hp with hal | hk
      · exact absurd ((and_three_eq_zero_iff n).mpr hal) hmis
      · exact .inr (by rw [hk])
  | halts hk => exact .inr (by rw [hk]; rfl)

/-- The bit an instruction can raise, alone, is a legal mask (spec/60_exceptions.md R401). -/
theorem kindOf_maskLegal (i : Instr) : MaskLegal (kindOf i) := by
  cases i <;> simp [kindOf, MaskLegal]

/-- Only `syscall` raises SYSCALL (spec/46_system.md R241). -/
theorem kindOf_eq_syscall {i : Instr} (h : kindOf i = 128) : ∃ code, i = .syscall code := by
  cases i with
  | syscall code => exact ⟨code, rfl⟩
  | _ => cases h

/-! ### What every instruction does -/

/-- Register 0 holds 0 at the end of an instruction, whatever it held (spec/10_state.md R31). -/
theorem exec_zeroHolds {i : Instr} {s t : State} (h : exec i s = .next t) : ZeroHolds t := by
  rcases exec_cases h with ⟨u, n, rfl, -⟩ | ⟨c, rfl, rfl⟩ <;> simp [ZeroHolds]

/-- An aligned `pc` stays aligned (spec/10_state.md R37). -/
theorem exec_pcAligned {i : Instr} {s t : State} (h : exec i s = .next t) (hp : PcAligned s) : PcAligned t := by
  rcases exec_cases h with ⟨u, n, rfl, -⟩ | ⟨c, rfl, rfl⟩
  · exact retire_pc_aligned n u
  · exact hp

/-- The inert scratch and the stop request are never changed (spec/10_state.md R41). -/
theorem exec_branchTarget_stopRequest {i : Instr} {s t : State} (h : exec i s = .next t) :
    t.branchTarget = s.branchTarget ∧ t.stopRequest = s.stopRequest := by
  rcases exec_cases h with ⟨u, n, rfl, -, -, htarget, hstop, -⟩ | ⟨c, rfl, rfl⟩
  · exact ⟨by simpa using htarget, by simpa using hstop⟩
  · exact ⟨rfl, rfl⟩

/-- After an instruction the machine is halted exactly if it was, or the instruction is `syscall` (spec/10_state.md R40). -/
theorem exec_halted_iff {i : Instr} {s t : State} (h : exec i s = .next t) :
    t.halted = true ↔ s.halted = true ∨ ∃ code, i = .syscall code := by
  rcases exec_cases h with ⟨u, n, rfl, -, hhalted, -, -, hi⟩ | ⟨c, rfl, rfl⟩
  · simp [hhalted, hi]
  · simp

/-- Every instruction but `syscall` keeps `halted`. -/
theorem exec_halted {i : Instr} {s t : State} (h : exec i s = .next t) (hi : ∀ code, i ≠ .syscall code) :
    t.halted = s.halted := by
  rw [Bool.eq_iff_iff, exec_halted_iff h]
  simp [hi]

/-! ### The invariant -/

/-- The entry of a step keeps the form of the memory and the page set. -/
theorem enterStep_storeOk {s : State} (h : StoreOk s) : StoreOk (enterStep s) :=
  touch_storeOk s.pc 4 (storeOk_congr rfl rfl h)

/-- The entry of a step keeps `pc` aligned. -/
theorem enterStep_pcAligned {s : State} (h : PcAligned s) : PcAligned (enterStep s) := by
  simpa [PcAligned] using h

/-- What an instruction ends in after the entry of a step meets the invariant. -/
theorem exec_enterStep_inv {i : Instr} {s t : State} (hi : Inv s) (h : exec i (enterStep s) = .next t) : Inv t := by
  have hp := enterStep_pcAligned hi.aligned
  have hmask : t.mask = 0 ∨ t.mask = kindOf i := by simpa using exec_mask h hp
  obtain ⟨htarget, -⟩ := exec_branchTarget_stopRequest h
  refine ⟨exec_zeroHolds h, exec_pcAligned h hp, exec_storeOk h (enterStep_storeOk hi.store), ?_, ?_, fun hm => ?_⟩
  · rw [htarget, enterStep_branchTarget, hi.scratch]
  · rcases hmask with e | e <;> rw [e]
    · simp [MaskLegal]
    · exact kindOf_maskLegal i
  · rcases hmask with e | e <;> rw [e] at hm
    · cases hm
    · exact (exec_halted_iff h).mpr (.inr (kindOf_eq_syscall hm))

/-- A step on a word that is no instruction ends in a state that meets the invariant (spec/46_system.md R245). -/
theorem raiseOnly_enterStep_inv {s : State} (hi : Inv s) : Inv (raiseOnly .invalidInst (enterStep s)) := by
  obtain ⟨-, -, -, -, -, hmask⟩ := raiseOnly_spec .invalidInst (enterStep_pcAligned hi.aligned)
  have hone : (raiseOnly .invalidInst (enterStep s)).mask = 1 := by rw [hmask, enterStep_mask]; rfl
  refine ⟨by simp [ZeroHolds, raiseOnly], retire_pc_aligned _ _, ?_, ?_, ?_, ?_⟩
  · exact storeOk_congr (by simp [raiseOnly]) (by simp [raiseOnly]) (enterStep_storeOk hi.store)
  · simp [raiseOnly, hi.scratch]
  · simp [hone, MaskLegal]
  · simp [hone]

/-- Settles O38: a step enters, then executes the decoded instruction or raises INVALID_INST; both ends meet the
invariant. -/
theorem everyStepKeepsTheInvariant : Obligations.EveryStepKeepsTheInvariant := by
  intro s t hi h
  rcases step_cases h with ⟨i, -, hexec⟩ | ⟨-, rfl⟩
  · exact exec_enterStep_inv hi hexec
  · exact raiseOnly_enterStep_inv hi

/-! ### Halted, register 0, and the frame -/

/-- Settles O33, from what an instruction does to `halted`: the entry of a step and an invalid word do not touch it. -/
theorem onlySyscallHalts : Obligations.OnlySyscallHalts := by
  intro s t h
  rcases step_cases h with ⟨i, hi, hexec⟩ | ⟨hno, rfl⟩
  · rw [exec_halted_iff hexec, hi]
    simp
  · simp [raiseOnly, hno]

/-- Register 0 holds 0 after reset (spec/70_reset_and_hazards.md R450). -/
theorem resetRegs_zero : resetRegs[0] = 0 := by simp [resetRegs]

/-- Settles O34: every step clears register 0 at its exit, and reset leaves it 0. -/
theorem registerZeroIsAlwaysZero : Obligations.RegisterZeroIsAlwaysZero := by
  refine ⟨readReg_zero, fun s t h => ?_, fun _ => resetRegs_zero, resetRegs_zero⟩
  rcases step_cases h with ⟨i, -, hexec⟩ | ⟨-, rfl⟩
  · exact exec_zeroHolds hexec
  · simp [ZeroHolds, raiseOnly]

/-- Settles O35: each part of the frame is read off from the shape the instruction ends in. -/
theorem anInstructionChangesOnlyItsOwnParts : Obligations.AnInstructionChangesOnlyItsOwnParts := by
  intro i s t h
  exact ⟨fun _ => exec_readReg h, fun _ _ _ => exec_bytesKeptOutside h, fun hi => byteAt_congr (exec_mem h hi),
    exec_halted h, fun _ => exec_pages h, exec_branchTarget_stopRequest h⟩

end Sys2Proof.Machine
end

section
/-! The memory's primitives on one byte array (spec/20_memory.md R64 to R75): what a read answers after a store of any
width, what each access allocates, and what it leaves alone. The stores of all widths, and those of an image, are each
one run of bytes put at consecutive addresses; the laws of `putBytes` are said of that run. -/

namespace Sys2Proof.Machine

/-! ### Runs of bytes -/

/-- Storing one run of bytes after another is storing both in one. -/
theorem putBytes_append (a : Word) (bs cs : List Byte) (s : State) :
    putBytes a (bs ++ cs) s = putBytes (a + BitVec.ofNat 32 bs.length) cs (putBytes a bs s) := by
  induction bs generalizing a s with
  | nil => simp [putBytes]
  | cons b bs ih => rw [List.cons_append, putBytes, ih, add_ofNat_succ]; rfl

/-- A store of bytes changes nothing but bytes and pages. -/
theorem putBytes_eq (a : Word) (bs : List Byte) (s : State) :
    putBytes a bs s = { s with mem := (putBytes a bs s).mem, pages := (putBytes a bs s).pages } := by
  induction bs generalizing a s with
  | nil => rfl
  | cons b bs ih => exact ih (a + 1) (putByte a b s)

theorem putBytes_bytesKeptOutside (a : Word) (bs : List Byte) (s : State) :
    BytesKeptOutside s (putBytes a bs s) a bs.length := byteAt_putBytes_outside a bs s

theorem putBytes_pagesGain (a : Word) (bs : List Byte) (s : State) : PagesGain s (putBytes a bs s) a bs.length :=
  mem_putBytes_pages a bs s

/-- Allocating pages changes nothing but the page set. -/
theorem touch_eq (a : Word) (n : Nat) (s : State) : touch a n s = { s with pages := (touch a n s).pages } := by
  induction n generalizing a s with
  | zero => rfl
  | succ n ih => exact ih (a + 1) { s with pages := insertPage (pageOf a) s.pages }

theorem touch_pagesGain (a : Word) (n : Nat) (s : State) : PagesGain s (touch a n s) a n := mem_touch_pages a n s

/-- A dump's bytes by their place (R72). -/
theorem bytesAt_eq_map (s : State) (a : Word) (n : Nat) :
    bytesAt s a n = (List.range n).map (fun k => byteAt s (a + BitVec.ofNat 32 k)) := by
  induction n generalizing a with
  | zero => rfl
  | succ n ih =>
    rw [bytesAt, ih, List.range_succ_eq_map, List.map_cons, List.map_map]
    simp only [Function.comp_def, add_ofNat_succ, BitVec.add_zero]

/-! ### Halfwords and words -/

/-- A word depends on its own four bytes alone. -/
theorem wordAt_congr {s t : State} {a : Word}
    (h : ∀ k < 4, byteAt t (a + BitVec.ofNat 32 k) = byteAt s (a + BitVec.ofNat 32 k)) : wordAt t a = wordAt s a := by
  have h0 : byteAt t a = byteAt s a := by simpa using h 0 (by omega)
  have h1 : byteAt t (a + 1) = byteAt s (a + 1) := h 1 (by omega)
  have h2 : byteAt t (a + 2) = byteAt s (a + 2) := h 2 (by omega)
  have h3 : byteAt t (a + 3) = byteAt s (a + 3) := h 3 (by omega)
  rw [wordAt, h0, h1, h2, h3, ← wordAt]

/-- The end of an instruction keeps every word. -/
@[simp] theorem wordAt_retire (t : Word) (s : State) (a : Word) : wordAt (retire t s) a = wordAt s a :=
  wordAt_congr fun _ _ => byteAt_retire t s _

/-- The halfword at a word's own address is its upper half (R75). -/
theorem halfAt_eq_upper (s : State) (a : Word) : halfAt s a = (wordAt s a).extractLsb' 16 16 := by
  rw [wordAt_halves, BitVec.extractLsb'_append_eq_left]

/-- The halfword two bytes on is its lower half (R75). -/
theorem halfAt_eq_lower (s : State) (a : Word) : halfAt s (a + 2) = (wordAt s a).extractLsb' 0 16 := by
  rw [wordAt_halves, BitVec.extractLsb'_append_eq_right]

/-- The four bytes of a stored word (R69). -/
theorem byteAt_setWord (a v : Word) (s : State) :
    byteAt (setWord a v s) a = v.extractLsb' 24 8 ∧ byteAt (setWord a v s) (a + 1) = v.extractLsb' 16 8 ∧
      byteAt (setWord a v s) (a + 2) = v.extractLsb' 8 8 ∧ byteAt (setWord a v s) (a + 3) = v.extractLsb' 0 8 := by
  have h : ∀ (k : Nat) (hk : k < 4), byteAt (setWord a v s) (a + BitVec.ofNat 32 k) = (bytesOfWord v)[k] :=
    fun k hk => byteAt_putBytes_inside a (bytesOfWord v) s k hk (by simp [bytesOfWord])
  exact ⟨(congrArg _ (BitVec.add_zero a).symm).trans (h 0 (by omega)), h 1 (by omega), h 2 (by omega), h 3 (by omega)⟩

/-- The two bytes of a stored halfword (R68). -/
theorem byteAt_setHalf (a v : Word) (s : State) :
    byteAt (setHalf a v s) a = v.extractLsb' 8 8 ∧ byteAt (setHalf a v s) (a + 1) = v.extractLsb' 0 8 := by
  have h : ∀ (k : Nat) (hk : k < 2), byteAt (setHalf a v s) (a + BitVec.ofNat 32 k) =
      [v.extractLsb' 8 8, v.extractLsb' 0 8][k] :=
    fun k hk => byteAt_putBytes_inside a [v.extractLsb' 8 8, v.extractLsb' 0 8] s k hk (by simp)
  exact ⟨(congrArg _ (BitVec.add_zero a).symm).trans (h 0 (by omega)), h 1 (by omega)⟩

/-- Every byte after a stored byte (R67). -/
theorem byteAt_setByte (a v : Word) (s : State) (b : Word) :
    byteAt (setByte a v s) b = if b = a then v.extractLsb' 0 8 else byteAt s b := byteAt_putByte a b _ s

/-- A stored word reads back (R69). -/
@[simp] theorem wordAt_setWord (a v : Word) (s : State) : wordAt (setWord a v s) a = v := by
  obtain ⟨h0, h1, h2, h3⟩ := byteAt_setWord a v s
  rw [wordAt, h0, h1, h2, h3, append_bytes]

/-- A stored halfword reads back (R68). -/
@[simp] theorem halfAt_setHalf (a v : Word) (s : State) : halfAt (setHalf a v s) a = v.extractLsb' 0 16 := by
  obtain ⟨h0, h1⟩ := byteAt_setHalf a v s
  rw [halfAt, h0, h1]
  exact BitVec.extractLsb'_append_extractLsb'_eq_extractLsb' rfl

/-- Replacing the low byte of a word by masks. -/
theorem and_or_lowByte (x : BitVec 24) (y : Byte) (b : Word) :
    (x ++ y) &&& 0xFFFFFF00 ||| (b &&& 0xFF) = x ++ b.extractLsb' 0 8 := by
  have hhigh : (0xFFFFFF00 : Word) = BitVec.allOnes 24 ++ (0 : Byte) := by decide
  have hlow : (0xFF : Word) = (0 : BitVec 24) ++ BitVec.allOnes 8 := by decide
  have hb : b.extractLsb' 8 24 ++ b.extractLsb' 0 8 = b :=
    (BitVec.extractLsb'_append_extractLsb'_eq_extractLsb' rfl).trans BitVec.extractLsb'_eq_self
  calc (x ++ y) &&& 0xFFFFFF00 ||| (b &&& 0xFF)
      = (x ++ y) &&& (BitVec.allOnes 24 ++ (0 : Byte)) |||
          ((b.extractLsb' 8 24 ++ b.extractLsb' 0 8) &&& ((0 : BitVec 24) ++ BitVec.allOnes 8)) := by
        rw [hhigh, hlow, hb]
    _ = x ++ b.extractLsb' 0 8 := by
        rw [BitVec.and_append, BitVec.and_append, BitVec.or_append, BitVec.and_allOnes, BitVec.and_allOnes]
        simp

/-- A byte stored over the last byte of a word replaces the word's low byte (R75). -/
theorem wordAt_setByte_last (a b : Word) (s : State) :
    wordAt (setByte (a + 3) b s) a = (wordAt s a &&& 0xFFFFFF00) ||| (b &&& 0xFF) := by
  have h0 : a ≠ a + 3 := by simp
  have h1 : a + 1 ≠ a + 3 := by simp
  have h2 : a + 2 ≠ a + 3 := by simp
  simp only [wordAt, byteAt_setByte, if_neg h0, if_neg h1, if_neg h2, if_true]
  exact (and_or_lowByte _ _ b).symm

/-! ### Runs of words -/

/-- A run of words is the run of their bytes. -/
theorem putWords_eq_putBytes (a : Word) (ws : List Word) (s : State) :
    putWords a ws s = putBytes a (ws.flatMap bytesOfWord) s := by
  induction ws generalizing a s with
  | nil => rfl
  | cons w ws ih => rw [putWords, ih, List.flatMap_cons, putBytes_append]; rfl

theorem length_flatMap_bytesOfWord (ws : List Word) : (ws.flatMap bytesOfWord).length = 4 * ws.length := by
  simp [List.length_flatMap, bytesOfWord, Nat.mul_comm]

/-- Every byte outside a run of words is as before. -/
theorem byteAt_putWords_outside (a : Word) (ws : List Word) (s : State) (b : Word)
    (h : 4 * ws.length ≤ (b - a).toNat) : byteAt (putWords a ws s) b = byteAt s b := by
  rw [putWords_eq_putBytes, byteAt_putBytes_outside _ _ _ _ (by rwa [length_flatMap_bytesOfWord])]

/-- What storing words allocates. -/
theorem mem_putWords_pages (a : Word) (ws : List Word) (s : State) (p : PageIndex) :
    p ∈ (putWords a ws s).pages ↔
      (∃ k : Nat, k < 4 * ws.length ∧ p = pageOf (a + BitVec.ofNat 32 k)) ∨ p ∈ s.pages := by
  rw [putWords_eq_putBytes, mem_putBytes_pages, length_flatMap_bytesOfWord]

/-- Counted from the next word on, a word's own four bytes are the last of the address space. -/
theorem toNat_sub_next_word (a : Word) {k : Nat} (hk : k < 4) :
    (a + BitVec.ofNat 32 k - (a + 4)).toNat = 2 ^ 32 - 4 + k := by
  rw [show a + BitVec.ofNat 32 k - (a + 4) = BitVec.ofNat 32 k - 4 by ring, BitVec.toNat_sub, BitVec.toNat_ofNat]
  have h4 : (4 : Word).toNat = 4 := rfl
  omega

/-- A stored word of a run reads back, where the run does not wrap onto itself. -/
theorem wordAt_putWords (a : Word) (ws : List Word) (s : State) (j : Nat) (hj : j < ws.length)
    (hlen : 4 * ws.length ≤ 2 ^ 32) : wordAt (putWords a ws s) (a + BitVec.ofNat 32 (4 * j)) = ws[j] := by
  induction ws generalizing a s j with
  | nil => simp at hj
  | cons w ws ih =>
    simp only [List.length_cons] at hj hlen
    cases j with
    | zero =>
      have hkept : wordAt (putWords (a + 4) ws (setWord a w s)) a = wordAt (setWord a w s) a :=
        wordAt_congr fun k hk => byteAt_putWords_outside _ _ _ _ (by rw [toNat_sub_next_word a hk]; omega)
      simpa [putWords] using hkept
    | succ j =>
      have hnext : a + BitVec.ofNat 32 (4 * (j + 1)) = a + 4 + BitVec.ofNat 32 (4 * j) := by
        rw [Nat.mul_succ, Nat.add_comm, BitVec.ofNat_add]
        exact (BitVec.add_assoc ..).symm
      rw [putWords, hnext, ih (a + 4) _ j (by omega) (by omega), List.getElem_cons_succ]

/-! ### The statements -/

/-- Settles O23: the aligned store ends with `pc` at the word it has stored, and the entry of the next step keeps that
word. -/
theorem aStoreIsSeenByTheNextFetch : Obligations.AStoreIsSeenByTheNextFetch := by
  intro s rs rt imm hp hea
  have hnext : (seqPc s).toNat % 4 = 0 := seqPc_aligned hp
  refine ⟨_, rfl, ?_⟩
  rcases store_cases 4 setWord rs rt imm s with ⟨-, e⟩ | ⟨hmis, -⟩
  · rw [e, hea, fetchWord_enterStep, retire_pc_of_aligned _ hnext, wordAt_retire, seqPc, wordAt_setWord]
  · exact absurd hp (by simpa [PcAligned, alignedTo, hea] using hmis)

/-- Settles O41: each width is a run of one, two or four bytes. -/
theorem storedValuesReadBackBigEndian : Obligations.StoredValuesReadBackBigEndian := by
  intro s a v
  obtain ⟨h0, h1⟩ := byteAt_setHalf a v s
  obtain ⟨w0, w1, w2, w3⟩ := byteAt_setWord a v s
  refine ⟨⟨?_, putBytes_bytesKeptOutside a _ s, putBytes_pagesGain a _ s⟩,
    ⟨h0, h1, halfAt_setHalf a v s, putBytes_bytesKeptOutside a _ s, putBytes_pagesGain a _ s⟩,
    w0, w1, w2, w3, wordAt_setWord a v s, putBytes_bytesKeptOutside a _ s, putBytes_pagesGain a _ s⟩
  rw [getByte, byteAt_setByte, if_pos rfl]

/-- Settles O42: every read answers the bytes and allocates with `touch`. -/
theorem readsAllocateAndChangeNothingElse : Obligations.ReadsAllocateAndChangeNothingElse := by
  intro s a n
  refine ⟨⟨rfl, touch_pagesGain a 1 s, touch_eq a 1 s⟩, ⟨halfAt_toNat s a, touch_pagesGain a 2 s, touch_eq a 2 s⟩,
    ⟨?_, touch_pagesGain a 4 s, touch_eq a 4 s⟩, bytesAt_eq_map s a n, touch_pagesGain a n s, touch_eq a n s⟩
  have hlast : a + 2 + 1 = a + 3 := BitVec.add_assoc a 2 1
  rw [getWord, wordAt_toNat, halfAt_toNat, halfAt_toNat, hlast, Nat.add_assoc]

/-- Settles O43, from what the narrow accesses at a word's place do to any word. -/
theorem mixedWidthAccessesSeeOneByteArray : Obligations.MixedWidthAccessesSeeOneByteArray := by
  intro s a v b
  obtain ⟨w0, w1, w2, w3⟩ := byteAt_setWord a v s
  refine ⟨?_, ?_, w0, w1, w2, w3, ?_⟩
  · rw [halfAt_eq_upper, wordAt_setWord]
  · rw [halfAt_eq_lower, wordAt_setWord]
  · rw [wordAt_setByte_last, wordAt_setWord]

/-- Settles O44: the text is stored last, so its words stand; a byte outside it is as after the data phase. -/
theorem loadImagePutsDataThenText : Obligations.LoadImagePutsDataThenText := by
  intro s image hdata htext
  refine ⟨fun j hj => wordAt_putWords _ _ _ j hj htext, fun k hk hout => ?_, fun a hd ht => ?_, fun p => ?_, ?_⟩
  · rw [loadImage, byteAt_putWords_outside _ _ _ _ hout, byteAt_putBytes_inside _ _ _ k hk hdata]
  · rw [loadImage, byteAt_putWords_outside _ _ _ _ ht, byteAt_putBytes_outside _ _ _ _ hd]
  · rw [loadImage, mem_putWords_pages, mem_putBytes_pages]
    exact or_left_comm
  · rw [loadImage, putWords_eq_putBytes]
    exact (putBytes_eq _ _ _).trans (by rw [putBytes_eq image.dataStart image.dataBytes s])

end Sys2Proof.Machine
end

section
/-! Decoding and encoding undo each other (spec/30_encoding.md), so a word decodes to an instruction exactly when it is
that instruction's word: what decodes, and which bits do not matter, is read off from `encode`. The assembler's operand
rows (spec/48_assembler.md R340) build instructions with 0 in the fields they do not use. -/

namespace Sys2Proof.Machine

/-! ### Encoding, then decoding -/

/-- Opcode 0 selects by the funct (R112). -/
theorem decode_of_opcode_zero {w : Word} (h : opcodeOf w = 0) : decode w = decodeSpecial w := by
  rw [decode, h]
  rfl

theorem decode_encode (i : Instr) : decode (encode i) = .instr i := by
  cases i with
  | sll | srl | sra | sllv | srlv | srav | jr | add | addu | sub | subu | and | or | xor | nor | slt | sltu =>
    rw [encode, decode_of_opcode_zero (opcodeOf_packR ..), decodeSpecial, functOf_packR, rsOf_packR, rtOf_packR,
      rdOf_packR, shamtOf_packR]
    rfl
  | syscall | breakpoint =>
    rw [encode, decode_of_opcode_zero (opcodeOf_packCode ..), decodeSpecial, functOf_packCode, codeOf_packCode]
    rfl
  | j | jal =>
    rw [encode, decode, opcodeOf_packJ, targetOf_packJ]
    rfl
  | _ =>
    rw [encode, decode, opcodeOf_packI, rsOf_packI, rtOf_packI, immOf_packI]
    rfl

theorem encode_injective {i i' : Instr} (h : encode i = encode i') : i = i' :=
  Decoded.instr.inj ((decode_encode i).symm.trans (h ▸ decode_encode i'))

/-! ### Decoding, then encoding

Each arm of `decode` knows the selector's number `k`; the word's own fields, laid out under `k`, are the word. -/

section
variable {w : Word} {k : Nat}

theorem packI_of_opcode (h : (opcodeOf w).toNat = k) : packI (BitVec.ofNat 6 k) (rsOf w) (rtOf w) (immOf w) = w := by
  simpa [← h] using packI_fields w

theorem packJ_of_opcode (h : (opcodeOf w).toNat = k) : packJ (BitVec.ofNat 6 k) (targetOf w) = w := by
  simpa [← h] using packJ_fields w

theorem packR_of_funct (h0 : opcodeOf w = 0) (h : (functOf w).toNat = k) :
    packR (rsOf w) (rtOf w) (rdOf w) (shamtOf w) (BitVec.ofNat 6 k) = w := by
  simpa [← h] using packR_fields w h0

theorem packCode_of_funct (h0 : opcodeOf w = 0) (h : (functOf w).toNat = k) :
    packCode (codeOf w) (BitVec.ofNat 6 k) = w := by
  simpa [← h] using packCode_fields w h0

end

theorem encode_of_decodeSpecial {w : Word} {i : Instr} (h0 : opcodeOf w = 0) (h : decodeSpecial w = .instr i) :
    encode i = w := by
  unfold decodeSpecial at h
  split at h <;> cases h
  all_goals next hf => simp [encode, packR_of_funct h0 hf, packCode_of_funct h0 hf]

theorem encode_of_decode {w : Word} {i : Instr} (h : decode w = .instr i) : encode i = w := by
  unfold decode at h
  split at h
  · next hop => exact encode_of_decodeSpecial (BitVec.eq_of_toNat_eq hop) h
  all_goals cases h
  all_goals next hop => simp [encode, packI_of_opcode hop, packJ_of_opcode hop]

/-! ### Don't-care bits (R112) -/

/-- A meaning reads no field that its instruction does not use. -/
theorem exec_canonical (i : Instr) (s : State) : exec i.canonical s = exec i s := by
  cases i <;> rfl

/-- A mask on the R format is a mask on each of its fields. -/
theorem packR_and (op f f' : BitVec 6) (rs rt rd rs' rt' rd' : RegName) (sa sa' : BitVec 5) :
    packR rs rt rd sa f &&& (op ++ rs' ++ rt' ++ rd' ++ sa' ++ f' : Word) =
      packR (rs &&& rs') (rt &&& rt') (rd &&& rd') (sa &&& sa') (f &&& f') := by
  apply BitVec.eq_of_getLsbD_eq
  intro i hi
  simp only [packR, BitVec.getLsbD_and, BitVec.getLsbD_append]
  split_ifs <;> simp

theorem packCode_and (op f f' : BitVec 6) (code code' : BitVec 20) :
    packCode code f &&& (op ++ code' ++ f' : Word) = packCode (code &&& code') (f &&& f') := by
  apply BitVec.eq_of_getLsbD_eq
  intro i hi
  simp only [packCode, BitVec.getLsbD_and, BitVec.getLsbD_append]
  split_ifs <;> simp

theorem packI_and (op op' : BitVec 6) (rs rt rs' rt' : RegName) (imm imm' : BitVec 16) :
    packI op rs rt imm &&& (op' ++ rs' ++ rt' ++ imm' : Word) =
      packI (op &&& op') (rs &&& rs') (rt &&& rt') (imm &&& imm') := by
  apply BitVec.eq_of_getLsbD_eq
  intro i hi
  simp only [packI, BitVec.getLsbD_and, BitVec.getLsbD_append]
  split_ifs <;> simp

theorem packR_and_noRs (rs rt rd : RegName) (sa : BitVec 5) (f : BitVec 6) :
    packR rs rt rd sa f &&& 0xFC1FFFFF = packR 0 rt rd sa f :=
  (packR_and (.allOnes 6) f (.allOnes 6) rs rt rd 0 (.allOnes 5) (.allOnes 5) sa (.allOnes 5)).trans
    (by simp only [BitVec.and_allOnes, BitVec.and_zero, BitVec.ofNat_eq_ofNat])

theorem packR_and_noShamt (rs rt rd : RegName) (sa : BitVec 5) (f : BitVec 6) :
    packR rs rt rd sa f &&& 0xFFFFF83F = packR rs rt rd 0 f :=
  (packR_and (.allOnes 6) f (.allOnes 6) rs rt rd (.allOnes 5) (.allOnes 5) (.allOnes 5) sa 0).trans
    (by simp only [BitVec.and_allOnes, BitVec.and_zero, BitVec.ofNat_eq_ofNat])

theorem packR_and_rsOnly (rs rt rd : RegName) (sa : BitVec 5) (f : BitVec 6) :
    packR rs rt rd sa f &&& 0xFFE0003F = packR rs 0 0 0 f :=
  (packR_and (.allOnes 6) f (.allOnes 6) rs rt rd (.allOnes 5) 0 0 sa 0).trans
    (by simp only [BitVec.and_allOnes, BitVec.and_zero, BitVec.ofNat_eq_ofNat])

theorem packCode_and_noCode (code : BitVec 20) (f : BitVec 6) : packCode code f &&& 0xFC00003F = packCode 0 f :=
  (packCode_and (.allOnes 6) f (.allOnes 6) code 0).trans
    (by simp only [BitVec.and_allOnes, BitVec.and_zero, BitVec.ofNat_eq_ofNat])

theorem packI_and_noRs (op : BitVec 6) (rs rt : RegName) (imm : BitVec 16) :
    packI op rs rt imm &&& 0xFC1FFFFF = packI op 0 rt imm :=
  (packI_and op (.allOnes 6) rs rt 0 (.allOnes 5) imm (.allOnes 16)).trans
    (by simp only [BitVec.and_allOnes, BitVec.and_zero, BitVec.ofNat_eq_ofNat])

/-- Clearing an instruction's unused fields clears exactly the bits of its word that it does not use. -/
theorem encode_canonical (i : Instr) : encode i.canonical = encode i &&& usedBits i := by
  cases i with
  | sll | srl | sra => exact (packR_and_noRs ..).symm
  | sllv | srlv | srav | add | addu | sub | subu | and | or | xor | nor | slt | sltu =>
    exact (packR_and_noShamt ..).symm
  | jr => exact (packR_and_rsOnly ..).symm
  | syscall | breakpoint => exact (packCode_and_noCode ..).symm
  | lui => exact (packI_and_noRs ..).symm
  | _ => exact (BitVec.and_allOnes ..).symm

/-- Every instruction uses its opcode and the low six bits, which are its funct where it has one. -/
theorem usedBits_selectors (i : Instr) : opcodeOf (usedBits i) = 0x3F ∧ functOf (usedBits i) = 0x3F := by
  cases i <;> rw [usedBits] <;> decide

theorem and_eq_of_agree {w w' m : Word} (h : (w ^^^ w') &&& m = 0) : w' &&& m = w &&& m := by
  refine (BitVec.xor_eq_zero_iff.mp (Eq.trans ?_ h)).symm
  ext i hi
  simp [Bool.and_xor_distrib_right]

/-- Words that agree under a mask agree on every field that the mask holds whole. -/
theorem extractLsb'_eq_of_and_eq {w w' m : Word} {a n : Nat} (h : w' &&& m = w &&& m)
    (hm : m.extractLsb' a n = BitVec.allOnes n) : w'.extractLsb' a n = w.extractLsb' a n := by
  simpa [BitVec.extractLsb'_and, hm] using congrArg (BitVec.extractLsb' a n) h

/-- A word with the opcode and the funct of an instruction's word decodes, to an instruction of the same row. -/
theorem decode_of_selectors {i : Instr} {w : Word} (hop : opcodeOf w = opcodeOf (encode i))
    (hf : functOf w = functOf (encode i)) : ∃ i' : Instr, decode w = .instr i' ∧ usedBits i' = usedBits i := by
  cases i with
  | sll | srl | sra | sllv | srlv | srav | jr | add | addu | sub | subu | and | or | xor | nor | slt | sltu =>
    rw [encode, opcodeOf_packR] at hop
    rw [encode, functOf_packR] at hf
    rw [decode_of_opcode_zero hop, decodeSpecial, hf]
    exact ⟨_, rfl, rfl⟩
  | syscall | breakpoint =>
    rw [encode, opcodeOf_packCode] at hop
    rw [encode, functOf_packCode] at hf
    rw [decode_of_opcode_zero hop, decodeSpecial, hf]
    exact ⟨_, rfl, rfl⟩
  | j | jal =>
    rw [encode, opcodeOf_packJ] at hop
    rw [decode, hop]
    exact ⟨_, rfl, rfl⟩
  | _ =>
    rw [encode, opcodeOf_packI] at hop
    rw [decode, hop]
    exact ⟨_, rfl, rfl⟩

/-! ### What the assembler encodes at once

A row of the operand table that answers an instruction answers one that it builds from the operands it has read. -/

section
variable {ts : List Token} {i : Instr} {warning : Option AsmWarningKind}

theorem threeRegs_ready {build : RegName → RegName → RegName → Instr}
    (h : threeRegs ts build = .ok (.ready i warning)) : ∃ a b c, build a b c = i := by
  obtain ⟨⟨a, ts⟩, -, h⟩ := bind_eq_ok h
  obtain ⟨⟨b, ts⟩, -, h⟩ := bind_eq_ok h
  obtain ⟨⟨c, ts⟩, -, h⟩ := bind_eq_ok h
  obtain ⟨-, -, h⟩ := bind_eq_ok h
  cases h
  exact ⟨a, b, c, rfl⟩

theorem regsShamt_ready {build : RegName → RegName → BitVec 5 → Instr}
    (h : regsShamt ts build = .ok (.ready i warning)) : ∃ a b sa, build a b sa = i := by
  obtain ⟨⟨a, ts⟩, -, h⟩ := bind_eq_ok h
  obtain ⟨⟨b, ts⟩, -, h⟩ := bind_eq_ok h
  obtain ⟨⟨v, ts⟩, -, h⟩ := bind_eq_ok h
  obtain ⟨-, -, h⟩ := bind_eq_ok h
  cases h
  exact ⟨a, b, _, rfl⟩

theorem regsImm_ready {lo hi : Int} {build : RegName → RegName → BitVec 16 → Instr}
    (h : regsImm lo hi ts build = .ok (.ready i warning)) : ∃ rs rt imm, build rs rt imm = i := by
  obtain ⟨⟨rt, ts⟩, -, h⟩ := bind_eq_ok h
  obtain ⟨⟨rs, ts⟩, -, h⟩ := bind_eq_ok h
  obtain ⟨⟨v, ts⟩, -, h⟩ := bind_eq_ok h
  obtain ⟨-, -, h⟩ := bind_eq_ok h
  cases h
  exact ⟨rs, rt, _, rfl⟩

theorem regMem_ready {build : RegName → RegName → BitVec 16 → Instr}
    (h : regMem ts build = .ok (.ready i warning)) : ∃ rs rt imm, build rs rt imm = i := by
  obtain ⟨⟨rt, ts⟩, -, h⟩ := bind_eq_ok h
  obtain ⟨⟨⟨rs, imm⟩, ts⟩, -, h⟩ := bind_eq_ok h
  obtain ⟨-, -, h⟩ := bind_eq_ok h
  cases h
  exact ⟨rs, rt, imm, rfl⟩

/-- A branch always waits for its label (spec/48_assembler.md R347). -/
theorem regsLabel_not_ready {opcode : BitVec 6} : regsLabel opcode ts ≠ .ok (.ready i warning) := by
  intro h
  obtain ⟨⟨rt, ts⟩, -, h⟩ := bind_eq_ok h
  obtain ⟨⟨rs, ts⟩, -, h⟩ := bind_eq_ok h
  obtain ⟨⟨l, ts⟩, -, h⟩ := bind_eq_ok h
  obtain ⟨-, -, h⟩ := bind_eq_ok h
  cases h

theorem jumpOperand_ready {opcode : BitVec 6} {pc : Nat} {build : BitVec 26 → Instr}
    (h : jumpOperand opcode pc ts build = .ok (.ready i warning)) : ∃ target, build target = i := by
  unfold jumpOperand at h
  split at h
  · obtain ⟨⟨v, ts⟩, -, h⟩ := bind_eq_ok h
    obtain ⟨-, -, h⟩ := bind_eq_ok h
    obtain ⟨⟨target, w⟩, -, h⟩ := bind_eq_ok h
    cases h
    exact ⟨target, rfl⟩
  · obtain ⟨⟨l, ts⟩, -, h⟩ := bind_eq_ok h
    obtain ⟨-, -, h⟩ := bind_eq_ok h
    cases h

theorem luiOperands_ready (h : luiOperands ts = .ok (.ready i warning)) : ∃ rt imm, .lui 0 rt imm = i := by
  obtain ⟨⟨rt, ts⟩, -, h⟩ := bind_eq_ok h
  dsimp only at h
  split at h
  · obtain ⟨⟨l, ts⟩, -, h⟩ := bind_eq_ok h
    obtain ⟨-, -, h⟩ := bind_eq_ok h
    cases h
  · obtain ⟨⟨v, ts⟩, -, h⟩ := bind_eq_ok h
    obtain ⟨-, -, h⟩ := bind_eq_ok h
    cases h
    exact ⟨rt, _, rfl⟩

/-- No mnemonic builds `break` (R341), and each row puts 0 into the fields it does not list (R340). -/
theorem assembleInstr_ready {m : Mnemonic} {pc : Nat} (h : assembleInstr m pc ts = .ok (.ready i warning)) :
    i.wellFormed = true ∧ ∀ code, i ≠ .breakpoint code := by
  cases m with
  | add | addu | sub | subu | and | or | xor | nor | slt | sltu | sllv | srlv | srav =>
    rw [assembleInstr] at h
    obtain ⟨_, _, _, rfl⟩ := threeRegs_ready h
    exact ⟨rfl, nofun⟩
  | sll | srl | sra =>
    rw [assembleInstr] at h
    obtain ⟨_, _, _, rfl⟩ := regsShamt_ready h
    exact ⟨rfl, nofun⟩
  | addi | addiu | slti | sltiu | andi | ori | xori =>
    obtain ⟨_, _, _, rfl⟩ := regsImm_ready h
    exact ⟨rfl, nofun⟩
  | lb | lbu | lh | lhu | lw | sb | sh | sw =>
    obtain ⟨_, _, _, rfl⟩ := regMem_ready h
    exact ⟨rfl, nofun⟩
  | j | jal =>
    obtain ⟨_, rfl⟩ := jumpOperand_ready h
    exact ⟨rfl, nofun⟩
  | lui =>
    obtain ⟨_, _, rfl⟩ := luiOperands_ready h
    exact ⟨rfl, nofun⟩
  | jr =>
    obtain ⟨⟨rs, ts⟩, -, h⟩ := bind_eq_ok h
    obtain ⟨-, -, h⟩ := bind_eq_ok h
    cases h
    exact ⟨rfl, nofun⟩
  | syscall | nop =>
    obtain ⟨-, -, h⟩ := bind_eq_ok h
    cases h
    exact ⟨rfl, nofun⟩
  | move =>
    obtain ⟨⟨d, ts⟩, -, h⟩ := bind_eq_ok h
    obtain ⟨⟨s, ts⟩, -, h⟩ := bind_eq_ok h
    obtain ⟨-, -, h⟩ := bind_eq_ok h
    cases h
    exact ⟨rfl, nofun⟩
  | beq | bne => exact absurd h regsLabel_not_ready
  | li | la => cases h

end

/-! ### The statements -/

/-- Settles O1: in each format, the fields read from a layout are the fields laid out. -/
theorem decodeOfEncodeIsTheInstruction : Obligations.DecodeOfEncodeIsTheInstruction := decode_encode

/-- Settles O2: in each format, the layout of a word's own fields is the word. -/
theorem encodeOfDecodeIsTheWord : Obligations.EncodeOfDecodeIsTheWord := fun _ _ => encode_of_decode

/-- Settles O3: a word that decodes is an encoded word, whose opcode and funct are listed; each listed value has its
arm in the decoder. -/
theorem exactlyTheListedOpcodesAndFunctsDecode : Obligations.ExactlyTheListedOpcodesAndFunctsDecode := by
  intro w
  constructor
  · rintro ⟨i, h⟩
    rw [← encode_of_decode h]
    cases i with
    | sll | srl | sra | sllv | srlv | srav | jr | add | addu | sub | subu | and | or | xor | nor | slt | sltu =>
      exact .inr ⟨opcodeOf_packR .., by rw [encode, functOf_packR]; decide⟩
    | syscall | breakpoint => exact .inr ⟨opcodeOf_packCode .., by rw [encode, functOf_packCode]; decide⟩
    | j | jal => exact .inl (by rw [encode, opcodeOf_packJ]; decide)
    | _ => exact .inl (by rw [encode, opcodeOf_packI]; decide)
  · simp only [List.mem_cons, List.not_mem_nil, or_false]
    rintro (hop | ⟨h0, hf⟩)
    · casesm* _ ∨ _
      all_goals rw [decode, hop]; exact ⟨_, rfl⟩
    · rw [decode_of_opcode_zero h0]
      casesm* _ ∨ _
      all_goals rw [decodeSpecial, hf]; exact ⟨_, rfl⟩

/-- Settles O4: both words are of one row, and their instructions differ in unused fields only, so with those cleared
they are one instruction. -/
theorem unusedBitsChangeNothing : Obligations.UnusedBitsChangeNothing := by
  intro w w' i hd hagree
  have hsame : w' &&& usedBits i = encode i &&& usedBits i := encode_of_decode hd ▸ and_eq_of_agree hagree
  obtain ⟨hop, hf⟩ := usedBits_selectors i
  obtain ⟨i', hd', hused⟩ :=
    decode_of_selectors (extractLsb'_eq_of_and_eq hsame hop) (extractLsb'_eq_of_and_eq hsame hf)
  have hcanon : i'.canonical = i.canonical := by
    apply encode_injective
    rw [encode_canonical, encode_canonical, encode_of_decode hd', hused, hsame]
  exact ⟨i', hd', fun s => by rw [← exec_canonical i', hcanon, exec_canonical]⟩

/-- Settles O53, from the operand table's rows and the round trip of O1. -/
theorem theAssemblerWritesZeroInUnusedFields : Obligations.TheAssemblerWritesZeroInUnusedFields := by
  intro m pc ts i warning h
  obtain ⟨hwf, hbreak⟩ := assembleInstr_ready h
  exact ⟨hwf, hbreak, decode_encode i⟩

/-- Settles O5: ten closed evaluations of the decoder. -/
theorem sampleWordsDecodeAsTheSpecSays : Obligations.SampleWordsDecodeAsTheSpecSays := by
  unfold Obligations.SampleWordsDecodeAsTheSpecSays
  decide

end Sys2Proof.Machine
end

section
/-! One step (spec/40_step.md): it is total, it is its entry followed by one instruction or by INVALID_INST, it counts one
cycle and does not read `halted`; from an aligned `pc` it raises at most the one kind of its instruction, and where `pc`
stands afterwards depends on that kind alone. -/

namespace Sys2Proof.Machine

/-! ### What a step runs -/

/-- A step on a word that decodes is its instruction after the entry (spec/40_step.md R142). -/
theorem step_of_decode {s : State} {i : Instr} (h : decode (wordAt s s.pc) = .instr i) :
    step s = exec i (enterStep s) := by
  rw [step, fetchWord_enterStep, h]

/-- A step on any other word only raises INVALID_INST (spec/46_system.md R245). -/
theorem step_of_invalid {s : State} (h : ∀ i, decode (wordAt s s.pc) ≠ .instr i) :
    step s = .next (raiseOnly .invalidInst (enterStep s)) := by
  rw [step, fetchWord_enterStep]
  cases hd : decode (wordAt s s.pc) with
  | instr i => exact absurd hd (h i)
  | invalidOpcode | invalidFunct => rfl

/-- Every instruction has a meaning, and it answers a next state. -/
theorem exec_total (i : Instr) (s : State) : ∃ t, exec i s = .next t := by
  cases i <;> exact ⟨_, rfl⟩

/-- Settles O6: the fetch after the entry reads the word at `pc`, and the laws of the entry say the rest. -/
theorem stepRunsTheDecodedInstruction : Obligations.StepRunsTheDecodedInstruction := by
  intro s i hd
  refine ⟨step_of_decode hd, enterStep_mask s, ?_, readReg_enterStep s, enterStep_pages s, enterStep_mem s,
    enterStep_pc s, enterStep_cycle s, enterStep_halted s, enterStep_branchTarget s, enterStep_stopRequest s⟩
  simp [ZeroHolds]

/-- Settles O30: an instruction answers a next state, and so does an invalid word. -/
theorem everyStepAnswersANextState : Obligations.EveryStepAnswersANextState := by
  intro s
  by_cases hd : ∃ i, decode (wordAt s s.pc) = .instr i
  · obtain ⟨i, hi⟩ := hd
    rw [step_of_decode hi]
    exact exec_total i (enterStep s)
  · exact ⟨_, step_of_invalid (not_exists.mp hd)⟩

/-! ### The cycle count -/

/-- Every instruction counts one cycle (spec/40_step.md R138). -/
theorem exec_cycle {i : Instr} {s t : State} (h : exec i s = .next t) : t.cycle = s.cycle + 1 := by
  rcases exec_cases h with ⟨u, n, rfl, hcycle, -⟩ | ⟨c, -, rfl⟩
  · rw [retire_cycle, hcycle]
  · rfl

/-- Every step counts one cycle. -/
theorem step_cycle {s t : State} (h : step s = .next t) : t.cycle = s.cycle + 1 := by
  rcases step_cases h with ⟨i, -, hexec⟩ | ⟨-, rfl⟩
  · rw [exec_cycle hexec, enterStep_cycle]
  · simp [raiseOnly]

/-- Host steps count the cycles they take. -/
theorem runHost_steps_cycle (hooked : Bool) (n : Nat) (s : State) :
    (runHost hooked (List.replicate n .step) s).state.cycle = s.cycle + n := by
  induction n generalizing s with
  | zero => rfl
  | succ n ih =>
    obtain ⟨t, ht⟩ := everyStepAnswersANextState s
    have hstep : (hostStep s).cycle = s.cycle + 1 := by rw [hostStep_eq ht, step_cycle ht]
    rw [List.replicate_succ, runHost_cons_state, ih]
    show (hostStep s).cycle + n = _
    omega

/-- Settles O31: the count of one step, and by induction that of `n` of them from the 0 of a reset. -/
theorem everyStepCountsOneCycle : Obligations.EveryStepCountsOneCycle := by
  refine ⟨fun _ _ => step_cycle, fun hooked s n => ?_⟩
  rw [runHost_steps_cycle]
  exact Nat.zero_add n

/-! ### The mask and `pc` after a step -/

/-- From an aligned `pc` an invalid word raises INVALID_INST and goes on with the next word (spec/46_system.md R245). -/
theorem raiseOnly_enterStep_mask_pc {s : State} (hp : PcAligned s) :
    (raiseOnly .invalidInst (enterStep s)).mask = 1 ∧ (raiseOnly .invalidInst (enterStep s)).pc = s.pc + 4 := by
  obtain ⟨-, -, -, -, hpc, hmask⟩ := raiseOnly_spec .invalidInst (enterStep_pcAligned hp)
  exact ⟨by rw [hmask, enterStep_mask]; rfl, by rw [hpc, enterStep_pc]⟩

/-- After the entry of a step at an aligned `pc`, an instruction's mask is NONE or the bit it can raise. -/
theorem exec_enterStep_mask {i : Instr} {s t : State} (hp : PcAligned s) (h : exec i (enterStep s) = .next t) :
    t.mask = 0 ∨ t.mask = kindOf i := by
  simpa using exec_mask h (enterStep_pcAligned hp)

/-- Settles O36: the mask is NONE at the entry, and an instruction adds at most its own bit. -/
theorem eachStepRaisesAtMostItsOwnKind : Obligations.EachStepRaisesAtMostItsOwnKind := by
  intro s t hp h
  refine ⟨fun i hi => ?_, fun hno => ?_⟩
  · exact exec_enterStep_mask hp (step_of_decode hi ▸ h)
  · rw [step_of_invalid hno] at h
    cases h
    exact (raiseOnly_enterStep_mask_pc hp).1

/-- An instruction that writes a register without a transfer goes on with the next word. -/
theorem writeBack_pc (d : RegName) (v : Word) {s : State} (hp : PcAligned s) : (writeBack d v s).pc = s.pc + 4 :=
  retire_pc_of_aligned _ (seqPc_aligned hp)

/-- An instruction that only raises goes on with the next word (spec/40_step.md R143). -/
theorem raiseOnly_pc (e : ExceptionKind) {s : State} (hp : PcAligned s) : (raiseOnly e s).pc = s.pc + 4 :=
  retire_pc_of_aligned _ (seqPc_aligned hp)

/-- A load goes on with the next word, misaligned or not. -/
theorem load_pc (width : Nat) (value : State → Word → Word) (rs rt : RegName) (imm : BitVec 16) {s : State}
    (hp : PcAligned s) : (load width value rs rt imm s).pc = s.pc + 4 := by
  rcases load_cases width value rs rt imm s with ⟨-, e⟩ | ⟨-, e⟩ <;> rw [e]
  · rw [writeBack_pc _ _ (by simpa [PcAligned] using hp), touch_pc]
  · exact raiseOnly_pc _ hp

/-- A store goes on with the next word, misaligned or not. -/
theorem store_pc (width : Nat) (put : Word → Word → State → State) (rs rt : RegName) (imm : BitVec 16) {s : State}
    (hp : PcAligned s) : (store width put rs rt imm s).pc = s.pc + 4 := by
  rcases store_cases width put rs rt imm s with ⟨-, e⟩ | ⟨-, e⟩ <;> rw [e]
  · exact retire_pc_of_aligned _ (seqPc_aligned hp)
  · exact raiseOnly_pc _ hp

/-- The instructions that can raise INT_OVERFLOW, DATA_ALIGN or BREAK go on with the next word, whether they raise it or
not (spec/40_step.md R143). INVALID_INST stands in the list of that rule too, but is the kind of no instruction. -/
theorem exec_pc_of_kindOf {i : Instr} {s t : State} (h : exec i s = .next t) (hp : PcAligned s)
    (hk : kindOf i ∈ [1, 2, 8, 32]) : t.pc = s.pc + 4 := by
  cases i with
  | add | sub | addi =>
    cases h
    rw [writeBack_pc _ _ (by simpa [PcAligned] using hp), raiseIf_pc]
  | lh | lhu | lw => cases h; exact load_pc _ _ _ _ _ hp
  | sh | sw => cases h; exact store_pc _ _ _ _ _ hp
  | breakpoint => cases h; exact raiseOnly_pc _ hp
  | _ => simp [kindOf] at hk

/-- Settles O37: the mask names the kind of the instruction, and the kind says where `pc` goes. After PC_ALIGN, as after
every step, the sequencer has aligned it. -/
theorem pcAfterAnException : Obligations.PcAfterAnException := by
  intro s t hp h
  rcases step_cases h with ⟨i, -, hexec⟩ | ⟨-, rfl⟩
  · have hkind : t.mask ≠ 0 → t.mask = kindOf i := (exec_enterStep_mask hp hexec).resolve_left
    refine ⟨fun hm => ?_, fun hm => ?_, fun _ => exec_pcAligned hexec (enterStep_pcAligned hp)⟩
    · have hne : t.mask ≠ 0 := fun h0 => by simp [h0] at hm
      rw [hkind hne] at hm
      rw [exec_pc_of_kindOf hexec (enterStep_pcAligned hp) hm, enterStep_pc]
    · rw [hkind (by simp [hm])] at hm
      obtain ⟨c, rfl⟩ := kindOf_eq_syscall hm
      cases hexec
      exact enterStep_pc s
  · obtain ⟨hmask, hpc⟩ := raiseOnly_enterStep_mask_pc hp
    refine ⟨fun _ => hpc, fun hm => ?_, fun _ => retire_pc_aligned _ _⟩
    rw [hmask] at hm
    cases hm

/-! ### Which step has the mask SYSCALL -/

/-- The sequencer adds no SYSCALL to the mask. -/
@[simp] theorem sequencer_mask_syscall (n : Word) (s : State) : (sequencer n s).mask[7] = s.mask[7] := by
  simp only [sequencer_mask]
  split <;> simp

/-- An instruction that adds SYSCALL to the mask is `syscall`, wherever `pc` stands. -/
theorem exec_mask_syscall {i : Instr} {s t : State} (h : exec i s = .next t) (h0 : s.mask[7] = false)
    (ht : t.mask[7] = true) : ∃ c, i = .syscall c := by
  cases exec_shape h with
  | writes d v n c => cases c <;> simp [h0, ExceptionKind.bit] at ht
  | loads | stores | transfers => simp [writeBack, h0] at ht
  | raises e he =>
    refine kindOf_eq_syscall (he.trans ?_)
    cases e with
    | syscall => rfl
    | _ => simp [raiseOnly, h0, ExceptionKind.bit] at ht
  | halts hk => exact kindOf_eq_syscall hk

/-! ### No step reads `halted` -/

/-- The state with `halted` set to `b`. -/
def setHalted (b : Bool) (s : State) : State := { s with halted := b }

theorem retire_setHalted (n : Word) (b : Bool) (s : State) : retire n (setHalted b s) = setHalted b (retire n s) := by
  unfold retire sequencer; split <;> rfl

theorem writeReg_setHalted (r : RegName) (v : Word) (b : Bool) (s : State) :
    writeReg r v (setHalted b s) = setHalted b (writeReg r v s) := by
  unfold writeReg; split <;> rfl

theorem writeBack_setHalted (r : RegName) (v : Word) (b : Bool) (s : State) :
    writeBack r v (setHalted b s) = setHalted b (writeBack r v s) := by
  rw [writeBack, writeReg_setHalted, retire_setHalted]; rfl

theorem raiseOnly_setHalted (e : ExceptionKind) (b : Bool) (s : State) :
    raiseOnly e (setHalted b s) = setHalted b (raiseOnly e s) := retire_setHalted _ b (raise e s)

theorem raiseIf_setHalted (c : Bool) (e : ExceptionKind) (b : Bool) (s : State) :
    raiseIf c e (setHalted b s) = setHalted b (raiseIf c e s) := by
  cases c <;> rfl

theorem touch_setHalted (a : Word) (n : Nat) (b : Bool) (s : State) :
    touch a n (setHalted b s) = setHalted b (touch a n s) := by
  induction n generalizing a s with
  | zero => rfl
  | succ n ih => exact ih (a + 1) { s with pages := insertPage (pageOf a) s.pages }

theorem putBytes_setHalted (a : Word) (bs : List Byte) (b : Bool) (s : State) :
    putBytes a bs (setHalted b s) = setHalted b (putBytes a bs s) := by
  induction bs generalizing a s with
  | nil => rfl
  | cons x bs ih => exact ih (a + 1) (putByte a x s)

theorem load_setHalted (width : Nat) {value : State → Word → Word} (rs rt : RegName) (imm : BitVec 16) (b : Bool)
    (s : State) (hv : ∀ t a, value (setHalted b t) a = value t a) :
    load width value rs rt imm (setHalted b s) = setHalted b (load width value rs rt imm s) := by
  have hea : effectiveAddress (setHalted b s) rs imm = effectiveAddress s rs imm := rfl
  rw [load, hea, hv, touch_setHalted, writeBack_setHalted, raiseOnly_setHalted, ← apply_ite]
  rfl

theorem store_setHalted (width : Nat) (bytes : Word → List Byte) (rs rt : RegName) (imm : BitVec 16) (b : Bool)
    (s : State) : store width (fun a v => putBytes a (bytes v)) rs rt imm (setHalted b s) =
      setHalted b (store width (fun a v => putBytes a (bytes v)) rs rt imm s) := by
  have hea : effectiveAddress (setHalted b s) rs imm = effectiveAddress s rs imm := rfl
  rw [store, hea, putBytes_setHalted, retire_setHalted, raiseOnly_setHalted, ← apply_ite]
  rfl

theorem enterStep_setHalted (b : Bool) (s : State) : enterStep (setHalted b s) = setHalted b (enterStep s) :=
  touch_setHalted s.pc 4 b (clearZero { s with mask := 0 })

/-- An instruction other than `syscall` neither reads nor writes `halted`. -/
theorem exec_setHalted {i : Instr} {s t : State} (b : Bool) (h : exec i s = .next t) (hi : ∀ c, i ≠ .syscall c) :
    exec i (setHalted b s) = .next (setHalted b t) := by
  cases i with
  | add | sub | addi =>
    cases h
    exact congrArg _ ((congrArg (writeBack _ _) (raiseIf_setHalted _ .intOverflow b s)).trans
      (writeBack_setHalted _ _ b _))
  | syscall c => exact absurd rfl (hi c)
  | breakpoint => cases h; exact congrArg _ (raiseOnly_setHalted _ b s)
  | lb | lbu | lh | lhu | lw => cases h; exact congrArg _ (load_setHalted _ _ _ _ b s fun _ _ => rfl)
  | sb | sh | sw => cases h; exact congrArg _ (store_setHalted _ _ _ _ _ b s)
  | beq | bne | j | jr => cases h; exact congrArg _ (retire_setHalted _ b s)
  | jal =>
    cases h
    exact congrArg _ ((congrArg (retire _) (writeReg_setHalted 31 (seqPc s) b s)).trans (retire_setHalted _ b _))
  | _ => cases h; exact congrArg _ (writeBack_setHalted _ _ b s)

/-- Settles O32: every meaning but that of `syscall` commutes with setting `halted`; `syscall` sets it whatever it was,
and only `syscall` ends with the mask SYSCALL. -/
theorem stepDoesNotReadHalted : Obligations.StepDoesNotReadHalted := by
  intro s t b h
  show step (setHalted b s) = .next (setHalted (if t.mask = 128 then true else b) t)
  rcases step_cases h with ⟨i, hi, hexec⟩ | ⟨hno, rfl⟩
  · rw [step_of_decode (s := setHalted b s) hi, enterStep_setHalted]
    by_cases hsys : ∃ c, i = .syscall c
    · obtain ⟨c, rfl⟩ := hsys
      cases hexec
      simp [exec, execSyscall, setHalted, exitStep, clearZero, raise, ExceptionKind.bit]
    · have hm : t.mask ≠ 128 := fun hm => hsys (exec_mask_syscall hexec (by simp) (by simp [hm]))
      rw [if_neg hm]
      exact exec_setHalted b hexec (not_exists.mp hsys)
  · have hm : (raiseOnly .invalidInst (enterStep s)).mask ≠ 128 := by
      intro hm
      have hbit : (raiseOnly .invalidInst (enterStep s)).mask[7] = true := by rw [hm]; rfl
      simp [raiseOnly, ExceptionKind.bit] at hbit
    rw [step_of_invalid (s := setHalted b s) hno, enterStep_setHalted, raiseOnly_setHalted, if_neg hm]

end Sys2Proof.Machine
end

section
/-! Register-register arithmetic and logic (spec/41_alu_register.md). Each meaning is `writeBack` of one value, so what is
left to say is that the value is the stated one, and for `add` and `sub` when the exact result leaves the range. -/

namespace Sys2Proof.Machine

/-! ### The R format -/

/-- A word laid out in the R format is SPECIAL with its funct (spec/30_encoding.md R111). -/
theorem isSpecial_of_packR {i : Instr} {rs rt rd : RegName} {sa : BitVec 5} {f : BitVec 6}
    (h : encode i = packR rs rt rd sa f) : IsSpecial i f :=
  ⟨by rw [h, opcodeOf_packR], by rw [h, functOf_packR]⟩

/-! ### Instructions that write one register -/

/-- An instruction whose meaning is to write back `v` goes on with `v` in its register and nothing raised. The stated
value `w` may be spelled otherwise. -/
theorem exec_writes {i : Instr} {d : RegName} {v w : Word} {s : State} (h : exec i s = .next (writeBack d v s))
    (hp : PcAligned s) (hv : v = w) : ∃ t, exec i s = .next t ∧ RegWritten s t d w ∧ GoesOn s t 0 :=
  ⟨_, h, hv ▸ writeBack_regs d v s, writeBack_goesOn d v hp⟩

/-- The same, the value given bit by bit. -/
theorem exec_writes_bits {i : Instr} {d : RegName} {v : Word} {s : State} {bit : Nat → Bool}
    (h : exec i s = .next (writeBack d v s)) (hp : PcAligned s) (hv : ∀ k, k < 32 → v.getLsbD k = bit k) :
    ∃ (t : State) (v : Word), exec i s = .next t ∧ RegWritten s t d v ∧ GoesOn s t 0 ∧
      ∀ k, k < 32 → v.getLsbD k = bit k :=
  ⟨_, v, h, writeBack_regs d v s, writeBack_goesOn d v hp, hv⟩

/-! ### Signed overflow -/

theorem outsideSigned_iff (x : Int) : outsideSigned x = true ↔ LeavesSigned x := by
  simp [outsideSigned, LeavesSigned]

theorem saddOverflow_iff (a b : Word) : a.saddOverflow b = true ↔ LeavesSigned (a.toInt + b.toInt) := by
  simp [BitVec.saddOverflow, LeavesSigned, or_comm]

theorem ssubOverflow_iff (a b : Word) : a.ssubOverflow b = true ↔ LeavesSigned (a.toInt - b.toInt) := by
  simp [BitVec.ssubOverflow, LeavesSigned, or_comm]

/-- The sign-bit rule of `add` (R150). -/
theorem leavesSigned_add_iff_msb (a b : Word) :
    LeavesSigned (a.toInt + b.toInt) ↔ a.msb = b.msb ∧ (a + b).msb ≠ a.msb := by
  rw [← saddOverflow_iff, BitVec.saddOverflow_eq]
  simp

/-- The sign-bit rule of `sub` (R152). -/
theorem leavesSigned_sub_iff_msb (a b : Word) :
    LeavesSigned (a.toInt - b.toInt) ↔ a.msb ≠ b.msb ∧ (a - b).msb ≠ a.msb := by
  rw [← ssubOverflow_iff, BitVec.ssubOverflow_eq]
  cases a.msb <;> simp

/-- An instruction whose meaning is to write back `v` and to raise INT_OVERFLOW where the exact result `x` leaves the signed
range does raise it there, and nothing elsewhere; the register is written either way. -/
theorem exec_writes_overflow {i : Instr} {d : RegName} {v : Word} {x : Int} {s : State}
    (h : exec i s = .next (writeBack d v (raiseIf (outsideSigned x) .intOverflow s))) (hp : PcAligned s) :
    ∃ t, exec i s = .next t ∧ RegWritten s t d v ∧
      (LeavesSigned x → GoesOn s t 2) ∧ (¬ LeavesSigned x → GoesOn s t 0) := by
  obtain ⟨hreg, hgoes⟩ := writeBack_raiseIf d v (outsideSigned x) .intOverflow hp
  refine ⟨_, h, hreg, fun hx => ?_, fun hx => ?_⟩
  · rwa [if_pos ((outsideSigned_iff x).mpr hx)] at hgoes
  · rwa [if_neg (hx ∘ (outsideSigned_iff x).mp)] at hgoes

/-- Settles O8: `add` writes back the sum, and `outsideSigned` of the exact sum decides the raise. -/
theorem addWritesTheWrappedSumAndFlagsOverflow : Obligations.AddWritesTheWrappedSumAndFlagsOverflow :=
  fun _ _ _ _ _ hp =>
    ⟨isSpecial_of_packR rfl, exec_writes_overflow rfl hp, leavesSigned_add_iff_msb _ _⟩

/-- Settles O9: `sub` writes back the difference, and `outsideSigned` of the exact difference decides the raise. -/
theorem subWritesTheWrappedDifferenceAndFlagsOverflow : Obligations.SubWritesTheWrappedDifferenceAndFlagsOverflow :=
  fun _ _ _ _ _ hp =>
    ⟨isSpecial_of_packR rfl, exec_writes_overflow rfl hp, leavesSigned_sub_iff_msb _ _⟩

/-! ### Wrapped, bitwise and compared values -/

/-- Wrapped subtraction is exact subtraction modulo 2^32 (R153). -/
theorem sub_eq_ofInt (a b : Word) : a - b = BitVec.ofInt 32 (a.toNat - b.toNat) := by
  rw [Int.sub_eq_add_neg, BitVec.ofInt_add, BitVec.ofInt_neg, BitVec.ofInt_natCast, BitVec.ofInt_natCast,
    BitVec.ofNat_toNat, BitVec.ofNat_toNat, BitVec.setWidth_eq, BitVec.setWidth_eq, BitVec.sub_eq_add_neg]

/-- Settles O10: `addu` and `subu` write back the sum and the difference, which are the exact ones modulo 2^32. -/
theorem adduAndSubuWrapWithoutFlagging : Obligations.AdduAndSubuWrapWithoutFlagging := fun _ _ _ _ _ hp =>
  ⟨⟨isSpecial_of_packR rfl, exec_writes rfl hp (BitVec.add_def _ _)⟩,
    isSpecial_of_packR rfl, exec_writes rfl hp (sub_eq_ofInt _ _)⟩

/-- A bit of `nor`'s value (R157). -/
theorem getLsbD_not_or (a b : Word) {k : Nat} (hk : k < 32) :
    (~~~(a ||| b)).getLsbD k = !(a.getLsbD k || b.getLsbD k) := by
  rw [BitVec.getLsbD_not, BitVec.getLsbD_or, decide_eq_true hk, Bool.true_and]

/-- Settles O11: each instruction writes back the bitwise combination of its sources. -/
theorem logicalRegisterInstructionsAreBitwise : Obligations.LogicalRegisterInstructionsAreBitwise :=
  fun _ _ _ _ _ hp =>
    ⟨⟨isSpecial_of_packR rfl, exec_writes_bits rfl hp fun _ _ => BitVec.getLsbD_and⟩,
      ⟨isSpecial_of_packR rfl, exec_writes_bits rfl hp fun _ _ => BitVec.getLsbD_or⟩,
      ⟨isSpecial_of_packR rfl, exec_writes_bits rfl hp fun _ _ => BitVec.getLsbD_xor⟩,
      isSpecial_of_packR rfl, exec_writes_bits rfl hp fun _ hk => getLsbD_not_or _ _ hk⟩

theorem boolWord_signedLess (a b : Word) : boolWord (signedLess a b) = if a.toInt < b.toInt then 1 else 0 := by
  simp [boolWord, signedLess]

theorem boolWord_unsignedLess (a b : Word) : boolWord (unsignedLess a b) = if a.toNat < b.toNat then 1 else 0 := by
  simp [boolWord, unsignedLess]

/-- Settles O12: `slt` and `sltu` write back the comparison's 1 or 0. -/
theorem setOnLessThanComparesSignedAndUnsigned : Obligations.SetOnLessThanComparesSignedAndUnsigned :=
  fun _ _ _ _ _ hp =>
    ⟨⟨isSpecial_of_packR rfl, exec_writes rfl hp (boolWord_signedLess _ _)⟩,
      isSpecial_of_packR rfl, exec_writes rfl hp (boolWord_unsignedLess _ _)⟩

end Sys2Proof.Machine
end

section
/-! Shifts (spec/42_shifts.md). The constant and the variable shifts write back the same three values and differ in where the
amount comes from, so the bits of each value are given once, for any amount. -/

namespace Sys2Proof.Machine

/-! ### The bits of a shifted word -/

/-- A left shift fills with 0 from below (R170). -/
theorem getLsbD_shiftLeft_word (v : Word) (n : Nat) {k : Nat} (hk : k < 32) :
    (v <<< n).getLsbD k = (!decide (k < n) && v.getLsbD (k - n)) := by
  rw [BitVec.getLsbD_shiftLeft, decide_eq_true hk, Bool.true_and]

/-- A logical right shift fills with 0 from above, whatever bit 31 was (R171). -/
theorem getLsbD_ushiftRight_word (v : Word) (n k : Nat) :
    (v >>> n).getLsbD k = (decide (k + n < 32) && v.getLsbD (k + n)) := by
  rw [BitVec.getLsbD_ushiftRight, Nat.add_comm n k]
  by_cases h : k + n < 32
  · rw [decide_eq_true h, Bool.true_and]
  · rw [decide_eq_false h, Bool.false_and, BitVec.getLsbD_of_ge _ _ (Nat.le_of_not_lt h)]

/-- An arithmetic right shift fills with bit 31 from above (R172). -/
theorem getLsbD_sshiftRight_word (v : Word) (n : Nat) {k : Nat} (hk : k < 32) :
    (v.sshiftRight n).getLsbD k = if k + n < 32 then v.getLsbD (k + n) else v.msb := by
  rw [BitVec.getLsbD_sshiftRight, decide_eq_false (Nat.not_le_of_lt hk), Bool.not_false, Bool.true_and,
    Nat.add_comm n k]

/-! ### The amount in a register -/

/-- The low 5 bits of a register are its value modulo 32 (spec/30_encoding.md R106). -/
theorem shiftAmount_toNat (v : Word) : (shiftAmount v).toNat = v.toNat % 32 := by
  rw [shiftAmount, BitVec.extractLsb'_toNat, Nat.shiftRight_zero]

/-- Settles O13: each instruction writes back `rt` shifted by `shamt`. -/
theorem constantShiftsMoveBits : Obligations.ConstantShiftsMoveBits := fun _ _ _ _ _ hp =>
  ⟨⟨isSpecial_of_packR rfl, exec_writes_bits rfl hp fun _ hk => getLsbD_shiftLeft_word _ _ hk⟩,
    ⟨isSpecial_of_packR rfl, exec_writes_bits rfl hp fun _ _ => getLsbD_ushiftRight_word _ _ _⟩,
    isSpecial_of_packR rfl, exec_writes_bits rfl hp fun _ hk => getLsbD_sshiftRight_word _ _ hk⟩

/-- Settles O14: the values are those of the constant shifts, by the amount `shiftAmount` takes from `rs`. -/
theorem variableShiftsUseTheLowFiveBits : Obligations.VariableShiftsUseTheLowFiveBits := by
  intro s rs rt rd sa hp
  rw [← shiftAmount_toNat]
  exact ⟨⟨isSpecial_of_packR rfl, exec_writes_bits rfl hp fun _ hk => getLsbD_shiftLeft_word _ _ hk⟩,
    ⟨isSpecial_of_packR rfl, exec_writes_bits rfl hp fun _ _ => getLsbD_ushiftRight_word _ _ _⟩,
    isSpecial_of_packR rfl, exec_writes_bits rfl hp fun _ hk => getLsbD_sshiftRight_word _ _ hk⟩

end Sys2Proof.Machine
end

section
/-! Immediate arithmetic and logic (spec/43_alu_immediate.md). The meanings are those of the register forms with the extended
immediate as second source, so what is left to say is what the extended immediate is. -/

namespace Sys2Proof.Machine

/-! ### The I format -/

/-- A word laid out in the I format has its opcode in bits 31 to 26 (spec/30_encoding.md R111). -/
theorem hasOpcode_of_packI {i : Instr} {rs rt : RegName} {imm : BitVec 16} {op : BitVec 6}
    (h : encode i = packI op rs rt imm) : HasOpcode i op := by
  rw [HasOpcode, h, opcodeOf_packI]

/-! ### The sign-extended immediate -/

/-- Read unsigned, the sign-extended immediate is its signed value modulo 2^32 (R183). -/
theorem imms_toNat (imm : BitVec 16) : (imms imm).toNat = (imm.toInt % 2 ^ 32).toNat :=
  BitVec.toNat_ofInt imm.toInt

/-- Settles O15: both write back the wrapped sum of `rs` and the sign-extended immediate, whose signed value is the
immediate's; for `addi`, `outsideSigned` of the exact sum decides the raise. -/
theorem addiAndAddiuAddTheSignedImmediate : Obligations.AddiAndAddiuAddTheSignedImmediate := by
  intro s rs rt imm hp
  have haddi := exec_writes_overflow (i := .addi rs rt imm) rfl hp
  rw [add_imms, imms_toInt] at haddi
  exact ⟨⟨hasOpcode_of_packI rfl, haddi⟩, hasOpcode_of_packI rfl, exec_writes rfl hp (add_imms _ _)⟩

/-- Settles O16: each comparison is the register form's, with the sign-extended immediate read signed or unsigned. -/
theorem setOnLessThanImmediateComparesSignedAndUnsigned :
    Obligations.SetOnLessThanImmediateComparesSignedAndUnsigned := by
  intro s rs rt imm hp
  rw [← imms_toNat, ← imms_toInt]
  exact ⟨⟨hasOpcode_of_packI rfl, exec_writes rfl hp (boolWord_signedLess _ _)⟩,
    hasOpcode_of_packI rfl, exec_writes rfl hp (boolWord_unsignedLess _ _)⟩

/-! ### The zero-extended and the upper immediate -/

/-- A bit of the zero-extended immediate: 0 above bit 15, whatever bit 15 is (R184, R185, R186). -/
theorem getLsbD_immz (imm : BitVec 16) {k : Nat} (hk : k < 32) :
    (immz imm).getLsbD k = (decide (k < 16) && imm.getLsbD k) := by
  rw [immz, BitVec.getLsbD_setWidth, decide_eq_true hk, Bool.true_and]
  by_cases h : k < 16
  · rw [decide_eq_true h, Bool.true_and]
  · rw [decide_eq_false h, Bool.false_and, BitVec.getLsbD_of_ge _ _ (Nat.le_of_not_lt h)]

/-- A bit of `lui`'s value: 0 below bit 16, the immediate above (R187). -/
theorem getLsbD_immUpper (imm : BitVec 16) {k : Nat} (hk : k < 32) :
    (immUpper imm).getLsbD k = (!decide (k < 16) && imm.getLsbD (k - 16)) := by
  have hlow : k - 16 < 32 := by omega
  rw [immUpper, getLsbD_shiftLeft_word _ _ hk, BitVec.getLsbD_setWidth, decide_eq_true hlow, Bool.true_and]

/-- Settles O17: each instruction writes back the bitwise combination of `rs` and the zero-extended immediate, `lui` the
upper immediate alone. -/
theorem logicalImmediateInstructionsZeroExtend : Obligations.LogicalImmediateInstructionsZeroExtend :=
  fun _ _ _ _ hp =>
    ⟨⟨hasOpcode_of_packI rfl, exec_writes_bits rfl hp fun _ hk => by rw [BitVec.getLsbD_and, getLsbD_immz _ hk]⟩,
      ⟨hasOpcode_of_packI rfl, exec_writes_bits rfl hp fun _ hk => by rw [BitVec.getLsbD_or, getLsbD_immz _ hk]⟩,
      ⟨hasOpcode_of_packI rfl, exec_writes_bits rfl hp fun _ hk => by rw [BitVec.getLsbD_xor, getLsbD_immz _ hk]⟩,
      hasOpcode_of_packI rfl, exec_writes_bits rfl hp fun _ hk => getLsbD_immUpper _ hk⟩

end Sys2Proof.Machine
end

section
/-! Loads and stores (spec/44_load_store.md). Every access is `load` or `store` of one width, whose registers, pages and frame
are given once for any width; what is left to say is which value a load reads and which bytes a store writes. -/

namespace Sys2Proof.Machine

/-! ### Instructions that are one load or one store -/

/-- An instruction whose meaning only raises DATA_ALIGN: every misaligned access is one (R200). -/
theorem exec_misaligned {i : Instr} {s : State} (h : exec i s = .next (raiseOnly .dataAlign s)) (hp : PcAligned s) :
    ∃ t, exec i s = .next t ∧ RegsKept s t ∧ GoesOn s t 8 := ⟨_, h, raiseOnly_spec .dataAlign hp⟩

/-- An instruction whose meaning is an aligned load completes, and `P` holds of what it writes where it holds of what it
reads. -/
theorem exec_loads {i : Instr} {s : State} {width : Nat} {value : State → Word → Word} {rs rt : RegName}
    {imm : BitVec 16} {P : Word → Prop} (h : exec i s = .next (load width value rs rt imm s)) (hp : PcAligned s)
    (ha : (effectiveAddress s rs imm).toNat % width = 0) (hv : P (value s (effectiveAddress s rs imm))) :
    ∃ (t : State) (v : Word), exec i s = .next t ∧ RegWritten s t rt v ∧ P v ∧
      BytesKept s t ∧ Accessed s t (effectiveAddress s rs imm) width := by
  obtain ⟨hreg, hbytes, hacc⟩ := load_aligned width value rs rt imm hp ha
  exact ⟨_, _, h, hreg, hv, hbytes, hacc⟩

/-- An aligned store leaves the bytes its `put` leaves. -/
theorem byteAt_store_aligned {width : Nat} (put : Word → Word → State → State) (rs rt : RegName) (imm : BitVec 16)
    {s : State} (ha : (effectiveAddress s rs imm).toNat % width = 0) (a : Word) :
    byteAt (store width put rs rt imm s) a = byteAt (put (effectiveAddress s rs imm) (readReg s rt) s) a := by
  rcases store_cases width put rs rt imm s with ⟨-, e⟩ | ⟨hmis, -⟩
  · rw [e, byteAt_retire]
  · simp [alignedTo, ha] at hmis

/-- An instruction that has no bit to raise leaves the mask as it is. -/
theorem exec_mask_of_kindOf_zero {i : Instr} {s t : State} (h : exec i s = .next t) (hp : PcAligned s)
    (hk : kindOf i = 0) : t.mask = s.mask := by
  rcases exec_mask h hp with e | e
  · exact e
  · rw [e, hk]; exact BitVec.or_zero

/-- Settles O18: a misaligned access is `raiseOnly`, and an access of one byte has no bit to raise. -/
theorem accessAddressAndAlignmentAreCheckedFirst : Obligations.AccessAddressAndAlignmentAreCheckedFirst := by
  intro s rs rt imm hp
  refine ⟨add_imms _ _, fun t ht => ?_, fun h => ⟨?_, ?_, ?_⟩, fun h => ⟨?_, ?_⟩⟩
  · rcases ht with h | h | h <;> exact exec_mask_of_kindOf_zero h hp rfl
  · exact exec_misaligned (congrArg _ (load_misaligned 2 _ rs rt imm s h)) hp
  · exact exec_misaligned (congrArg _ (load_misaligned 2 _ rs rt imm s h)) hp
  · exact exec_misaligned (congrArg _ (store_misaligned 2 _ rs rt imm s h)) hp
  · exact exec_misaligned (congrArg _ (load_misaligned 4 _ rs rt imm s h)) hp
  · exact exec_misaligned (congrArg _ (store_misaligned 4 _ rs rt imm s h)) hp

/-! ### The value a load reads -/

theorem signedByte_toInt (b : Byte) : (signedByte b).toInt = b.toInt := BitVec.toInt_signExtend_of_le (by omega)

theorem unsignedByte_toNat (b : Byte) : (unsignedByte b).toNat = b.toNat := BitVec.toNat_setWidth_of_le (by omega)

theorem signedHalf_toInt (h : Half) : (signedHalf h).toInt = h.toInt := BitVec.toInt_signExtend_of_le (by omega)

theorem unsignedHalf_toNat (h : Half) : (unsignedHalf h).toNat = h.toNat := BitVec.toNat_setWidth_of_le (by omega)

/-- A halfword is the number of its two bytes (spec/20_memory.md R65). -/
theorem halfAt_eq_ofNat (s : State) (a : Word) :
    halfAt s a = BitVec.ofNat 16 ((byteAt s a).toNat * 256 + (byteAt s (a + 1)).toNat) := by
  rw [← halfAt_toNat, BitVec.ofNat_toNat, BitVec.setWidth_eq]

/-- A word as a number of its four bytes (spec/20_memory.md R66). -/
theorem wordAt_toNat_bytes (s : State) (a : Word) :
    (wordAt s a).toNat = ((byteAt s a).toNat * 256 + (byteAt s (a + 1)).toNat) * 65536 +
      (byteAt s (a + 2)).toNat * 256 + (byteAt s (a + 3)).toNat := by
  have hlast : a + 2 + 1 = a + 3 := BitVec.add_assoc a 2 1
  rw [wordAt_toNat, halfAt_toNat, halfAt_toNat, hlast, Nat.add_assoc]

/-- Settles O19: every address is a multiple of 1, and the loaded value is the extended byte. -/
theorem loadByteExtendsTheByte : Obligations.LoadByteExtendsTheByte := fun _ _ _ _ hp =>
  ⟨⟨hasOpcode_of_packI rfl, exec_loads rfl hp (Nat.mod_one _) (signedByte_toInt _)⟩,
    hasOpcode_of_packI rfl, exec_loads rfl hp (Nat.mod_one _) (unsignedByte_toNat _)⟩

/-- Settles O20: the loaded value is the extended halfword, which is the number of its two bytes. -/
theorem loadHalfwordExtendsTheHalfword : Obligations.LoadHalfwordExtendsTheHalfword := fun s rs _ imm hp ha =>
  ⟨⟨hasOpcode_of_packI rfl, exec_loads rfl hp ha
      ((signedHalf_toInt _).trans (congrArg _ (halfAt_eq_ofNat s (effectiveAddress s rs imm))))⟩,
    hasOpcode_of_packI rfl, exec_loads rfl hp ha ((unsignedHalf_toNat _).trans (halfAt_toNat _ _))⟩

/-- Settles O21: the loaded value is the word, the number of its four bytes. -/
theorem loadWordReadsTheBigEndianWord : Obligations.LoadWordReadsTheBigEndianWord := fun _ _ _ _ hp ha =>
  ⟨hasOpcode_of_packI rfl, exec_loads rfl hp ha (wordAt_toNat_bytes _ _)⟩

/-! ### The bytes a store writes -/

/-- A byte of a word as a number. -/
theorem extractByte_toNat (v : Word) (k : Nat) : (v.extractLsb' k 8).toNat = v.toNat / 2 ^ k % 256 := by
  rw [BitVec.extractLsb'_toNat, Nat.shiftRight_eq_div_pow]

/-- The most significant byte of a word. -/
theorem highByte_toNat (v : Word) : (v.extractLsb' 24 8).toNat = v.toNat / 16777216 := by
  rw [extractByte_toNat]
  have := v.isLt
  omega

/-- The least significant byte of a word. -/
theorem lowByte_toNat (v : Word) : (v.extractLsb' 0 8).toNat = v.toNat % 256 := by
  rw [extractByte_toNat, Nat.pow_zero, Nat.div_one]

/-- Settles O22: each store puts the bytes of `rt` that its width takes, and those are the stated numbers. -/
theorem storesWriteTheLowBytesBigEndian : Obligations.StoresWriteTheLowBytesBigEndian := by
  intro s rs rt imm hp
  refine ⟨⟨hasOpcode_of_packI rfl, _, rfl, ?_⟩, fun ha => ⟨hasOpcode_of_packI rfl, _, rfl, ?_⟩,
    fun ha => ⟨hasOpcode_of_packI rfl, _, rfl, ?_⟩⟩
  · obtain ⟨hregs, -, hframe⟩ := store_aligned 1 setByte (fun v => [v.extractLsb' 0 8]) rs rt imm
      (fun _ _ _ => rfl) (fun _ => rfl) (by omega) hp (Nat.mod_one _)
    refine ⟨hregs, ?_, hframe⟩
    rw [byteAt_store_aligned _ _ _ _ (Nat.mod_one _), byteAt_setByte, if_pos rfl, lowByte_toNat]
  · obtain ⟨hregs, -, hframe⟩ := store_aligned 2 setHalf (fun v => [v.extractLsb' 8 8, v.extractLsb' 0 8]) rs rt imm
      (fun _ _ _ => rfl) (fun _ => rfl) (by omega) hp ha
    obtain ⟨b0, b1⟩ := byteAt_setHalf (effectiveAddress s rs imm) (readReg s rt) s
    refine ⟨hregs, ?_, ?_, hframe⟩ <;> rw [byteAt_store_aligned _ _ _ _ ha]
    · rw [b0]; exact extractByte_toNat _ 8
    · rw [b1, lowByte_toNat]
  · obtain ⟨hregs, -, hframe⟩ := store_aligned 4 setWord bytesOfWord rs rt imm
      (fun _ _ _ => rfl) (fun _ => rfl) (by omega) hp ha
    obtain ⟨b0, b1, b2, b3⟩ := byteAt_setWord (effectiveAddress s rs imm) (readReg s rt) s
    refine ⟨hregs, ?_, ?_, ?_, ?_, hframe⟩ <;> rw [byteAt_store_aligned _ _ _ _ ha]
    · rw [b0, highByte_toNat]
    · rw [b1]; exact extractByte_toNat _ 16
    · rw [b2]; exact extractByte_toNat _ 8
    · rw [b3, lowByte_toNat]

end Sys2Proof.Machine
end

section
/-! Branches and jumps (spec/45_control_transfer.md). Each meaning is `retire` of one target, so what is left to say is which
address the target is, and that it is aligned. The field the assembler computes for a branch is measured from the next word
(spec/48_assembler.md R351), the CPU adds it to the branch's own address; the two meet in R231. -/

namespace Sys2Proof.Machine

/-! ### The J format -/

/-- A word laid out in the J format has its opcode in bits 31 to 26 (spec/30_encoding.md R111). -/
theorem hasOpcode_of_packJ {i : Instr} {target : BitVec 26} {op : BitVec 6} (h : encode i = packJ op target) :
    HasOpcode i op := by
  rw [HasOpcode, h, opcodeOf_packJ]

/-! ### Targets -/

/-- The target of a taken branch is its own address plus four times the signed immediate (R220). -/
theorem branchTo_eq_add_ofInt (s : State) (imm : BitVec 16) :
    branchTo s imm = s.pc + BitVec.ofInt 32 (4 * imm.toInt) := by
  have himms : imms imm = BitVec.ofInt 32 imm.toInt := rfl
  rw [branchTo, BitVec.shiftLeft_eq_mul_twoPow, himms, Int.mul_comm, BitVec.ofInt_mul]
  rfl

/-- The region of a jump: the upper four bits of its own address (R222). -/
theorem region_toNat (pc : Word) : (pc &&& 0xF0000000).toNat = 2 ^ 28 * (pc.toNat / 2 ^ 28) := by
  have hmask : (0xF0000000 : Word) = BitVec.allOnes 32 <<< 28 := by decide
  rw [hmask, ← BitVec.shiftLeft_ushiftRight, BitVec.toNat_shiftLeft, BitVec.toNat_ushiftRight, Nat.shiftLeft_eq,
    Nat.shiftRight_eq_div_pow]
  have := pc.isLt
  omega

/-- The offset of a jump within its region (R222). -/
theorem jumpOffset_toNat (target : BitVec 26) : (target.setWidth 32 <<< 2).toNat = 4 * target.toNat := by
  rw [BitVec.toNat_shiftLeft, BitVec.toNat_setWidth, Nat.shiftLeft_eq]
  omega

/-- The target of a jump: region and offset have no bit in common, so they add up (R222). -/
theorem jumpTo_eq_ofNat (s : State) (target : BitVec 26) :
    jumpTo s target = BitVec.ofNat 32 (s.pc.toNat / 2 ^ 28 * 2 ^ 28 + 4 * target.toNat) := by
  have hlt : 4 * target.toNat < 2 ^ 28 := by omega
  have hsum : (jumpTo s target).toNat = s.pc.toNat / 2 ^ 28 * 2 ^ 28 + 4 * target.toNat := by
    rw [jumpTo, BitVec.toNat_or, region_toNat, jumpOffset_toNat, ← Nat.two_pow_add_eq_or_of_lt hlt, Nat.mul_comm]
  rw [← hsum, BitVec.ofNat_toNat, BitVec.setWidth_eq]

/-- The rounding of the PC sequencer takes a misaligned address to the next multiple of 4 modulo 2^32 (R224). -/
theorem roundUp_of_misaligned {t : Word} (h : t.toNat % 4 ≠ 0) :
    roundUp t = BitVec.ofNat 32 (t.toNat / 4 * 4 + 4) := by
  apply BitVec.eq_of_toNat_eq
  have hthree : (3 : Word).toNat = 3 := rfl
  rw [roundUp_toNat, BitVec.toNat_add, BitVec.toNat_ofNat, hthree]
  omega

/-! ### Instructions that transfer control -/

/-- Everything a transfer of control to a misaligned address does (spec/40_step.md R137). -/
theorem retire_transferred_of_misaligned {t : Word} (s : State) (h : t.toNat % 4 ≠ 0) :
    RegsKept s (retire t s) ∧ Transferred s (retire t s) (roundUp t) 4 :=
  ⟨fun r => by simp, fun a => by simp, fun p => by simp, ⟨by simp, by simp, by simp, by simp⟩,
    by rw [retire_pc, sequencer_misaligned s h], by rw [retire_mask, sequencer_misaligned s h]; rfl⟩

/-- Everything a linked transfer of control to an aligned address does (R223). -/
theorem retire_writeReg_transferred {n : Word} (d : RegName) (v : Word) (s : State) (h : n.toNat % 4 = 0) :
    RegWritten s (retire n (writeReg d v s)) d v ∧ Transferred s (retire n (writeReg d v s)) n 0 := by
  refine ⟨fun r => by rw [readReg_retire, readReg_writeReg], fun a => ?_, fun p => by simp,
    ⟨by simp, by simp, by simp, by simp⟩, retire_pc_of_aligned _ h, by rw [retire_mask_of_aligned _ h]; simp⟩
  rw [byteAt_retire, byteAt_congr (writeReg_mem d v s)]

/-- An instruction whose meaning is to go to an aligned address completes there, with no register written. -/
theorem exec_transfers {i : Instr} {s : State} {n : Word} (h : exec i s = .next (retire n s)) (hn : n.toNat % 4 = 0) :
    ∃ t, exec i s = .next t ∧ RegsKept s t ∧ Transferred s t n 0 :=
  ⟨_, h, retire_transferred s hn⟩

/-- A conditional branch goes to its target where its condition holds, else to the next word. -/
theorem exec_branches {i : Instr} {s : State} {c : Prop} [Decidable c] {imm : BitVec 16}
    (h : exec i s = .next (retire (if c then branchTo s imm else seqPc s) s)) (hp : PcAligned s) :
    ∃ t, exec i s = .next t ∧ RegsKept s t ∧
      Transferred s t (if c then s.pc + BitVec.ofInt 32 (4 * imm.toInt) else s.pc + 4) 0 := by
  rw [← branchTo_eq_add_ofInt]
  refine exec_transfers h ?_
  split
  · exact branchTo_aligned imm hp
  · exact seqPc_aligned hp

/-- Settles O24: both are conditional branches. -/
theorem branchesCompareAndAddToTheirOwnAddress : Obligations.BranchesCompareAndAddToTheirOwnAddress :=
  fun _ _ _ _ hp => ⟨⟨hasOpcode_of_packI rfl, exec_branches rfl hp⟩, hasOpcode_of_packI rfl, exec_branches rfl hp⟩

/-- Settles O25: both go to `jumpTo`, which is aligned wherever the jump stands. -/
theorem jumpsStayInTheirRegionAndJalLinks : Obligations.JumpsStayInTheirRegionAndJalLinks := by
  intro s target
  rw [← jumpTo_eq_ofNat]
  have hn := jumpTo_aligned s target
  exact ⟨⟨hasOpcode_of_packJ rfl, exec_transfers rfl hn⟩,
    hasOpcode_of_packJ rfl, _, rfl, retire_writeReg_transferred 31 (s.pc + 4) s hn⟩

/-- Settles O26: `jr` hands the register to the PC sequencer, which rounds up what is misaligned. -/
theorem jrRoundsAMisalignedTargetUp : Obligations.JrRoundsAMisalignedTargetUp := by
  intro s rs rt rd sa
  refine ⟨isSpecial_of_packR rfl, exec_transfers rfl, fun h => ⟨_, rfl, ?_⟩⟩
  rw [← roundUp_of_misaligned h]
  exact retire_transferred_of_misaligned s h

/-! ### The assembler's branch field -/

/-- The field the assembler computes is the floored word distance from the word after the branch (spec/48_assembler.md
R351). -/
theorem toInt_of_relocBranch {pc target : Nat} {field : BitVec 16} (h : relocBranch pc target = .ok field) :
    field.toInt = ((target : Int) - (pc + 4)) / 4 := by
  simp only [relocBranch] at h
  split at h
  · next hrange =>
    obtain ⟨hlow, hhigh⟩ := hrange
    cases h
    exact BitVec.toInt_ofInt_eq_self (by decide) hlow (Int.lt_of_le_sub_one hhigh)
  · cases h

/-- Settles O57: between multiples of 4 the distance is exact, so the CPU adds to `pc` what the assembler measured from
`pc + 4`. -/
theorem anAssembledTakenBranchLandsOneWordEarly : Obligations.AnAssembledTakenBranchLandsOneWordEarly := by
  intro s target field hp ht h
  have hfield := toInt_of_relocBranch h
  unfold PcAligned at hp
  have hexact : 4 * field.toInt = ((target.toNat : Int) - s.pc.toNat) + (-4 : Int) := by omega
  rw [branchTo_eq_add_ofInt, hexact, BitVec.ofInt_add, ← sub_eq_ofInt]
  show s.pc + (target - s.pc + -4) = target - 4
  bv_omega

end Sys2Proof.Machine
end

section
/-! System instructions (spec/46_system.md). An invalid word and `break` are both `raiseOnly` of one kind, so they go on with
the next word; `syscall` has an exit of its own, without the PC sequencer. -/

namespace Sys2Proof.Machine

/-- A word laid out with a code field is SPECIAL with its funct (spec/30_encoding.md R111). -/
theorem isSpecial_of_packCode {i : Instr} {code : BitVec 20} {f : BitVec 6} (h : encode i = packCode code f) :
    IsSpecial i f :=
  ⟨by rw [h, opcodeOf_packCode], by rw [h, functOf_packCode]⟩

/-- The entry of a step allocates the fetched word's page; raising afterwards allocates no other (R245). -/
theorem raiseOnly_enterStep_pagesGain (e : ExceptionKind) (s : State) :
    PagesGain s (raiseOnly e (enterStep s)) s.pc 4 := by
  intro p
  rw [raiseOnly, retire_pages, raise_pages]
  exact enterStep_pages s p

/-- Settles O7: the step enters and then only raises INVALID_INST, and neither part changes a register, a byte or
`halted`. -/
theorem invalidWordOnlyRaises : Obligations.InvalidWordOnlyRaises := by
  intro s hp hno
  obtain ⟨hregs, hbytes, -, ⟨hcycle, hhalted, htarget, hstop⟩, -, -⟩ :=
    raiseOnly_spec .invalidInst (enterStep_pcAligned hp)
  obtain ⟨hmask, hpc⟩ := raiseOnly_enterStep_mask_pc hp
  refine ⟨_, step_of_invalid hno, fun r => ?_, fun a => ?_, raiseOnly_enterStep_pagesGain _ s, ?_, hpc, hmask⟩
  · rw [hregs, readReg_enterStep]
  · rw [hbytes, byteAt_enterStep]
  · exact ⟨by rw [hcycle, enterStep_cycle], by rw [hhalted, enterStep_halted], by rw [htarget, enterStep_branchTarget],
      by rw [hstop, enterStep_stopRequest]⟩

/-- Settles O27: `syscall` sets `halted`, raises SYSCALL and exits; its exit clears register 0 and counts the cycle. -/
theorem syscallHaltsInPlace : Obligations.SyscallHaltsInPlace := by
  intro s code
  refine ⟨isSpecial_of_packCode rfl, _, rfl, rfl, rfl, rfl, rfl, ?registers, ?zero, ?bytes, fun _ => Iff.rfl, rfl, rfl⟩
  case registers => exact readReg_of_cleared rfl
  case zero => exact exec_zeroHolds (i := .syscall code) rfl
  case bytes => exact byteAt_congr rfl

/-- Settles O28: the meaning of `break` is `raiseOnly` of BREAK, whatever its code bits. -/
theorem breakOnlyRaises : Obligations.BreakOnlyRaises :=
  fun _ _ hp => ⟨isSpecial_of_packCode rfl, _, rfl, raiseOnly_spec .breakpoint hp⟩

end Sys2Proof.Machine
end

section
/-! The assembler's configuration, labels and alignment (spec/48_assembler.md R302, R323, R327, R336). -/

namespace Sys2Proof.Machine

/-- Settles O50: the configuration is checked before anything else. -/
theorem aMisalignedTextStartIsRejected : Obligations.AMisalignedTextStartIsRejected := by
  refine ⟨fun cfg source h => ?_, by decide⟩
  have hinvalid : cfg.valid = false := by simpa [AsmConfig.valid] using h
  rw [assembleText, hinvalid]
  rfl

/-- Settles O59: the bound label is the table's last entry, which `symbolAddr` reaches under no other name. -/
theorem labelsAreOneSymbolInAnyCase : Obligations.LabelsAreOneSymbolInAnyCase := by
  intro name name' other p p' h hcase
  obtain ⟨hnew, rfl⟩ := bindLabel_eq_ok h
  have hfound : symbolAddr (lower name') (p.symbols ++ [(lower name, activeAddr p)]) = some (activeAddr p) := by
    rw [hcase, symbolAddr_append, hnew]
    exact if_pos rfl
  refine ⟨hfound, by rw [bindLabel, hfound], fun hother => ?_⟩
  rw [symbolAddr_append, if_neg (Ne.symm hother)]
  cases symbolAddr (lower other) p.symbols <;> rfl

/-- A successful `.align k` (R336): `k` is in range, and the line reserves what the next multiple of `2^k` lies ahead. -/
theorem directiveLine_align_eq_ok {n : Nat} {ts : List Token} {p p' : Pass1} {l : ParsedLine}
    (h : directiveLine n .align ts p = .ok (p', l)) :
    ∃ raw k, ts = [.integer raw] ∧ integerValue raw = .ok k ∧ 0 ≤ k ∧ k ≤ 31 ∧
      reserve n 1 (alignNat (2 ^ k.toNat) (activeAddr p) - activeAddr p) .padding p = .ok (p', l) := by
  obtain ⟨⟨k, rest⟩, htake, h⟩ := bind_eq_ok h
  obtain ⟨u, hrest, hreserve⟩ := bind_eq_ok h
  obtain rfl := noMore_eq_ok.mp hrest
  obtain ⟨raw, rfl, hraw, hlow, hhigh⟩ := takeInt_eq_ok htake
  exact ⟨raw, k, rfl, hraw, hlow, hhigh, hreserve⟩

/-- Settles O58: `alignNat` is the least such multiple, and the reservation starts where the segment stands. -/
theorem alignReservesExactlyThePadding : Obligations.AlignReservesExactlyThePadding := by
  intro n raw k p p' l hraw h
  obtain ⟨raw', k', hts, hraw', -, hk, hreserve⟩ := directiveLine_align_eq_ok h
  cases hts
  cases hraw.symm.trans hraw'
  obtain ⟨rfl, hadvance⟩ := reserve_eq_ok hreserve
  obtain ⟨-, haddr, hsegment, hsymbols, hdata, htext⟩ := advanceTo_eq_ok hadvance
  obtain ⟨hge, hlt, hmultiple⟩ := alignNat_spec (Nat.two_pow_pos k) (activeAddr p)
  have hactive : activeAddr p' = alignNat (2 ^ k) (activeAddr p) := by
    rw [haddr, alignNat_one, Int.toNat_natCast]
    omega
  rw [← hactive] at hge hlt hmultiple
  refine ⟨by omega, hge, hlt, hmultiple, alignNat_one _, ?_, rfl, hsegment, hsymbols, hdata, htext⟩
  rw [hactive, Int.toNat_natCast]

end Sys2Proof.Machine
end

section
/-! The tokeniser consumes text at every match (spec/48_assembler.md R311), so its fuel never runs out. -/

namespace Sys2Proof.Machine

/-! ### What a pattern leaves -/

/-- A run of characters that is not empty leaves less than there was. -/
theorem length_dropWhile_lt {c : Char → Bool} {t : Text} (h : (t.takeWhile c).isEmpty = false) :
    (t.dropWhile c).length < t.length := by
  have hsplit := congrArg List.length (List.takeWhile_append_dropWhile (p := c) (l := t))
  have hrun : 0 < (t.takeWhile c).length := List.length_pos_iff.mpr (by simpa using h)
  rw [List.length_append] at hsplit
  omega

/-- Pattern 1 (R312) leaves less than it was given, and so do all the others below. -/
theorem matchSpecial_consumes {t name rest : Text} (h : matchSpecial t = some (name, rest)) :
    rest.length < t.length := by
  unfold matchSpecial at h
  split at h
  · next c t =>
    split at h <;> cases h
    have := List.length_dropWhile_le isIdentChar t
    simp only [List.length_cons]
    omega
  · cases h

theorem matchIdent_consumes {t name rest : Text} (h : matchIdent t = some (name, rest)) : rest.length < t.length := by
  unfold matchIdent at h
  split at h
  · next c t =>
    split at h <;> cases h
    exact Nat.lt_succ_of_le (List.length_dropWhile_le isIdentChar t)
  · cases h

theorem matchLabel_consumes {t name rest : Text} (h : matchLabel t = some (name, rest)) : rest.length < t.length := by
  unfold matchLabel at h
  split at h
  · next hident =>
    cases h
    exact Nat.lt_of_succ_lt (matchIdent_consumes hident)
  · cases h

theorem scanString_consumes {t raw rest : Text} (h : scanString t = some (raw, rest)) : rest.length < t.length := by
  fun_induction scanString t generalizing raw rest with
  | case1 => cases h
  | case2 t => cases h; exact Nat.lt_succ_self _
  | case3 => cases h
  | case4 c t ih =>
    obtain ⟨⟨raw', rest'⟩, hscan, he⟩ := Option.map_eq_some_iff.mp h
    cases he
    have := ih hscan
    simp only [List.length_cons]
    omega
  | case5 c t _ _ _ ih =>
    obtain ⟨⟨raw', rest'⟩, hscan, he⟩ := Option.map_eq_some_iff.mp h
    cases he
    exact Nat.lt_succ_of_lt (ih hscan)

theorem matchString_consumes {t raw rest : Text} (h : matchString t = some (raw, rest)) : rest.length < t.length := by
  unfold matchString at h
  split at h
  · exact Nat.lt_succ_of_lt (scanString_consumes h)
  · cases h

theorem matchRegister_consumes {t name rest : Text} (h : matchRegister t = some (name, rest)) :
    rest.length < t.length := by
  unfold matchRegister at h
  split at h
  · next t =>
    split at h <;> cases h
    exact Nat.lt_succ_of_le (List.length_dropWhile_le isAlnum t)
  · split at h
    · next hident =>
      split at h <;> cases h
      exact matchIdent_consumes hident
    · cases h

theorem matchBase_consumes {t reg rest : Text} (h : matchBase t = some (reg, rest)) : rest.length < t.length := by
  unfold matchBase at h
  split at h
  · next t =>
    split at h
    · cases h
    · split at h
      · next hclose =>
        cases h
        have := List.length_dropWhile_le isAlnum t
        rw [hclose] at this
        simp only [List.length_cons] at this ⊢
        omega
      · cases h
  · cases h

theorem matchBaseOffset_consumes {t offset reg rest : Text} (h : matchBaseOffset t = some (offset, reg, rest)) :
    rest.length < t.length := by
  unfold matchBaseOffset at h
  split at h <;> obtain ⟨⟨reg', rest'⟩, hbase, he⟩ := Option.map_eq_some_iff.mp h <;> cases he
  · exact Nat.lt_succ_of_lt (Nat.lt_of_lt_of_le (matchBase_consumes hbase) (List.length_dropWhile_le _ _))
  · exact Nat.lt_of_lt_of_le (matchBase_consumes hbase) (List.length_dropWhile_le _ _)

theorem matchHex_consumes {t raw rest : Text} (h : matchHex t = some (raw, rest)) : rest.length < t.length := by
  unfold matchHex at h
  split at h
  · next x t =>
    split at h <;> cases h
    have := List.length_dropWhile_le isHexDigit t
    simp only [List.length_cons]
    omega
  · cases h

theorem matchDecimal_consumes {t raw rest : Text} (h : matchDecimal t = some (raw, rest)) : rest.length < t.length := by
  unfold matchDecimal at h
  split at h <;> split at h
  · cases h
  · next t _ => cases h; exact Nat.lt_succ_of_le (List.length_dropWhile_le isDigit t)
  · cases h
  · next hdigits => cases h; exact length_dropWhile_lt (Bool.not_eq_true _ ▸ hdigits)

theorem matchCharacter_consumes {t raw rest : Text} (h : matchCharacter t = some (raw, rest)) :
    rest.length < t.length := by
  unfold matchCharacter at h
  split at h
  · cases h; simp only [List.length_cons]; omega
  · split at h <;> cases h; simp only [List.length_cons]; omega
  · cases h

theorem matchInteger_consumes {t raw rest : Text} (h : matchInteger t = some (raw, rest)) : rest.length < t.length := by
  rcases Option.or_eq_some_iff.mp h with hhex | ⟨-, h⟩
  · exact matchHex_consumes hhex
  · rcases Option.or_eq_some_iff.mp h with hdecimal | ⟨-, hcharacter⟩
    · exact matchDecimal_consumes hdecimal
    · exact matchCharacter_consumes hcharacter

/-! ### The tokeniser -/

/-- A value computed from a match leaves the match's rest. -/
theorem map_prod_eq_ok {α β γ ε : Type} {x : Except ε α} {f : α → β} {a : γ} {b : γ} {y : β}
    (h : x.map (fun v => (f v, a)) = .ok (y, b)) : b = a := by
  cases x <;> cases h
  rfl

/-- Every match at a position consumes text: the match is one of the patterns', or a separator. -/
theorem nextToken_consumes {t rest : Text} {token : Option Token} (h : nextToken t = .ok (token, rest)) :
    rest.length < t.length := by
  unfold nextToken at h
  split at h
  · next hm => cases h; exact matchSpecial_consumes hm
  split at h
  · next hm => cases h; exact matchLabel_consumes hm
  split at h
  · next hm => rw [map_prod_eq_ok h]; exact matchString_consumes hm
  split at h
  · cases h
  split at h
  · cases h; exact Nat.lt_succ_self _
  split at h
  · next hm => cases h; exact matchRegister_consumes hm
  split at h
  · next hm => rw [map_prod_eq_ok h]; exact matchBaseOffset_consumes hm
  split at h
  · next hm => cases h; exact matchInteger_consumes hm
  split at h
  · next hm => cases h; exact matchIdent_consumes hm
  · cases h

/-- Any two fuels of at least the text's length give the same tokens. -/
theorem tokeniseFrom_fuel {fuel fuel' : Nat} (acc : List Token) {t : Text} (h : t.length ≤ fuel)
    (h' : t.length ≤ fuel') : tokeniseFrom fuel acc t = tokeniseFrom fuel' acc t := by
  induction fuel generalizing fuel' acc t with
  | zero =>
    obtain rfl := List.length_eq_zero_iff.mp (Nat.le_zero.mp h)
    rw [tokeniseFrom, tokeniseFrom]
  | succ fuel ih =>
    cases t with
    | nil => rw [tokeniseFrom, tokeniseFrom]
    | cons c t =>
      obtain _ | fuel' := fuel'
      · cases h'
      simp only [tokeniseFrom]
      have hrest : ∀ {token rest}, nextToken (c :: t) = .ok (token, rest) → ∀ acc,
          tokeniseFrom fuel acc rest = tokeniseFrom fuel' acc rest := by
        intro token rest hnext acc
        have := nextToken_consumes hnext
        exact ih acc (by omega) (by omega)
      cases hnext : nextToken (c :: t) with
      | error e => rfl
      | ok m =>
        obtain ⟨_ | token, rest⟩ := m
        · exact hrest hnext acc
        · simp only [hrest hnext]

/-- Settles O60, from what each pattern consumes and by induction on the fuel. -/
theorem everyMatchConsumesAndTheTokeniserFinishes : Obligations.EveryMatchConsumesAndTheTokeniserFinishes :=
  ⟨fun _ _ _ => nextToken_consumes, fun _ _ h => tokeniseFrom_fuel [] h (Nat.le_refl _)⟩

end Sys2Proof.Machine
end

section
/-! The assembler's relocations (spec/48_assembler.md R350 to R352) against the CPU's arithmetic: which field each gives, and
what the CPU makes of it (spec/45_control_transfer.md R222, spec/30_encoding.md R110). -/

namespace Sys2Proof.Machine

/-! ### Branches -/

/-- A relocation against a name without a symbol (R350 to R352). -/
theorem relocate_of_undefined {symbols : List (Text × Nat)} {u : Unresolved} (h : symbolAddr u.label symbols = none) :
    relocate symbols u = .error .undefinedSymbol := by
  rw [relocate, resolve, h]
  rfl

/-- A branch's relocation against its label's address: the field of `relocBranch`, or its error (R351). -/
theorem relocate_branch {symbols : List (Text × Nat)} {u : Unresolved} {target : Nat} (hkind : u.kind = .branch)
    (h : symbolAddr u.label symbols = some target) :
    relocate symbols u =
      (relocBranch u.addr target).map (fun offset => (packI u.opcode u.rs u.rt offset, none)) := by
  have hbind : relocate symbols u =
      (relocBranch u.addr target >>= fun offset => .ok (packI u.opcode u.rs u.rt offset, none)) := by
    rw [relocate, resolve, h, hkind]
    rfl
  rw [hbind]
  cases relocBranch u.addr target <;> rfl

/-- Settles O54: the floored distance is the one integer `k` with `4 k` at most the distance and `4 k + 4` above it. -/
theorem branchRelocationIsTheFlooredWordDistance : Obligations.BranchRelocationIsTheFlooredWordDistance := by
  intro symbols u hkind
  refine ⟨relocate_of_undefined, fun target k hsymbol hlow hhigh => ?_⟩
  have hk : ((target : Int) - (u.addr + 4)) / 4 = k := by omega
  rw [relocate_branch hkind hsymbol, relocBranch, hk]
  constructor
  · intro hin
    rw [if_pos hin]
    rfl
  · intro hout
    rw [if_neg (by omega)]
    rfl

/-! ### Jumps -/

/-- Two words differ nowhere under a mask exactly when they agree under it. -/
theorem xor_and_eq_zero_iff {w w' m : Word} : (w ^^^ w') &&& m = 0 ↔ w &&& m = w' &&& m := by
  have hdistrib : (w ^^^ w') &&& m = (w &&& m) ^^^ (w' &&& m) := by
    ext i hi
    simp [Bool.and_xor_distrib_right]
  rw [hdistrib]
  exact BitVec.xor_eq_zero_iff

/-- Two addresses lie in one region exactly when their upper four bits are the same number (R350). -/
theorem crossesRegion_eq_false_iff {pc : Word} {target : Nat} (h : target < 2 ^ 32) :
    crossesRegion pc.toNat target = false ↔ target / 2 ^ 28 = pc.toNat / 2 ^ 28 := by
  have htarget : (BitVec.ofNat 32 target).toNat = target := Nat.mod_eq_of_lt h
  rw [crossesRegion, bne_eq_false_iff_eq, xor_and_eq_zero_iff, BitVec.ofNat_toNat, BitVec.setWidth_eq, ← BitVec.toNat_inj,
    region_toNat, region_toNat, htarget]
  omega

/-- Settles O55: the field is the target's place in its region, to which the CPU adds the region of `pc`. -/
theorem jumpRelocationReachesItsTargetInRegion : Obligations.JumpRelocationReachesItsTargetInRegion := by
  intro s target htarget
  refine ⟨fun hmis => by rw [relocJump, if_neg hmis], fun hal => ⟨_, _, by rw [relocJump, if_pos hal], ?warning, ?reaches⟩⟩
  case warning =>
    by_cases hregion : target / 2 ^ 28 = s.pc.toNat / 2 ^ 28
    · rw [if_pos hregion, (crossesRegion_eq_false_iff htarget).mpr hregion]
      rfl
    · rw [if_neg hregion, if_pos]
      exact (Bool.not_eq_false _).mp (mt (crossesRegion_eq_false_iff htarget).mp hregion)
  case reaches =>
    have hpc := s.pc.isLt
    rw [jumpTo_eq_ofNat, BitVec.toNat_ofNat, BitVec.toNat_ofNat]
    omega

/-! ### `lui` -/

/-- The sign-extended low half of an address, as the number added to the upper half modulo 2^32 (R346). -/
theorem imms_lowHalf_toNat (a : Word) : (imms (a.extractLsb' 0 16)).toNat =
    a.toNat % 65536 + if 32768 ≤ a.toNat % 65536 then 2 ^ 32 - 65536 else 0 := by
  have hlow : (a.extractLsb' 0 16).toNat = a.toNat % 65536 := by simp [BitVec.extractLsb'_toNat]
  rw [imms, BitVec.toNat_signExtend, BitVec.toNat_setWidth, BitVec.msb_eq_decide, hlow]
  simp only [decide_eq_true_eq]
  split <;> omega

/-- Settles O56: the carry in the upper half makes up for the 2^16 a negative low half takes away. -/
theorem luiRelocationPairsWithASignedLowHalf : Obligations.LuiRelocationPairsWithASignedLowHalf := by
  intro a
  apply BitVec.eq_of_toNat_eq
  have ha := a.isLt
  rw [BitVec.toNat_add, imms_lowHalf_toNat, immUpper, BitVec.toNat_shiftLeft, BitVec.toNat_setWidth, relocLui,
    BitVec.toNat_ofNat, Nat.shiftLeft_eq]
  split <;> omega

end Sys2Proof.Machine
end

section
/-! The assembled image (spec/48_assembler.md R301, R325 to R339, R349, R354). A line of pass 1 stands in one segment, at or
after that segment's address, and moves it past its bytes; pass 2 emits exactly those bytes there. So what pass 2 has built
never reaches past the addresses pass 1 had come to, and nothing emitted is moved or overwritten. -/

namespace Sys2Proof.Machine

/-! ### Pass 1 -/

/-- The addresses of pass 1 lie in the address space, that of the text at a multiple of 4 (R338, R339). -/
structure AddrsOk (p : Pass1) : Prop where
  text_lt : p.textAddr < 2 ^ 32
  text_aligned : p.textAddr % 4 = 0
  data_lt : p.dataAddr < 2 ^ 32

/-- The line stands in its segment at or after the address of `p`, and `p'` stands after its bytes. -/
def Advances (p : Pass1) (l : ParsedLine) (p' : Pass1) : Prop :=
  match l.segment with
  | .text => p.textAddr ≤ l.addr ∧ p'.textAddr = l.addr + l.size ∧ p'.dataAddr = p.dataAddr
  | .data => p.dataAddr ≤ l.addr ∧ p'.dataAddr = l.addr + l.size ∧ p'.textAddr = p.textAddr

/-- The payload fits the segment, and the size is what the payload takes (R330 to R336, R339). -/
def PayloadFits (segment : Segment) (size : Nat) : Payload → Prop
  | .encoded _ => segment = .text ∧ size = 4
  | .unresolved _ => segment = .text ∧ size = 4
  | .values width vs => segment = .data ∧ size = width * vs.length
  | .bytes bs => segment = .data ∧ size = bs.length
  | .padding => segment = .text → size % 4 = 0
  | .nothing => True

/-- What a line of pass 1 does, from `p` to `p'`. -/
structure LineTaken (p : Pass1) (l : ParsedLine) (p' : Pass1) : Prop where
  addrs : AddrsOk p'
  advances : Advances p l p'
  payload : PayloadFits l.segment l.size l.payload

/-- A line without bytes that changes at most the segment. -/
theorem emptyLine_taken {n : Nat} {p p' : Pass1} {warning : Option AsmWarningKind} (hp : AddrsOk p)
    (ht : p'.textAddr = p.textAddr) (hd : p'.dataAddr = p.dataAddr) : LineTaken p (emptyLine n p warning) p' := by
  refine ⟨⟨ht ▸ hp.text_lt, ht ▸ hp.text_aligned, hd ▸ hp.data_lt⟩, ?_, trivial⟩
  cases hs : p.segment <;> simp [Advances, emptyLine, activeAddr, hs, ht, hd]

/-- A reservation that, in the text, ends at a multiple of 4 takes its line from `p` to `p'`. -/
theorem reserve_taken {n align size : Nat} {payload : Payload} {p p' : Pass1} {l : ParsedLine} (hp : AddrsOk p)
    (halign : 0 < align) (htext : p.segment = .text → (alignNat align (activeAddr p) + size) % 4 = 0)
    (h : reserve n align size payload p = .ok (p', l)) (hpay : PayloadFits p.segment size payload) :
    LineTaken p l p' := by
  obtain ⟨rfl, hadvance⟩ := reserve_eq_ok h
  obtain ⟨hlt, haddr, hsegment, -, hdata, htextAddr⟩ := advanceTo_eq_ok hadvance
  obtain ⟨hge, -, -⟩ := alignNat_spec halign (activeAddr p)
  cases hs : p.segment with
  | text =>
    have hkept := hdata hs
    have hset : p'.textAddr = alignNat align (activeAddr p) + size := by simpa [activeAddr, hsegment, hs] using haddr
    refine ⟨⟨hset ▸ hlt, hset ▸ htext hs, hkept ▸ hp.data_lt⟩, ?_, hs ▸ hpay⟩
    simpa [Advances, hs, hset, hkept, activeAddr] using hge
  | data =>
    have hkept := htextAddr hs
    have hset : p'.dataAddr = alignNat align (activeAddr p) + size := by simpa [activeAddr, hsegment, hs] using haddr
    refine ⟨⟨hkept ▸ hp.text_lt, hkept ▸ hp.text_aligned, hset ▸ hlt⟩, ?_, hs ▸ hpay⟩
    simpa [Advances, hs, hset, hkept, activeAddr] using hge

/-- A reservation in the data segment, where any size fits. -/
theorem inData_reserve_taken {n align size : Nat} {payload : Payload} {p p' : Pass1} {l : ParsedLine} (hp : AddrsOk p)
    (hseg : p.segment = .data) (halign : 0 < align) (h : reserve n align size payload p = .ok (p', l))
    (hpay : PayloadFits .data size payload) : LineTaken p l p' :=
  reserve_taken hp halign (by simp [hseg]) h (hseg ▸ hpay)

/-- A data directive that succeeds stands in the data segment (R329). -/
theorem inData_eq_ok {p : Pass1} {r : Except AsmErrorKind (Pass1 × ParsedLine)} {v : Pass1 × ParsedLine}
    (h : inData p r = .ok v) : p.segment = .data ∧ r = .ok v := by
  unfold inData at h
  split at h
  · next hseg => exact ⟨hseg, h⟩
  · cases h

/-- `.word`, `.half` and `.byte` (R330 to R332). -/
theorem valueDirective_taken {n width : Nat} {ts : List Token} {p p' : Pass1} {l : ParsedLine} (hp : AddrsOk p)
    (hwidth : 0 < width) (h : inData p (valueDirective n width ts p) = .ok (p', l)) : LineTaken p l p' := by
  obtain ⟨hseg, h⟩ := inData_eq_ok h
  obtain ⟨vs, -, h⟩ := bind_eq_ok h
  dsimp only at h
  split at h
  · cases h
  · exact inData_reserve_taken hp hseg hwidth h ⟨rfl, rfl⟩

/-- `.ascii` and `.asciiz` (R333, R334). -/
theorem stringDirective_taken {n : Nat} {terminator : List Byte} {ts : List Token} {p p' : Pass1} {l : ParsedLine}
    (hp : AddrsOk p) (h : inData p (stringDirective n terminator ts p) = .ok (p', l)) : LineTaken p l p' := by
  obtain ⟨hseg, h⟩ := inData_eq_ok h
  unfold stringDirective at h
  split at h
  · exact inData_reserve_taken hp hseg Nat.one_pos h ⟨rfl, rfl⟩
  · cases h

/-- The padding of a multiple of 4 up to a multiple of a power of two is a multiple of 4 (R336). -/
theorem padding_mod_four (k : Nat) {addr : Nat} (h : addr % 4 = 0) : (alignNat (2 ^ k) addr - addr) % 4 = 0 := by
  obtain ⟨hge, hlt, hmultiple⟩ := alignNat_spec (Nat.two_pow_pos k) addr
  by_cases hk : 2 ≤ k
  · have hfour : alignNat (2 ^ k) addr % 2 ^ 2 = 0 :=
      Nat.mod_eq_zero_of_dvd ((Nat.pow_dvd_pow 2 hk).trans (Nat.dvd_of_mod_eq_zero hmultiple))
    omega
  · have hdvd : 2 ^ k ∣ addr := (Nat.pow_dvd_pow 2 (by omega : k ≤ 2)).trans (Nat.dvd_of_mod_eq_zero h)
    rw [alignNat_of_multiple (Nat.two_pow_pos k) (Nat.mod_eq_zero_of_dvd hdvd), Nat.sub_self]

/-- `.align`, in either segment (R336). -/
theorem align_taken {n : Nat} {ts : List Token} {p p' : Pass1} {l : ParsedLine} (hp : AddrsOk p)
    (h : directiveLine n .align ts p = .ok (p', l)) : LineTaken p l p' := by
  obtain ⟨_, k, -, -, -, -, h⟩ := directiveLine_align_eq_ok h
  have hsize : p.segment = .text → (alignNat (2 ^ k.toNat) (activeAddr p) - activeAddr p) % 4 = 0 := fun hs =>
    padding_mod_four _ (by simpa [activeAddr, hs] using hp.text_aligned)
  refine reserve_taken hp Nat.one_pos (fun hs => ?_) h hsize
  have hactive : activeAddr p % 4 = 0 := by simpa [activeAddr, hs] using hp.text_aligned
  have := hsize hs
  rw [alignNat_one]
  omega

/-- The directives (R328 to R336). -/
theorem directiveLine_taken {n : Nat} {d : Directive} {ts : List Token} {p p' : Pass1} {l : ParsedLine}
    (hp : AddrsOk p) (h : directiveLine n d ts p = .ok (p', l)) : LineTaken p l p' := by
  cases d with
  | text | data =>
    obtain ⟨-, -, h⟩ := bind_eq_ok h
    cases h
    exact emptyLine_taken hp rfl rfl
  | word | half | byte => exact valueDirective_taken hp (by decide) h
  | ascii | asciiz => exact stringDirective_taken hp h
  | space =>
    obtain ⟨hseg, h⟩ := inData_eq_ok h
    obtain ⟨⟨k, rest⟩, -, h⟩ := bind_eq_ok h
    obtain ⟨-, -, h⟩ := bind_eq_ok h
    exact inData_reserve_taken hp hseg Nat.one_pos h nofun
  | align => exact align_taken hp h

/-- An instruction line is a reservation of 4 bytes in the text (R339), whatever its payload becomes. -/
theorem instructionLine_taken {n : Nat} {name : Text} {ts : List Token} {p p' : Pass1} {l : ParsedLine}
    (hp : AddrsOk p) (h : instructionLine n name ts p = .ok (p', l)) : LineTaken p l p' := by
  unfold instructionLine at h
  split at h
  · cases h
  · next hseg =>
    have htext : p.segment = .text := by
      cases hs : p.segment with
      | text => rfl
      | data => exact absurd hs hseg
    obtain ⟨⟨q, r⟩, hreserve, h⟩ := bind_eq_ok h
    obtain ⟨m, -, h⟩ := bind_eq_ok h
    obtain ⟨a, -, h⟩ := bind_eq_ok h
    obtain ⟨-, -, hmultiple⟩ := alignNat_spec (n := 4) (by decide) (activeAddr p)
    have ht := reserve_taken hp (by decide) (fun _ => by omega) hreserve trivial
    obtain ⟨rfl, -⟩ := reserve_eq_ok hreserve
    cases a <;> cases h <;> exact ⟨ht.addrs, ht.advances, htext, rfl⟩

/-- A line without its label (R326). -/
theorem bodyLine_taken {n : Nat} {ts : List Token} {p p' : Pass1} {l : ParsedLine} (hp : AddrsOk p)
    (h : bodyLine n ts p = .ok (p', l)) : LineTaken p l p' := by
  unfold bodyLine at h
  split at h
  · cases h; exact emptyLine_taken hp rfl rfl
  · split at h
    · exact directiveLine_taken hp h
    · cases h; exact emptyLine_taken hp rfl rfl
  · exact instructionLine_taken hp h
  · cases h

/-- A label changes no address, so a line of pass 1 does what its body does. -/
theorem pass1Line_taken {n : Nat} {line : Text} {p p' : Pass1} {l : ParsedLine} (hp : AddrsOk p)
    (h : pass1Line n line p = .ok (p', l)) : LineTaken p l p' := by
  obtain ⟨ts, -, h⟩ := bind_eq_ok h
  split at h
  · next name _ =>
    obtain ⟨q, hbind, h⟩ := bind_eq_ok h
    obtain ⟨-, rfl⟩ := bindLabel_eq_ok hbind
    have hq : AddrsOk { p with symbols := p.symbols ++ [(lower name, activeAddr p)] } :=
      ⟨hp.text_lt, hp.text_aligned, hp.data_lt⟩
    obtain ⟨haddrs, hadvances, hpayload⟩ := bodyLine_taken hq h
    exact ⟨haddrs, hadvances, hpayload⟩
  · exact bodyLine_taken hp h

/-! ### Pass 2 -/

/-- The place of a line's word in the text image (R349). -/
def wordPlace (cfg : AsmConfig) (l : ParsedLine) : Nat := (l.addr - cfg.textStart.toNat) / 4

/-- The place of a line's bytes in the data image (R349). -/
def bytePlace (cfg : AsmConfig) (l : ParsedLine) : Nat := l.addr - cfg.dataStart.toNat

/-- What a line of pass 2 can add to the images: words or bytes of the line's size at the line's place, or nothing. -/
inductive Emitted (cfg : AsmConfig) (l : ParsedLine) (b : Build) : Build → Prop where
  | words (ws : List Word) (hseg : l.segment = .text) (hsize : 4 * ws.length = l.size) :
      Emitted cfg l b (emitWords (wordPlace cfg l) ws b)
  | bytes (bs : List Byte) (hseg : l.segment = .data) (hsize : bs.length = l.size) :
      Emitted cfg l b (emitBytes (bytePlace cfg l) bs b)
  | nothing : Emitted cfg l b b

/-- A line emits what its payload holds. -/
theorem emitLine_emitted {cfg : AsmConfig} {symbols : List (Text × Nat)} {l : ParsedLine} {b b' : Build}
    {warning : Option AsmWarningKind} (hl : PayloadFits l.segment l.size l.payload)
    (h : emitLine cfg symbols l b = .ok (b', warning)) : Emitted cfg l b b' := by
  obtain ⟨line, segment, addr, size, payload, _⟩ := l
  cases payload with
  | encoded w =>
    cases h
    exact .words [w] hl.1 hl.2.symm
  | unresolved u =>
    obtain ⟨⟨w, _⟩, -, h⟩ := bind_eq_ok h
    cases h
    exact .words [w] hl.1 hl.2.symm
  | values width vs =>
    obtain ⟨bs, hbs, h⟩ := bind_eq_ok h
    cases h
    exact .bytes bs hl.1 ((length_emitValues hbs).trans hl.2.symm)
  | bytes bs =>
    cases h
    exact .bytes bs hl.1 hl.2.symm
  | padding =>
    cases segment with
    | text =>
      cases h
      exact .words _ rfl (by rw [List.length_replicate]; exact Nat.mul_div_cancel' (Nat.dvd_of_mod_eq_zero (hl rfl)))
    | data =>
      cases h
      exact .bytes _ rfl List.length_replicate
  | nothing =>
    cases h
    exact .nothing

/-- What pass 2 has built reaches no further than the addresses of pass 1. -/
structure Within (cfg : AsmConfig) (p : Pass1) (b : Build) : Prop where
  text : cfg.textStart.toNat + 4 * b.textWords.length ≤ p.textAddr
  data : cfg.dataStart.toNat + b.dataBytes.length ≤ p.dataAddr

/-- Emitting a line of pass 1 keeps what is built within the addresses, and keeps every word already emitted. -/
theorem emitted_within {cfg : AsmConfig} {p p' : Pass1} {l : ParsedLine} {b b' : Build} (hb : Within cfg p b)
    (hl : Advances p l p') (h : Emitted cfg l b b') : Within cfg p' b' ∧ b.textWords <+: b'.textWords := by
  obtain ⟨htext, hdata⟩ := hb
  cases h with
  | words ws hseg hsize =>
    simp only [Advances, hseg] at hl
    obtain ⟨hge, hset, hkept⟩ := hl
    have hprefix : b.textWords <+: (emitWords (wordPlace cfg l) ws b).textWords :=
      (List.prefix_append _ _).trans (List.prefix_append _ _)
    refine ⟨⟨?_, hkept ▸ hdata⟩, hprefix⟩
    simp only [emitWords, List.length_append, length_padTo, wordPlace]
    omega
  | bytes bs hseg hsize =>
    simp only [Advances, hseg] at hl
    obtain ⟨hge, hset, hkept⟩ := hl
    refine ⟨⟨hkept ▸ htext, ?_⟩, List.prefix_rfl⟩
    simp only [emitBytes, List.length_append, length_padTo, bytePlace]
    omega
  | nothing =>
    refine ⟨?_, List.prefix_rfl⟩
    cases hseg : l.segment <;> simp only [Advances, hseg] at hl <;> constructor <;> omega

/-- The word of an instruction line, encoded or relocated, stands at the line's place in `words` (R344, R349). -/
def WordStands (cfg : AsmConfig) (symbols : List (Text × Nat)) (l : ParsedLine) (words : List Word) : Prop :=
  (∀ w : Word, l.payload = .encoded w → words[wordPlace cfg l]? = some w) ∧
    (∀ u : Unresolved, l.payload = .unresolved u →
      ∃ (w : Word) (warning : Option AsmWarningKind), relocate symbols u = .ok (w, warning) ∧
        words[wordPlace cfg l]? = some w)

/-- A word that stands at its place stands there in every longer image. -/
theorem WordStands.mono {cfg : AsmConfig} {symbols : List (Text × Nat)} {l : ParsedLine} {words words' : List Word}
    (h : WordStands cfg symbols l words) (hprefix : words <+: words') : WordStands cfg symbols l words' := by
  have hkept : ∀ {i : Nat} {w : Word}, words[i]? = some w → words'[i]? = some w := by
    intro i w hw
    obtain ⟨hi, rfl⟩ := List.getElem?_eq_some_iff.mp hw
    exact List.prefix_iff_getElem?.mp hprefix i hi
  refine ⟨fun w hpay => hkept (h.1 w hpay), fun u hpay => ?_⟩
  obtain ⟨w, warning, hrelocate, hw⟩ := h.2 u hpay
  exact ⟨w, warning, hrelocate, hkept hw⟩

/-- A word emitted past what is built stands at its place. -/
theorem getElem?_emitWords {b : Build} {place : Nat} (w : Word) (h : b.textWords.length ≤ place) :
    (emitWords place [w] b).textWords[place]? = some w := by
  have hlen : (padTo place 0 b.textWords).length = place := by rw [length_padTo]; omega
  rw [emitWords, List.getElem?_append_right (by omega), hlen, Nat.sub_self]
  rfl

/-- Emitting an instruction line puts its word at its place. -/
theorem emitLine_wordStands {cfg : AsmConfig} {symbols : List (Text × Nat)} {l : ParsedLine} {b b' : Build}
    {warning : Option AsmWarningKind} (hplace : l.segment = .text → b.textWords.length ≤ wordPlace cfg l)
    (hl : PayloadFits l.segment l.size l.payload) (h : emitLine cfg symbols l b = .ok (b', warning)) :
    WordStands cfg symbols l b'.textWords := by
  unfold emitLine at h
  constructor
  · intro w hpay
    rw [hpay] at h hl
    cases h
    exact getElem?_emitWords w (hplace hl.1)
  · intro u hpay
    rw [hpay] at h hl
    obtain ⟨⟨w, warning'⟩, hrelocate, h⟩ := bind_eq_ok h
    cases h
    exact ⟨w, _, hrelocate, getElem?_emitWords w (hplace hl.1)⟩

/-- A line of pass 2 builds the images its emission builds. -/
theorem pass2Line_eq_ok {cfg : AsmConfig} {symbols : List (Text × Nat)} {l : ParsedLine} {b b' : Build}
    (h : pass2Line cfg symbols l b = .ok b') :
    ∃ e warning, emitLine cfg symbols l b = .ok (e, warning) ∧ b'.textWords = e.textWords ∧
      b'.dataBytes = e.dataBytes := by
  obtain ⟨⟨e, warning⟩, hemit, h⟩ := bind_eq_ok h
  cases h
  exact ⟨e, warning, hemit, rfl, rfl⟩

/-- One line through both passes. -/
theorem pass2Line_spec {cfg : AsmConfig} {symbols : List (Text × Nat)} {p p' : Pass1} {l : ParsedLine} {b b' : Build}
    (hb : Within cfg p b) (hl : LineTaken p l p') (h : pass2Line cfg symbols l b = .ok b') :
    Within cfg p' b' ∧ b.textWords <+: b'.textWords ∧ WordStands cfg symbols l b'.textWords := by
  obtain ⟨e, warning, hemit, htext, hdata⟩ := pass2Line_eq_ok h
  obtain ⟨⟨hewithin, hedata⟩, hprefix⟩ := emitted_within hb hl.advances (emitLine_emitted hl.payload hemit)
  rw [htext]
  refine ⟨⟨htext ▸ hewithin, hdata ▸ hedata⟩, hprefix, emitLine_wordStands (fun hseg => ?_) hl.payload hemit⟩
  have hadvances := hl.advances
  simp only [Advances, hseg] at hadvances
  have := hb.text
  rw [wordPlace]
  omega

/-! ### Both passes -/

/-- A pass 1 of a line and more lines that succeeds. -/
theorem pass1_cons_eq_ok {n : Nat} {line : Text} {source : List (Nat × Text)} {p q : Pass1} {ls : List ParsedLine}
    (h : pass1 ((n, line) :: source) p = .ok (q, ls)) :
    ∃ p' l ls', pass1Line n line p = .ok (p', l) ∧ pass1 source p' = .ok (q, ls') ∧ ls = l :: ls' := by
  obtain ⟨⟨p', l⟩, hline, h⟩ := bind_eq_ok h
  obtain ⟨⟨q', ls'⟩, hrest, h⟩ := bind_eq_ok h
  cases h
  exact ⟨p', l, ls', atLine_eq_ok hline, hrest, rfl⟩

/-- Where both passes succeed, pass 1 keeps its addresses in range, what pass 2 builds stays within them, and each line's
word stands at its place. -/
theorem passes_spec {cfg : AsmConfig} {symbols : List (Text × Nat)} {source : List (Nat × Text)} {p q : Pass1}
    {ls : List ParsedLine} {b b' : Build} (hp : AddrsOk p) (hb : Within cfg p b) (h1 : pass1 source p = .ok (q, ls))
    (h2 : pass2 cfg symbols ls b = .ok b') :
    AddrsOk q ∧ Within cfg q b' ∧ b.textWords <+: b'.textWords ∧ ∀ l ∈ ls, WordStands cfg symbols l b'.textWords := by
  induction source generalizing p ls b with
  | nil =>
    cases h1
    cases h2
    exact ⟨hp, hb, List.prefix_rfl, nofun⟩
  | cons head source ih =>
    obtain ⟨n, line⟩ := head
    obtain ⟨p', l, ls', hline, hrest, rfl⟩ := pass1_cons_eq_ok h1
    obtain ⟨b1, hline2, hrest2⟩ := bind_eq_ok h2
    have hl := pass1Line_taken hp hline
    obtain ⟨hb1, hprefix, hstands⟩ := pass2Line_spec hb hl (atLine_eq_ok hline2)
    obtain ⟨hq, hb', hprefix', hall⟩ := ih hl.addrs hb1 hrest hrest2
    refine ⟨hq, hb', hprefix.trans hprefix', fun m hm => ?_⟩
    rcases List.mem_cons.mp hm with rfl | hm
    · exact hstands.mono hprefix'
    · exact hall m hm

/-- An assembly that succeeds: a valid configuration, both passes, and the image of what they end in. -/
theorem assembleText_eq_ok {cfg : AsmConfig} {source : Text} {image : AssemblyImage} {ws : List AsmWarning}
    (h : assembleText cfg source = .ok (image, ws)) :
    cfg.textStart.toNat % 4 = 0 ∧ ∃ p ls b, pass1 (prePass source) (pass1Start cfg) = .ok (p, ls) ∧
      pass2 cfg p.symbols ls { textWords := [], dataBytes := [], sourceMap := [], warnings := [] } = .ok b ∧
      image = imageOf cfg p b := by
  unfold assembleText at h
  split at h
  · cases h
  · next hvalid =>
    obtain ⟨⟨p, ls⟩, h1, h⟩ := bind_eq_ok h
    obtain ⟨b, h2, h⟩ := bind_eq_ok h
    cases h
    exact ⟨by simpa [AsmConfig.valid] using hvalid, p, ls, b, h1, h2, rfl⟩

/-- What the passes of an assembly that succeeds end in. -/
theorem assembleText_spec {cfg : AsmConfig} {source : Text} {image : AssemblyImage} {ws : List AsmWarning}
    (h : assembleText cfg source = .ok (image, ws)) :
    cfg.textStart.toNat % 4 = 0 ∧ ∃ p ls b, pass1 (prePass source) (pass1Start cfg) = .ok (p, ls) ∧
      image = imageOf cfg p b ∧ AddrsOk p ∧ Within cfg p b ∧ ∀ l ∈ ls, WordStands cfg p.symbols l b.textWords := by
  obtain ⟨hvalid, p, ls, b, h1, h2, rfl⟩ := assembleText_eq_ok h
  obtain ⟨hp, hb, -, hall⟩ :=
    passes_spec ⟨cfg.textStart.isLt, hvalid, cfg.dataStart.isLt⟩ ⟨Nat.le_refl _, Nat.le_refl _⟩ h1 h2
  exact ⟨hvalid, p, ls, b, h1, rfl, hp, hb, hall⟩

/-- Settles O51: what is built lies within the addresses pass 1 ends at, and the image is padded up to them. -/
theorem imageSizesMatchTheirContents : Obligations.ImageSizesMatchTheirContents := by
  intro cfg source image ws h
  obtain ⟨hvalid, p, ls, b, -, rfl, ⟨htextLt, haligned, hdataLt⟩, ⟨htext, hdata⟩, -⟩ := assembleText_spec h
  refine ⟨rfl, rfl, ?_, ?_, ?_, ?_, ?_⟩ <;> simp only [imageOf, length_padTo] <;> omega

/-- Settles O52: the word stands in what pass 2 builds, and the image only pads that. -/
theorem encodedWordsStandAtTheirAddresses : Obligations.EncodedWordsStandAtTheirAddresses := by
  intro cfg source image ws p ls h h1 l hl
  obtain ⟨-, p', ls', b, h1', rfl, -, -, hall⟩ := assembleText_spec h
  cases h1.symm.trans h1'
  exact (hall l hl).mono (List.prefix_append _ _)

end Sys2Proof.Machine
end

section
/-! The host's operations (spec/60_exceptions.md R425) and the reset (spec/70_reset_and_hazards.md R450 to R454): each
operation is a step, a read or a store of bytes, a reset, or touches nothing the invariant speaks of. -/

namespace Sys2Proof.Machine

/-! ### What keeps the invariant -/

/-- Memory and page set replaced by those of a state whose store is in form: the invariant speaks of nothing else that
they change. -/
theorem replacedStore_inv {s u : State} (h : Inv s) (hu : StoreOk u) : Inv { s with mem := u.mem, pages := u.pages } :=
  ⟨h.zero, h.aligned, storeOk_congr rfl rfl hu, h.scratch, h.mask, h.halts⟩

theorem touch_inv (a : Word) (n : Nat) {s : State} (h : Inv s) : Inv (touch a n s) := by
  rw [touch_eq, ← touch_mem a n s]
  exact replacedStore_inv h (touch_storeOk a n h.store)

theorem putBytes_inv (a : Word) (bs : List Byte) {s : State} (h : Inv s) : Inv (putBytes a bs s) := by
  rw [putBytes_eq]
  exact replacedStore_inv h (putBytes_storeOk a bs h.store)

/-- Loading an image stores two runs of bytes (spec/20_memory.md R73). -/
theorem loadImage_inv (image : AssemblyImage) {s : State} (h : Inv s) : Inv (loadImage image s) := by
  rw [loadImage, putWords_eq_putBytes]
  exact putBytes_inv _ _ (putBytes_inv _ _ h)

/-- The stop request is no part of the invariant. -/
theorem setStop_inv (on : Bool) {s : State} (h : Inv s) : Inv (setStop on s) :=
  ⟨h.zero, h.aligned, storeOk_congr rfl rfl h.store, h.scratch, h.mask, h.halts⟩

/-- The entry point is word-aligned (spec/70_reset_and_hazards.md R457). -/
theorem resetPc_aligned : Config.resetPc.toNat % 4 = 0 := rfl

/-- A reset needs the memory and the page set in form, and nothing of the CPU (spec/70_reset_and_hazards.md R450). -/
theorem resetCpu_inv {s : State} (h : StoreOk s) : Inv (resetCpu s) :=
  ⟨resetRegs_zero, resetPc_aligned, storeOk_congr rfl rfl h, rfl, by simp [resetCpu, MaskLegal], nofun⟩

/-- A new CPU on the session's memory is a reset one, since the host keeps its stop request
(spec/70_reset_and_hazards.md R452). -/
theorem newCpu_inv {s : State} (h : StoreOk s) : Inv (setStop s.stopRequest (newCpu s.mem s.pages)) := resetCpu_inv h

/-- The store of the machine just constructed: no byte and no page. -/
theorem reset_storeOk : StoreOk State.reset := ⟨rfl, rfl, fun _ h => absurd rfl h⟩

theorem reset_inv : Inv State.reset := resetCpu_inv reset_storeOk

theorem hostStep_inv {s : State} (h : Inv s) : Inv (hostStep s) := by
  obtain ⟨t, ht⟩ := everyStepAnswersANextState s
  rw [hostStep_eq ht]
  exact everyStepKeepsTheInvariant s t h ht

/-- Settles O40, operation by operation: a new CPU is a reset one, the reads only allocate, the stores put bytes. -/
theorem everyHostOperationKeepsTheInvariant : Obligations.EveryHostOperationKeepsTheInvariant := by
  intro hooked op s h
  cases op with
  | assemble | view => exact h
  | newSession => exact setStop_inv _ reset_inv
  | newCpu => exact newCpu_inv h.store
  | reset => exact resetCpu_inv h.store
  | loadImage image => exact loadImage_inv image h
  | getByte | getHalf | getWord | dump => exact touch_inv _ _ h
  | setByte | setHalf | setWord => exact putBytes_inv _ _ h
  | step => exact hostStep_inv h
  | stopRequest on => exact setStop_inv on h

/-! ### The values of a reset -/

/-- Settles O29, kind by kind. -/
theorem exceptionKindsHaveTheirBits : Obligations.ExceptionKindsHaveTheirBits :=
  ⟨rfl, rfl, rfl, rfl, rfl, rfl, rfl, rfl⟩

/-- Settles O39: the state after construction is a reset one, over an empty store. -/
theorem resetMeetsTheInvariant : Obligations.ResetMeetsTheInvariant := reset_inv

/-- The register file after reset: 0 everywhere but in `$gp` and `$sp` (spec/10_state.md R34). -/
theorem readReg_of_resetRegs {s : State} (h : s.regs = resetRegs) (r : RegName) :
    readReg s r = if r = 28 then 0x10008000 else if r = 29 then 0x7FFFFFFC else 0 := by
  have h28 : 28 = r.toNat ↔ r = 28 := ⟨fun e => BitVec.eq_of_toNat_eq e.symm, fun e => by rw [e]; rfl⟩
  have h29 : 29 = r.toNat ↔ r = 29 := ⟨fun e => BitVec.eq_of_toNat_eq e.symm, fun e => by rw [e]; rfl⟩
  by_cases h0 : r = 0
  · subst h0
    exact readReg_zero s
  · rw [readReg, if_neg h0]
    simp only [h, resetRegs, Vector.getElem_set, Vector.getElem_replicate, h28, h29]
    split_ifs with hsp hgp
    · simp [hsp] at hgp
    all_goals rfl

/-- Settles O45: `reset()` writes the CPU's fields and no other. -/
theorem resetRestoresTheCpuAndKeepsTheMemory : Obligations.ResetRestoresTheCpuAndKeepsTheMemory :=
  fun _ => ⟨readReg_of_resetRegs rfl, resetRegs_zero, rfl, rfl, rfl, rfl, rfl, rfl, rfl⟩

/-- Settles O46: the registers are those of any reset, and an unwritten byte reads 0. -/
theorem resetStateHasTheGivenValues : Obligations.ResetStateHasTheGivenValues :=
  ⟨readReg_of_resetRegs rfl, rfl, rfl, rfl, rfl, fun _ => rfl, rfl, rfl⟩

end Sys2Proof.Machine
end

section
/-! The driver and the event hook (spec/60_exceptions.md R420 to R426). A run is its first step, and then either stopped
there or the run of what is left: `StopDue` says which. What a run does is read off from these two cases. -/

namespace Sys2Proof.Machine

/-! ### One turn of a run -/

/-- After one step and `n` more a stop is due if the host requested it by the end of the first, or if it is due `n` steps
after that. -/
theorem stopDue_succ (stop : Bool) (stops : List Bool) (s : State) (n : Nat) :
    StopDue (stop :: stops) s (n + 1) ↔ stop = true ∨ StopDue stops (hostStep s) n := by
  have hmem : true ∈ (stop :: stops).take (n + 1) ↔ stop = true ∨ true ∈ stops.take n := by
    rw [List.take_succ_cons, List.mem_cons, eq_comm]
  unfold StopDue
  rw [hmem, hostSteps]
  tauto

/-- After the first step the driver stops exactly where a stop is due (R420, R421). -/
theorem driverStops_first_iff (stop : Bool) (stops : List Bool) (s : State) :
    driverStops (setStop stop (hostStep s)) = true ↔ StopDue (stop :: stops) s 1 := by
  rw [driverStops_iff, stopDue_succ, StopDue]
  simp only [setStop_mask, setStop_halted, setStop_stopRequest, hostSteps, List.take_zero, List.not_mem_nil, or_false]
  tauto

section
variable {stop : Bool} {stops : List Bool} {s : State}

/-- A run that is due to stop after its first step stops there. -/
theorem drive_cons_stop (hooked : Bool) (h : StopDue (stop :: stops) s 1) :
    drive hooked (stop :: stops) s =
      { status := .stopped, state := setStop stop (hostStep s), hooks := hookCalls hooked (hostStep s) } := by
  rw [drive, driverLoop_stop] <;> rw [hostStep_setStop]
  · rfl
  · exact (driverStops_first_iff stop stops s).mpr h

/-- A run that is not goes on from there as a run of the steps that are left. -/
theorem drive_cons_go (hooked : Bool) (h : ¬ StopDue (stop :: stops) s 1) :
    drive hooked (stop :: stops) s = drive hooked stops (hostStep s) := by
  have hstop : stop = false := by
    rw [stopDue_succ, not_or] at h
    exact Bool.eq_false_of_not_eq_true h.1
  rw [drive, driverLoop_go] <;> rw [hostStep_setStop]
  · rw [hstop]
    rfl
  · exact Bool.eq_false_of_not_eq_true (mt (driverStops_first_iff stop stops s).mp h)

end

/-! ### Where a run ends -/

/-- A run stops after the first number of steps at which a stop is due. -/
theorem drive_of_stopDue (hooked : Bool) {stops : List Bool} {s : State} {n : Nat} (hn : n + 1 ≤ stops.length)
    (hdue : StopDue stops s (n + 1)) (hfirst : ∀ k, 1 ≤ k → k < n + 1 → ¬ StopDue stops s k) :
    (drive hooked stops s).status = .stopped ∧
      (drive hooked stops s).state = setStop (decide (true ∈ stops.take (n + 1))) (hostSteps (n + 1) s) := by
  induction n generalizing stops s with
  | zero =>
    cases stops with
    | nil => simp at hn
    | cons stop stops =>
      rw [drive_cons_stop hooked hdue]
      exact ⟨rfl, by cases stop <;> rfl⟩
  | succ n ih =>
    cases stops with
    | nil => simp at hn
    | cons stop stops =>
      have hgo : ¬ StopDue (stop :: stops) s 1 := hfirst 1 (by omega) (by omega)
      have hstop : stop ≠ true := fun e => hgo ((stopDue_succ ..).mpr (.inl e))
      obtain ⟨hstatus, hstate⟩ := ih (Nat.le_of_succ_le_succ hn) (((stopDue_succ ..).mp hdue).resolve_left hstop)
        fun k h1 hk hd => hfirst (k + 1) (by omega) (by omega) ((stopDue_succ ..).mpr (.inr hd))
      rw [drive_cons_go hooked hgo]
      refine ⟨hstatus, hstate.trans ?_⟩
      simp [hostSteps, hstop]

/-- A run in which no stop falls due takes all its steps and is still running. -/
theorem drive_of_not_stopDue (hooked : Bool) {stops : List Bool} {s : State}
    (hnever : ∀ k, 1 ≤ k → k ≤ stops.length → ¬ StopDue stops s k) :
    (drive hooked stops s).status = .running ∧
      (drive hooked stops s).state = setStop false (hostSteps stops.length s) := by
  induction stops generalizing s with
  | nil => exact ⟨rfl, rfl⟩
  | cons stop stops ih =>
    rw [drive_cons_go hooked (hnever 1 (by omega) (by simp))]
    exact ih fun k _ hk hd =>
      hnever (k + 1) (by omega) (Nat.succ_le_succ hk) ((stopDue_succ ..).mpr (.inr hd))

/-- Settles O47, by induction on the steps taken before the stop, or on all of them. -/
theorem theDriverStopsExactlyOnItsConditions : Obligations.TheDriverStopsExactlyOnItsConditions := by
  intro hooked stops s
  refine ⟨fun n h1 hn hdue hfirst => ?_, drive_of_not_stopDue hooked⟩
  obtain ⟨m, rfl⟩ := Nat.exists_eq_add_of_le' h1
  exact drive_of_stopDue hooked hn hdue hfirst

/-- A run that stopped did so right after some host step. -/
theorem drive_stopped {hooked : Bool} {stops : List Bool} {s : State} (h : (drive hooked stops s).status = .stopped) :
    ∃ (u : State) (b : Bool), (drive hooked stops s).state = setStop b (hostStep u) := by
  induction stops generalizing s with
  | nil => cases h
  | cons stop stops ih =>
    by_cases hdue : StopDue (stop :: stops) s 1
    · exact ⟨s, stop, by rw [drive_cons_stop hooked hdue]⟩
    · rw [drive_cons_go hooked hdue] at h ⊢
      exact ih h

/-! ### The hook -/

/-- A hook changes neither how a run ends nor its state. -/
theorem drive_hooked (stops : List Bool) (s : State) :
    (drive true stops s).state = (drive false stops s).state ∧
      (drive true stops s).status = (drive false stops s).status := by
  induction stops generalizing s with
  | nil => exact ⟨rfl, rfl⟩
  | cons stop stops ih =>
    by_cases hdue : StopDue (stop :: stops) s 1
    · rw [drive_cons_stop true hdue, drive_cons_stop false hdue]
      exact ⟨rfl, rfl⟩
    · rw [drive_cons_go true hdue, drive_cons_go false hdue]
      exact ih (hostStep s)

/-- The calls of a run are those of its last step, if it stopped; no earlier step made one (R423). -/
theorem drive_hooks (hooked : Bool) (stops : List Bool) (s : State) :
    (drive hooked stops s).hooks =
      if (drive hooked stops s).status = .stopped then hookCalls hooked (drive hooked stops s).state else [] := by
  induction stops generalizing s with
  | nil => rfl
  | cons stop stops ih =>
    by_cases hdue : StopDue (stop :: stops) s 1
    · rw [drive_cons_stop hooked hdue]
      rfl
    · rw [drive_cons_go hooked hdue]
      exact ih (hostStep s)

/-- Of the host's operations only a step calls the hook. -/
theorem applyHostOp_hooks (hooked : Bool) (op : HostOp) (s : State) :
    (applyHostOp hooked op s).hooks =
      if op = .step then hookCalls hooked (applyHostOp hooked op s).state else [] := by
  cases op <;> rfl

/-- A hook changes neither the reply nor the state of an operation. -/
theorem applyHostOp_hooked (op : HostOp) (s : State) :
    (applyHostOp true op s).reply = (applyHostOp false op s).reply ∧
      (applyHostOp true op s).state = (applyHostOp false op s).state := by
  cases op <;> exact ⟨rfl, rfl⟩

/-- With no hook installed no operation calls one. -/
theorem applyHostOp_hooks_false (op : HostOp) (s : State) : (applyHostOp false op s).hooks = [] := by
  rw [applyHostOp_hooks, hookCalls_false, ite_self]

/-- With no hook installed a sequence of operations calls none. -/
theorem runHost_hooks_false (ops : List HostOp) (s : State) : (runHost false ops s).hooks = [] := by
  induction ops generalizing s with
  | nil => rfl
  | cons op ops ih => rw [runHost_cons_hooks, applyHostOp_hooks_false, ih, List.append_nil]

/-- A hook does not change what a sequence of operations makes of the state. -/
theorem runHost_hooked (ops : List HostOp) (s : State) : (runHost true ops s).state = (runHost false ops s).state := by
  induction ops generalizing s with
  | nil => rfl
  | cons op ops ih => rw [runHost_cons_state, runHost_cons_state, (applyHostOp_hooked op s).2, ih]

/-- One more operation at the end makes its calls after all the others. -/
theorem runHost_concat_hooks (hooked : Bool) (ops : List HostOp) (op : HostOp) (s : State) :
    (runHost hooked (ops ++ [op]) s).hooks =
      (runHost hooked ops s).hooks ++ (applyHostOp hooked op (runHost hooked ops s).state).hooks := by
  induction ops generalizing s with
  | nil => exact List.append_nil _
  | cons o ops ih =>
    rw [List.cons_append, runHost_cons_hooks, ih, runHost_cons_hooks, runHost_cons_state, List.append_assoc]

/-- Settles O48: operations, sequences and runs make the calls of their steps, and a run only those of its last. -/
theorem theHookIsCalledOncePerQualifyingStep : Obligations.TheHookIsCalledOncePerQualifyingStep := by
  refine ⟨fun op s => ?operation, fun ops op s => ?sequence, fun stops s => ?run⟩
  case operation =>
    obtain ⟨hreply, hstate⟩ := applyHostOp_hooked op s
    refine ⟨applyHostOp_hooks_false op s, hreply, hstate, ?_⟩
    rw [applyHostOp_hooks, hookCalls_true, ite_and]
  case sequence => exact ⟨runHost_hooks_false ops s, runHost_hooked ops s, runHost_concat_hooks true ops op s⟩
  case run =>
    obtain ⟨hstate, hstatus⟩ := drive_hooked stops s
    refine ⟨?_, hstate, hstatus, ?_⟩
    · rw [drive_hooks, hookCalls_false, ite_self]
    · rw [drive_hooks, hookCalls_true, ite_and]

/-! ### Completed runs -/

/-- A step on a word that is no instruction does not raise SYSCALL (spec/46_system.md R245). -/
theorem raiseOnly_invalidInst_mask_syscall (s : State) : (raiseOnly .invalidInst (enterStep s)).mask[7] = false := by
  simp [raiseOnly, ExceptionKind.bit]

/-- A host step with SYSCALL in its mask ran `syscall`, wherever `pc` stood: it halted, and `pc` still addresses that
word (spec/46_system.md R240). -/
theorem hostStep_mask_syscall {s : State} (h : (hostStep s).mask = 128) :
    (hostStep s).halted = true ∧ ∃ code, decode (wordAt (hostStep s) (hostStep s).pc) = .instr (.syscall code) := by
  obtain ⟨t, ht⟩ := everyStepAnswersANextState s
  rw [hostStep_eq ht] at h ⊢
  have hbit : t.mask[7] = true := by rw [h]; rfl
  rcases step_cases ht with ⟨i, hi, hexec⟩ | ⟨-, rfl⟩
  · obtain ⟨code, rfl⟩ := exec_mask_syscall hexec (by simp) hbit
    refine ⟨(exec_halted_iff hexec).mpr (.inr ⟨code, rfl⟩), code, ?_⟩
    cases hexec
    exact hi
  · rw [raiseOnly_invalidInst_mask_syscall] at hbit
    cases hbit

/-- Settles O49: the run stopped right after a host step, and that step ran `syscall`. -/
theorem aCompletedRunEndsOnASyscall : Obligations.ACompletedRunEndsOnASyscall := by
  intro hooked stops s hstatus hmask
  obtain ⟨u, b, hstate⟩ := drive_stopped hstatus
  obtain ⟨hhalted, hcode⟩ := hostStep_mask_syscall (s := u) (by rw [← hmask, hstate, setStop_mask])
  exact ⟨⟨hstatus, hmask, by rw [hstate]; exact hhalted⟩, by rw [hstate]; exact hcode⟩

end Sys2Proof.Machine
end
